-- ==== Sys2Proof/Word.lean ====
section
/-! DEFINITION. The word types of NALP: bytes of `BUF` and `SCR`, and bit strings in stream order. -/

namespace Sys2Proof

/-- One byte of `BUF` or `SCR` (20_memory.md R60, R61, R67: every access is one byte wide). -/
abbrev Byte := BitVec 8

/-- A bit string in stream order: the head is the bit read first, the most significant one
(00_scope.md R9, R11). -/
abbrev Bits := List Bool

end Sys2Proof
end

