-- ==== Sys2Proof/Config.lean ====
section
/-! DEFINITION. What is fixed when a block is made (00_scope.md R8, 70_reset_and_hazards.md R274): the limits of
the bit reader, the parameters a claim may quantify over, the open function `REXT_MAP`, and the one free value. -/

namespace Sys2Proof

/-- `BR_MAX_N`: the largest `n` of `READBITS n` (R8). -/
def Config.brMaxN : Nat := 32

/-- `UE_MAX_LZ`: the largest accepted count of leading zero bits (R8, R102). -/
def Config.ueMaxLz : Nat := 32

/-- `PTL_PAD`, the sub-layer padding rule of `profile_tier_level` (R8, R212). -/
inductive PtlPad where
  | hevc
  | none
  deriving DecidableEq, Repr

/-- The parameters of R8 that are data.  The step takes them with the state (field `cfg`), so that a claim may name
them or quantify over them; nothing writes them (R274). -/
structure Cfg where
  /-- `SPS_NUT`: the `nal_unit_type` of an SPS (R98). -/
  spsNut  : BitVec 6
  /-- `REXT_IDC`: the `general_profile_idc` of the Range-Extension profile (R209). -/
  rextIdc : BitVec 5
  /-- `PTL_PAD` (R212). -/
  ptlPad  : PtlPad
  deriving DecidableEq, Repr

/-- The values this hardware takes (R8): 33, 4, `HEVC`. -/
def Cfg.nalp : Cfg := { spsNut := 33, rextIdc := 4, ptlPad := .hevc }

/-- `REXT_MAP`: OPEN in the spec, a total function of the 44-bit constraint block alone (R8, R107, R209).
It has no body, so no claim can rest on a value of it. -/
opaque Config.rextMap : BitVec 44 → BitVec 8

/-- FREE VALUE: what the bits of `STATUS` other than `BUSY` and `DONE` read as while a call is in progress; those
intermediate values are no part of the block's contract (70_reset_and_hazards.md R282).  Log entry 9. -/
opaque Config.freeStatus : Nat → BitVec 13

end Sys2Proof
end

