-- ==== Sys2Proof/Syntax.lean ====
section
/-! DEFINITION. The instructions of NALP: one constructor per row of spec/opcode_table.json.  In the vocabulary of
00_scope.md R3 an instruction is a host command, a stream structure the block recognises, a bit-reader request, or an
internal operation; the operands of a constructor are the fields of its encoding (30_encoding.md). -/

namespace Sys2Proof

/-- The fields of one exponential-Golomb code (30_encoding.md R100): `k` leading zero bits, and the suffix `s` of `k`
bits. -/
structure UeCode where
  k : BitVec 6
  s : BitVec 32
  deriving DecidableEq, Repr

/-- The syntax elements of the SPS prefix, in the order of 30_encoding.md R105 and R106. -/
inductive SpsElem where
  | videoParameterSetId
  | maxSubLayersMinus1
  | temporalIdNestingFlag
  | generalProfileSpace
  | generalTierFlag
  | generalProfileIdc
  | generalCompatibilityFlags
  | generalSourceFlags
  | generalConstraintBlock
  | generalLevelIdc
  | subLayerPresentFlags
  | subLayerPadding
  | subLayerProfile
  | subLayerLevelIdc
  | seqParameterSetId
  | chromaFormatIdc
  | separateColourPlaneFlag
  | picWidth
  | picHeight
  | conformanceWindowFlag
  | conformanceWindowOffsets
  | bitDepthLuma
  | bitDepthChroma
  deriving DecidableEq, Repr

/-- One constructor per row of spec/opcode_table.json, in the table's order. -/
inductive Instr where
  -- the host command and the operation it performs (format CTRL)
  | start
  | parsenals
  -- the delimiting mode, a value of register NSW (format NSW)
  | scanSc
  | scanLp1
  | scanLp2
  | scanLp3
  | scanLp4
  | nswReserved5
  | nswReserved6
  | nswReserved7
  -- delimiters (formats SC3, SC4, LP)
  | sc3
  | sc4
  | lp1 (length : BitVec 8)
  | lp2 (length : BitVec 16)
  | lp3 (length : BitVec 24)
  | lp4 (length : BitVec 32)
  -- the classes of a NAL unit header (format NH)
  | nalMalformed (rest : BitVec 15)
  | nalSps (ignored : BitVec 9)
  | nalOther (nalType : BitVec 6) (ignored : BitVec 9)
  | nalShort
  -- emulation prevention (format EPB)
  | epb
  | epbremove
  -- bit-level codes (formats U, UE, SE)
  | u (n : BitVec 6) (v : BitVec 32)
  | ue (c : UeCode)
  | se (c : UeCode)
  -- bit-reader requests (format BR): the operand is the 36-bit field N
  | brInit (n : BitVec 36)
  | readbits (n : BitVec 36)
  | readflag (n : BitVec 36)
  | readue (n : BitVec 36)
  | readse (n : BitVec 36)
  | skipbits (n : BitVec 36)
  | bytealign (n : BitVec 36)
  | brReserved (n : BitVec 36)
  -- internal operations
  | nalunit
  | dispatch
  | endcall
  | parsesps
  -- the SPS syntax elements (format SPS)
  | spsVideoParameterSetId (v : BitVec 4)
  | spsMaxSubLayersMinus1 (v : BitVec 3)
  | spsTemporalIdNestingFlag (v : BitVec 1)
  | spsGeneralProfileSpace (v : BitVec 2)
  | spsGeneralTierFlag (v : BitVec 1)
  | spsGeneralProfileIdc (v : BitVec 5)
  | spsGeneralCompatibilityFlags (v : BitVec 32)
  | spsGeneralSourceFlags (v : BitVec 4)
  | spsGeneralConstraintBlock (v : BitVec 44)
  | spsGeneralLevelIdc (v : BitVec 8)
  | spsSubLayerPresentFlags (p l : BitVec 1)
  | spsSubLayerPadding (v : BitVec 2)
  | spsSubLayerProfile (v : BitVec 88)
  | spsSubLayerLevelIdc (v : BitVec 8)
  | spsSeqParameterSetId (c : UeCode)
  | spsChromaFormatIdc (c : UeCode)
  | spsSeparateColourPlaneFlag (v : BitVec 1)
  | spsPicWidth (c : UeCode)
  | spsPicHeight (c : UeCode)
  | spsConformanceWindowFlag (v : BitVec 1)
  | spsConformanceWindowOffsets (c1 c2 c3 c4 : UeCode)
  | spsBitDepthLuma (c : UeCode)
  | spsBitDepthChroma (c : UeCode)
  deriving DecidableEq, Repr

end Sys2Proof
end

