-- ==== Sys2Proof/WellFormed.lean ====
section
/-! DEFINITION. Which instructions are encodings of the format they belong to. -/

namespace Sys2Proof

/-- A code with 0 to 32 leading zeros and a suffix of exactly that many bits (30_encoding.md R100, R102). -/
def UeCode.wf (c : UeCode) : Bool :=
  decide (c.k.toNat ≤ Config.ueMaxLz) && decide (c.s.toNat < 2 ^ c.k.toNat)

/-- The checks on the operands of an instruction: a `u(n)` field has 1 to 32 bits and holds its value (R104); an
exponential-Golomb code is one of R100 and R102; a header of class `NAL.OTHER` is not of the SPS type (R97). Every other
operand is as wide as its field, so every value of it is an encoding. -/
def Instr.wf (c : Cfg) : Instr → Bool
  | .u n v => decide (1 ≤ n.toNat) && decide (n.toNat ≤ Config.brMaxN) && decide (v.toNat < 2 ^ n.toNat)
  | .ue e => e.wf
  | .se e => e.wf
  | .nalOther t _ => decide (t ≠ c.spsNut)
  | .spsSeqParameterSetId e => e.wf
  | .spsChromaFormatIdc e => e.wf
  | .spsPicWidth e => e.wf
  | .spsPicHeight e => e.wf
  | .spsConformanceWindowOffsets e1 e2 e3 e4 => e1.wf && e2.wf && e3.wf && e4.wf
  | .spsBitDepthLuma e => e.wf
  | .spsBitDepthChroma e => e.wf
  | .start | .parsenals | .scanSc | .scanLp1 | .scanLp2 | .scanLp3 | .scanLp4 => true
  | .nswReserved5 | .nswReserved6 | .nswReserved7 | .sc3 | .sc4 => true
  | .lp1 _ | .lp2 _ | .lp3 _ | .lp4 _ | .nalMalformed _ | .nalSps _ | .nalShort | .epb | .epbremove => true
  | .brInit _ | .readbits _ | .readflag _ | .readue _ | .readse _ | .skipbits _ | .bytealign _ | .brReserved _ => true
  | .nalunit | .dispatch | .endcall | .parsesps => true
  | .spsVideoParameterSetId _ | .spsMaxSubLayersMinus1 _ | .spsTemporalIdNestingFlag _ => true
  | .spsGeneralProfileSpace _ | .spsGeneralTierFlag _ | .spsGeneralProfileIdc _ => true
  | .spsGeneralCompatibilityFlags _ | .spsGeneralSourceFlags _ | .spsGeneralConstraintBlock _ => true
  | .spsGeneralLevelIdc _ | .spsSubLayerPresentFlags _ _ | .spsSubLayerPadding _ | .spsSubLayerProfile _ => true
  | .spsSubLayerLevelIdc _ | .spsSeparateColourPlaneFlag _ | .spsConformanceWindowFlag _ => true

end Sys2Proof
end

