-- ==== Sys2Proof/Decode.lean ====
section
/-! DEFINITION. Decoding and encoding of the stream structures and of the operations (30_encoding.md).  The block never
reads one mixed instruction stream: what it expects next is one FORMAT of R90, so the decoder takes the format and a bit
string in stream order, and answers the instruction with the bits that follow it, or rejects by name. -/

namespace Sys2Proof

/-- The internal operations: rows of the opcode table that have no bits of their own. -/
inductive InnerOp where
  | nalunit
  | dispatch
  | epbremove
  | parsesps
  | endcall
  deriving DecidableEq, Repr

/-- The formats of 30_encoding.md R90, the SPS one split into its elements (R105, R106). -/
inductive Fmt where
  /-- `CTRL`, the bit a host writes (R112). -/
  | ctrl
  /-- The `START` bit as the engine takes it up: `PARSENALS` (R160). -/
  | call
  /-- `NSW`, the 3-bit mode select (R94). -/
  | nsw
  /-- `SC3` or `SC4` (R91, R92). -/
  | sc
  /-- `LP` of `w` bytes (R93). -/
  | lp (w : Nat)
  /-- `NH`, or the class `NAL.SHORT` where there are fewer than 16 bits (R96, R97). -/
  | nh
  /-- `EPB` (R99). -/
  | epb
  /-- `U` of `n` bits (R104). -/
  | u (n : Nat)
  /-- `UE` (R100). -/
  | ue
  /-- `SE` (R103). -/
  | se
  /-- One element of `SPS`. -/
  | sps (e : SpsElem)
  /-- `BR`, a 39-bit request (R111). -/
  | br
  /-- An internal operation. -/
  | op (o : InnerOp)
  deriving DecidableEq, Repr

/-- Why a bit string is no instruction of a format. -/
inductive Reject where
  /-- Fewer bits than the format needs: `missing` more are wanted by the field or the bit that is not there (R108:
  `BitstreamExhausted` in the bit stream). -/
  | exhausted (missing : Nat)
  /-- A 33rd leading zero bit (R102: `MalformedCode`). -/
  | malformedCode
  /-- A write of 0 to `CTRL`, which does nothing (R112). -/
  | ctrlZero
  /-- Neither `00 00 01` nor `00 00 00 01`. -/
  | notStartCode
  /-- Not `00 00 03`. -/
  | notEpb
  /-- A field width no format has: `u(n)` outside 1 to 32 (R104), a length prefix outside 1 to 4 bytes (R93). -/
  | badWidth
  deriving DecidableEq, Repr

/-! ## Bit strings and numbers (20_memory.md R65, 30_encoding.md R115) -/

/-- The number a bit string reads as, first bit most significant. -/
def natOfBits (bs : Bits) : Nat := bs.foldl (fun a b => 2 * a + b.toNat) 0

/-- The `n` low bits of `v`, most significant first. -/
def bitsOfNat : Nat → Nat → Bits
  | 0, _ => []
  | n + 1, v => v.testBit n :: bitsOfNat n v

/-- A bit vector as a bit string. -/
def bitsOfBv {n : Nat} (v : BitVec n) : Bits := bitsOfNat n v.toNat

/-- The bits of a byte string, byte by byte, each most significant bit first. -/
def bitsOfBytes : List Byte → Bits
  | [] => []
  | b :: r => bitsOfBv b ++ bitsOfBytes r

/-! ## Fields -/

/-- Take a field of `n` bits and go on with its value and the bits after it. -/
def withU {α : Type} (n : Nat) (bs : Bits) (k : Nat → Bits → Except Reject α) : Except Reject α :=
  if bs.length < n then .error (.exhausted (n - bs.length)) else k (natOfBits (bs.take n)) (bs.drop n)

/-- The zero run of a `UE` code, one bit at a time (40_bitreader.md R133): whichever is met first of the marker `1`, the
33rd zero, and the end.  `lz` counts the zeros already seen. -/
def ueScan : Nat → Bits → Except Reject (Nat × Bits)
  | _, [] => .error (.exhausted 1)
  | lz, true :: r => .ok (lz, r)
  | lz, false :: r => if lz + 1 > Config.ueMaxLz then .error .malformedCode else ueScan (lz + 1) r

/-- Take one `UE` code (R100, R133) and go on with it and the bits after it. -/
def withUe {α : Type} (bs : Bits) (k : UeCode → Bits → Except Reject α) : Except Reject α :=
  match ueScan 0 bs with
  | .error e => .error e
  | .ok (lz, r) => withU lz r (fun s rest => k { k := BitVec.ofNat 6 lz, s := BitVec.ofNat 32 s } rest)

/-- One `UE` code by itself, and the bits after it. -/
def takeUe (bs : Bits) : Except Reject (UeCode × Bits) := withUe bs fun c r => .ok (c, r)

/-- Accept an instruction. -/
def accept (i : Instr) (rest : Bits) : Except Reject (Instr × Bits) := .ok (i, rest)

/-! ## The decoder -/

/-- `NSW` (R94): the seven values other than the start-code mode's 0. -/
def decodeNsw (v : Nat) : Instr :=
  match v with
  | 0 => .scanSc
  | 1 => .scanLp1
  | 2 => .scanLp2
  | 3 => .scanLp3
  | 4 => .scanLp4
  | 5 => .nswReserved5
  | 6 => .nswReserved6
  | _ => .nswReserved7

/-- `NH` (R96, R97), `h` the 16-bit word: the forbidden bit first, then the type. -/
def decodeNh (c : Cfg) (h : Nat) : Instr :=
  if h / 2 ^ 15 = 1 then .nalMalformed (BitVec.ofNat 15 h)
  else if BitVec.ofNat 6 (h / 2 ^ 9) = c.spsNut then .nalSps (BitVec.ofNat 9 h)
  else .nalOther (BitVec.ofNat 6 (h / 2 ^ 9)) (BitVec.ofNat 9 h)

/-- `BR` (R111), `op` the operation select and `n` the operand. -/
def decodeBr (op : Nat) (n : BitVec 36) : Instr :=
  match op with
  | 0 => .brInit n
  | 1 => .readbits n
  | 2 => .readflag n
  | 3 => .readue n
  | 4 => .readse n
  | 5 => .skipbits n
  | 6 => .bytealign n
  | _ => .brReserved n

/-- `LP` (R93): the length of a `w`-byte field. -/
def decodeLp (w : Nat) (n : Nat) : Except Reject Instr :=
  match w with
  | 1 => .ok (.lp1 (BitVec.ofNat 8 n))
  | 2 => .ok (.lp2 (BitVec.ofNat 16 n))
  | 3 => .ok (.lp3 (BitVec.ofNat 24 n))
  | 4 => .ok (.lp4 (BitVec.ofNat 32 n))
  | _ => .error .badWidth

/-- The internal operations. -/
def decodeOp : InnerOp → Instr
  | .nalunit => .nalunit
  | .dispatch => .dispatch
  | .epbremove => .epbremove
  | .parsesps => .parsesps
  | .endcall => .endcall

/-- The elements of `SPS` (R105, R106). -/
def decodeSps (e : SpsElem) (bs : Bits) : Except Reject (Instr × Bits) :=
  match e with
  | .videoParameterSetId => withU 4 bs fun v r => accept (.spsVideoParameterSetId (BitVec.ofNat 4 v)) r
  | .maxSubLayersMinus1 => withU 3 bs fun v r => accept (.spsMaxSubLayersMinus1 (BitVec.ofNat 3 v)) r
  | .temporalIdNestingFlag => withU 1 bs fun v r => accept (.spsTemporalIdNestingFlag (BitVec.ofNat 1 v)) r
  | .generalProfileSpace => withU 2 bs fun v r => accept (.spsGeneralProfileSpace (BitVec.ofNat 2 v)) r
  | .generalTierFlag => withU 1 bs fun v r => accept (.spsGeneralTierFlag (BitVec.ofNat 1 v)) r
  | .generalProfileIdc => withU 5 bs fun v r => accept (.spsGeneralProfileIdc (BitVec.ofNat 5 v)) r
  | .generalCompatibilityFlags => withU 32 bs fun v r => accept (.spsGeneralCompatibilityFlags (BitVec.ofNat 32 v)) r
  | .generalSourceFlags => withU 4 bs fun v r => accept (.spsGeneralSourceFlags (BitVec.ofNat 4 v)) r
  | .generalConstraintBlock =>
    -- R208: READBITS(32), then READBITS(12), C44 = hi * 2^12 + lo
    withU 32 bs fun hi r => withU 12 r fun lo r' =>
      accept (.spsGeneralConstraintBlock (BitVec.ofNat 44 (hi * 2 ^ 12 + lo))) r'
  | .generalLevelIdc => withU 8 bs fun v r => accept (.spsGeneralLevelIdc (BitVec.ofNat 8 v)) r
  | .subLayerPresentFlags =>
    withU 1 bs fun p r => withU 1 r fun l r' =>
      accept (.spsSubLayerPresentFlags (BitVec.ofNat 1 p) (BitVec.ofNat 1 l)) r'
  | .subLayerPadding => withU 2 bs fun v r => accept (.spsSubLayerPadding (BitVec.ofNat 2 v)) r
  | .subLayerProfile => withU 88 bs fun v r => accept (.spsSubLayerProfile (BitVec.ofNat 88 v)) r
  | .subLayerLevelIdc => withU 8 bs fun v r => accept (.spsSubLayerLevelIdc (BitVec.ofNat 8 v)) r
  | .seqParameterSetId => withUe bs fun c r => accept (.spsSeqParameterSetId c) r
  | .chromaFormatIdc => withUe bs fun c r => accept (.spsChromaFormatIdc c) r
  | .separateColourPlaneFlag => withU 1 bs fun v r => accept (.spsSeparateColourPlaneFlag (BitVec.ofNat 1 v)) r
  | .picWidth => withUe bs fun c r => accept (.spsPicWidth c) r
  | .picHeight => withUe bs fun c r => accept (.spsPicHeight c) r
  | .conformanceWindowFlag => withU 1 bs fun v r => accept (.spsConformanceWindowFlag (BitVec.ofNat 1 v)) r
  | .conformanceWindowOffsets =>
    withUe bs fun c1 r1 => withUe r1 fun c2 r2 => withUe r2 fun c3 r3 => withUe r3 fun c4 r4 =>
      accept (.spsConformanceWindowOffsets c1 c2 c3 c4) r4
  | .bitDepthLuma => withUe bs fun c r => accept (.spsBitDepthLuma c) r
  | .bitDepthChroma => withUe bs fun c r => accept (.spsBitDepthChroma c) r

/-- The decoder: total on every format and bit string. -/
def decode (c : Cfg) (f : Fmt) (bs : Bits) : Except Reject (Instr × Bits) :=
  match f with
  | .ctrl => withU 1 bs fun v r => if v = 1 then accept .start r else .error .ctrlZero
  | .call => withU 1 bs fun v r => if v = 1 then accept .parsenals r else .error .ctrlZero
  | .nsw => withU 3 bs fun v r => accept (decodeNsw v) r
  | .sc =>
    withU 24 bs fun v r =>
      if v = 0x000001 then accept .sc3 r
      else withU 32 bs fun v' r' => if v' = 0x00000001 then accept .sc4 r' else .error .notStartCode
  | .lp w =>
    withU (8 * w) bs fun v r =>
      match decodeLp w v with
      | .ok i => accept i r
      | .error e => .error e
  | .nh => if bs.length < 16 then accept .nalShort [] else withU 16 bs fun h r => accept (decodeNh c h) r
  | .epb => withU 24 bs fun v r => if v = 0x000003 then accept .epb r else .error .notEpb
  | .u n =>
    if n = 0 ∨ n > Config.brMaxN then .error .badWidth
    else withU n bs fun v r => accept (.u (BitVec.ofNat 6 n) (BitVec.ofNat 32 v)) r
  | .ue => withUe bs fun e r => accept (.ue e) r
  | .se => withUe bs fun e r => accept (.se e) r
  | .sps e => decodeSps e bs
  | .br => withU 3 bs fun op r => withU 36 r fun n r' => accept (decodeBr op (BitVec.ofNat 36 n)) r'
  | .op o => accept (decodeOp o) bs

/-! ## The encoder -/

/-- A `UE` code written out (R100). -/
def UeCode.bits (e : UeCode) : Bits := List.replicate e.k.toNat false ++ true :: bitsOfNat e.k.toNat e.s.toNat

/-- The format an instruction is an encoding of. -/
def Instr.fmt : Instr → Fmt
  | .start => .ctrl
  | .parsenals => .call
  | .scanSc | .scanLp1 | .scanLp2 | .scanLp3 | .scanLp4 | .nswReserved5 | .nswReserved6 | .nswReserved7 => .nsw
  | .sc3 | .sc4 => .sc
  | .lp1 _ => .lp 1
  | .lp2 _ => .lp 2
  | .lp3 _ => .lp 3
  | .lp4 _ => .lp 4
  | .nalMalformed _ | .nalSps _ | .nalOther _ _ | .nalShort => .nh
  | .epb => .epb
  | .epbremove => .op .epbremove
  | .u n _ => .u n.toNat
  | .ue _ => .ue
  | .se _ => .se
  | .brInit _ | .readbits _ | .readflag _ | .readue _ | .readse _ | .skipbits _ | .bytealign _ | .brReserved _ => .br
  | .nalunit => .op .nalunit
  | .dispatch => .op .dispatch
  | .endcall => .op .endcall
  | .parsesps => .op .parsesps
  | .spsVideoParameterSetId _ => .sps .videoParameterSetId
  | .spsMaxSubLayersMinus1 _ => .sps .maxSubLayersMinus1
  | .spsTemporalIdNestingFlag _ => .sps .temporalIdNestingFlag
  | .spsGeneralProfileSpace _ => .sps .generalProfileSpace
  | .spsGeneralTierFlag _ => .sps .generalTierFlag
  | .spsGeneralProfileIdc _ => .sps .generalProfileIdc
  | .spsGeneralCompatibilityFlags _ => .sps .generalCompatibilityFlags
  | .spsGeneralSourceFlags _ => .sps .generalSourceFlags
  | .spsGeneralConstraintBlock _ => .sps .generalConstraintBlock
  | .spsGeneralLevelIdc _ => .sps .generalLevelIdc
  | .spsSubLayerPresentFlags _ _ => .sps .subLayerPresentFlags
  | .spsSubLayerPadding _ => .sps .subLayerPadding
  | .spsSubLayerProfile _ => .sps .subLayerProfile
  | .spsSubLayerLevelIdc _ => .sps .subLayerLevelIdc
  | .spsSeqParameterSetId _ => .sps .seqParameterSetId
  | .spsChromaFormatIdc _ => .sps .chromaFormatIdc
  | .spsSeparateColourPlaneFlag _ => .sps .separateColourPlaneFlag
  | .spsPicWidth _ => .sps .picWidth
  | .spsPicHeight _ => .sps .picHeight
  | .spsConformanceWindowFlag _ => .sps .conformanceWindowFlag
  | .spsConformanceWindowOffsets _ _ _ _ => .sps .conformanceWindowOffsets
  | .spsBitDepthLuma _ => .sps .bitDepthLuma
  | .spsBitDepthChroma _ => .sps .bitDepthChroma

/-- A bit-reader request word (R111): `OP ++ N`. -/
def encodeBr (op : Nat) (n : BitVec 36) : Bits := bitsOfNat 3 op ++ bitsOfBv n

/-- The bits of an instruction, in its format `i.fmt`, written from the tables of 30_encoding.md. -/
def encode (c : Cfg) : Instr → Bits
  | .start => [true]
  | .parsenals => [true]
  | .scanSc => bitsOfNat 3 0
  | .scanLp1 => bitsOfNat 3 1
  | .scanLp2 => bitsOfNat 3 2
  | .scanLp3 => bitsOfNat 3 3
  | .scanLp4 => bitsOfNat 3 4
  | .nswReserved5 => bitsOfNat 3 5
  | .nswReserved6 => bitsOfNat 3 6
  | .nswReserved7 => bitsOfNat 3 7
  | .sc3 => bitsOfBytes [0x00, 0x00, 0x01]
  | .sc4 => bitsOfBytes [0x00, 0x00, 0x00, 0x01]
  | .lp1 n => bitsOfBv n
  | .lp2 n => bitsOfBv n
  | .lp3 n => bitsOfBv n
  | .lp4 n => bitsOfBv n
  | .nalMalformed r => true :: bitsOfBv r
  | .nalSps g => false :: (bitsOfBv c.spsNut ++ bitsOfBv g)
  | .nalOther t g => false :: (bitsOfBv t ++ bitsOfBv g)
  | .nalShort => []
  | .epb => bitsOfBytes [0x00, 0x00, 0x03]
  | .epbremove => []
  | .u n v => bitsOfNat n.toNat v.toNat
  | .ue e => e.bits
  | .se e => e.bits
  | .brInit n => encodeBr 0 n
  | .readbits n => encodeBr 1 n
  | .readflag n => encodeBr 2 n
  | .readue n => encodeBr 3 n
  | .readse n => encodeBr 4 n
  | .skipbits n => encodeBr 5 n
  | .bytealign n => encodeBr 6 n
  | .brReserved n => encodeBr 7 n
  | .nalunit => []
  | .dispatch => []
  | .endcall => []
  | .parsesps => []
  | .spsVideoParameterSetId v => bitsOfBv v
  | .spsMaxSubLayersMinus1 v => bitsOfBv v
  | .spsTemporalIdNestingFlag v => bitsOfBv v
  | .spsGeneralProfileSpace v => bitsOfBv v
  | .spsGeneralTierFlag v => bitsOfBv v
  | .spsGeneralProfileIdc v => bitsOfBv v
  | .spsGeneralCompatibilityFlags v => bitsOfBv v
  | .spsGeneralSourceFlags v => bitsOfBv v
  | .spsGeneralConstraintBlock v => bitsOfBv v
  | .spsGeneralLevelIdc v => bitsOfBv v
  | .spsSubLayerPresentFlags p l => bitsOfBv p ++ bitsOfBv l
  | .spsSubLayerPadding v => bitsOfBv v
  | .spsSubLayerProfile v => bitsOfBv v
  | .spsSubLayerLevelIdc v => bitsOfBv v
  | .spsSeqParameterSetId e => e.bits
  | .spsChromaFormatIdc e => e.bits
  | .spsSeparateColourPlaneFlag v => bitsOfBv v
  | .spsPicWidth e => e.bits
  | .spsPicHeight e => e.bits
  | .spsConformanceWindowFlag v => bitsOfBv v
  | .spsConformanceWindowOffsets e1 e2 e3 e4 => e1.bits ++ (e2.bits ++ (e3.bits ++ e4.bits))
  | .spsBitDepthLuma e => e.bits
  | .spsBitDepthChroma e => e.bits

/-! ## The host's question about a word of the opcode table -/

/-- The format whose word of `nbits` bits (whole bytes) has the value `w`.  The table's words of different formats overlap,
and only the block's position tells them apart; this fixed order among the formats is the model's (log entry 6): a fixed
pattern of a format before a free field, and for one byte the host command before the mode select before `LP`. -/
def tableFmt (nbits w : Nat) : Option (Fmt × Nat) :=
  match nbits with
  | 0 => some (.nh, 0)
  | 8 => if w = 1 then some (.ctrl, 1) else if w < 8 then some (.nsw, 3) else some (.lp 1, 8)
  | 16 => some (.nh, 16)
  | 24 => if w = 0x000001 then some (.sc, 24) else if w = 0x000003 then some (.epb, 24) else some (.lp 3, 24)
  | 32 => if w = 0x00000001 then some (.sc, 32) else some (.lp 4, 32)
  | 40 => some (.br, 39)
  | 48 => some (.sps .generalConstraintBlock, 44)
  | 88 => some (.sps .subLayerProfile, 88)
  | _ => none

/-- The instruction the decoder reads from a table word: the word's bits, most significant first, given to the decoder in
the word's format.  The table numbers a whole row as one word, its first byte most significant ("first byte is bits
23:16"), and a word whose value needs more bits than the format has is no instruction. -/
def decodeTableWord (nbits w : Nat) : Option Instr :=
  match tableFmt nbits w with
  | none => none
  | some (f, n) =>
    if w < 2 ^ n then
      match decode Cfg.nalp f (bitsOfNat n w) with
      | .ok (i, []) => some i
      | _ => none
    else none

end Sys2Proof
end

