-- ==== Sys2Proof/Machine/State.lean ====
section
/-! DEFINITION. The state of one NALP instance (10_state.md R20 to R35), as plain data, and its value after reset.
Beside the registers and memories of the spec it holds what a step needs and the spec's prose only implies: where in the
pseudocode the engine stands, the loop counters of that pseudocode, the reader's bound view, the parameters, and the host's
accesses still to come (log entries 1 to 5).  Beside the NALP instance it holds one bit reader used on its own (log
entry 12). -/

namespace Sys2Proof.Machine

open Sys2Proof

/-- A memory: bytes by address, addresses strictly rising.  A byte never written is not listed and has no value
(10_state.md R35); log entry 8. -/
abbrev Memory := List Host.Cell

/-- The five error kinds (60_exceptions.md R240). -/
inductive Err where
  | bitstreamExhausted
  | malformedCode
  | truncatedNal
  | malformedNal
  | fieldOutOfRange
  deriving DecidableEq, Repr

/-- The bound view `V` of the bit reader inside NALP: a reference, base and byte length, to bytes of `SCR`, the only memory a
view is bound in there (10_state.md R27). -/
structure View where
  base : BitVec 32
  len  : BitVec 32
  deriving DecidableEq, Repr

/-- A bit reader used on its own, outside NALP (10_state.md R27: "reusable across independent buffers"; 60_exceptions.md
R248): its bound view `V` is a byte string of its user's, and it has a cursor of its own.  It reaches no register and no
memory of the NALP instance (20_memory.md R61, 60_exceptions.md R255; log entry 12). -/
structure Reader where
  /-- `V`. -/
  view : List Byte
  /-- `POS`. -/
  pos  : BitVec 36
  deriving DecidableEq, Repr

/-- The reply of a bit-reader request (30_encoding.md R111): `(ok, value)` or `(error kind)`. -/
inductive BrReply where
  /-- No request has been answered since reset. -/
  | nothing
  /-- `ok`, for the operations without a reply value. -/
  | done
  /-- `(ok, value)`: 33 bits hold every reply (40_bitreader.md R134, R135). -/
  | value (v : BitVec 33)
  /-- `(error kind)`. -/
  | error (e : Err)
  deriving DecidableEq, Repr

/-- A code the bit reader can be asked for by its textual name `u(n)`, `ue(v)`, `se(v)` (30_encoding.md R114). -/
inductive CodeFmt where
  | u (n : BitVec 6)
  | ue
  | se
  deriving DecidableEq, Repr

/-- What the host can do to the block (00_scope.md R16, R18; 60_exceptions.md R255), and what the user of a bit reader on its
own can do to that reader. -/
inductive HostAct where
  /-- Write the host-visible register of that number (10_state.md R21). -/
  | write (reg : Nat) (v : BitVec 32)
  /-- Read the host-visible register of that number (R21). -/
  | read (reg : Nat)
  /-- Write one byte of `BUF` (20_memory.md R60). -/
  | writeBuf (off : BitVec 32) (b : Byte)
  /-- Assert the reset input (70_reset_and_hazards.md R270, R271). -/
  | reset
  /-- Present the bytes the next `BR.INIT` binds (30_encoding.md R111: "bound separately"). -/
  | bindView (v : List Byte)
  /-- Issue a 39-bit bit-reader request (R111). -/
  | request (w : BitVec 39)
  /-- Issue a request by the name of a code (R114). -/
  | code (f : CodeFmt)
  /-- Leave this step to the engine. -/
  | pass
  deriving DecidableEq, Repr

/-- Where in the pseudocode the engine stands: what it does in its next step. -/
inductive Phase where
  /-- No call in progress (60_exceptions.md R259: idle when `BUSY = 0`). -/
  | idle
  /-- About to perform `PARSENALS` (41_nal_scanner.md R160). -/
  | parsenals
  /-- At the head of the scan loop of the mode in `NSW` (R162, R164). -/
  | scan
  /-- At a length field at `OFF` (R162). -/
  | lpField
  /-- In start-code mode, at the start code that ends the NAL unit which begins at `OFF` (R164). -/
  | delim
  /-- About to perform `NALUNIT` (R166). -/
  | nalunit
  /-- At the header of the current NAL unit (R166). -/
  | header
  /-- About to perform `DISPATCH` (R167). -/
  | dispatch
  /-- In the loop of `EPBREMOVE` (42_epb_removal.md R190). -/
  | epb
  /-- About to perform `PARSESPS` (43_sps_decoder.md R200). -/
  | parsesps
  /-- At an element of the SPS. -/
  | sps (e : SpsElem)
  /-- About to perform `ENDCALL` (41_nal_scanner.md R168). -/
  | endcall
  deriving DecidableEq, Repr

/-- What stops the machine.  The spec has no fault (60_exceptions.md R260); these four are the stops it asks a model to
have, so that a slip in a bound or a byte nobody wrote shows.  All are safe: the hardware would go on. -/
inductive Fault where
  /-- Raised by a read of `BUF[i]` with `i >= LEN` (20_memory.md R62).  Safe. -/
  | bufOutOfRange (i : Nat)
  /-- Raised by a read of a byte of `BUF` that nothing has written since reset (10_state.md R35).  Safe. -/
  | bufUnwritten (i : Nat)
  /-- Raised by a read of `SCR[i]` with `i >= SCR_LEN` (20_memory.md R62).  Safe. -/
  | scrOutOfRange (i : Nat)
  /-- Raised by a read of a byte of `SCR` that nothing has written since reset (10_state.md R35).  Safe. -/
  | scrUnwritten (i : Nat)
  deriving DecidableEq, Repr

/-- What the spec gives no meaning (60_exceptions.md R260: refusals).  All are safe: the model takes no step. -/
inductive Refusal where
  /-- An instruction of the opcode table without a meaning in this model; raised by `exec` only.  Safe. -/
  | notModelled (mnemonic : String)
  /-- Raised by `START` and `PARSENALS` with `NSW` in 5 to 7, and by `NSW.RESERVED` (41_nal_scanner.md R161).  Safe. -/
  | reservedNsw
  /-- Raised by a `START` before `LEN` and `NSW` were ever written (60_exceptions.md R260).  Safe. -/
  | startBeforeSetup
  /-- Raised by `BR.RESERVED`, `OP = 7` (30_encoding.md R111).  Safe. -/
  | reservedOp
  /-- Raised by `READBITS` with `n = 0` or `n > 32` (40_bitreader.md R131).  Safe. -/
  | readBitsRange
  /-- Raised by a host write to `LEN`, `NSW` or `BUF` while `BUSY = 1` (70_reset_and_hazards.md R280).  Safe. -/
  | hostWriteWhileBusy
  /-- Raised by a host read of any register but `STATUS` while `BUSY = 1` (R282).  Safe. -/
  | hostReadWhileBusy
  /-- Raised by a host read of a result data register while `VALID = 0` (60_exceptions.md R260).  Safe. -/
  | hostReadInvalid
  /-- Raised by a host access to a register number R21 does not have.  Safe. -/
  | noSuchRegister
  /-- Raised by a view of more than `2^32 - 1` bytes, which `BR.INIT` does not have (40_bitreader.md R130).  Safe. -/
  | viewTooLong
  /-- Raised by a step whose bits are no instruction of the format the engine is at; no run meets it.  Safe. -/
  | undecodable (r : Reject)
  deriving DecidableEq, Repr

/-- The state of one NALP instance. -/
structure State where
  -- host-visible registers, in the order of their numbers (10_state.md R21); CTRL (0) stores nothing and reads as 0
  status       : BitVec 13
  len          : BitVec 32
  nsw          : BitVec 3
  valid        : Bool
  profile      : BitVec 5
  rextProfile  : BitVec 8
  level        : BitVec 8
  chromaFormat : BitVec 2
  bitDepth     : BitVec 5
  nalCount     : BitVec 32
  spsSeen      : BitVec 32
  spsOk        : BitVec 32
  lastErr      : BitVec 3
  errOff       : BitVec 32
  -- working registers (10_state.md R23); PP[i] and LP[i] are bit i of pp and lp
  off          : BitVec 33
  nalOff       : BitVec 32
  nalLen       : BitVec 32
  nalType      : BitVec 6
  scrLen       : BitVec 32
  pos          : BitVec 36
  total        : BitVec 36
  nSub         : BitVec 3
  pp           : BitVec 7
  lp           : BitVec 7
  c44          : BitVec 44
  tProfile     : BitVec 5
  tRext        : BitVec 8
  tLevel       : BitVec 8
  tChroma      : BitVec 2
  tDepth       : BitVec 5
  -- memories (20_memory.md R60, R61) and the view bound inside NALP (10_state.md R27)
  buf          : Memory
  scr          : Memory
  view         : View
  -- the bit reader used on its own, and its request port (30_encoding.md R111): the bytes presented to BR.INIT, and the
  -- last reply
  reader       : Reader
  viewArg      : List Byte
  reply        : BrReply
  -- the model's own: the engine's place in the pseudocode, the locals i and k of R190, the local i of R211 to R213
  phase        : Phase
  epbI         : BitVec 32
  epbK         : BitVec 32
  subI         : BitVec 4
  -- the model's own: the parameters of R8; whether LEN and NSW were ever written (R260, R273); the host's accesses to
  -- come, the value its last read returned, and the counter of free values
  cfg          : Cfg
  lenWritten   : Bool
  nswWritten   : Bool
  host         : List HostAct
  hostData     : BitVec 32
  free         : Nat
  deriving DecidableEq, Repr

/-- The view with no bytes. -/
def View.empty : View := { base := 0, len := 0 }

/-- The state after reset (10_state.md R35, 70_reset_and_hazards.md R270): `STATUS`, `VALID`, the three counters,
`LAST_ERR` and `ERR_OFF` are 0 and the engine is idle; every register R35 leaves unspecified is 0 (DESIGN CHOICE, log
entry 7); no byte of `BUF` or `SCR` has been written. -/
def State.reset : State where
  status := 0
  len := 0
  nsw := 0
  valid := false
  profile := 0
  rextProfile := 0
  level := 0
  chromaFormat := 0
  bitDepth := 0
  nalCount := 0
  spsSeen := 0
  spsOk := 0
  lastErr := 0
  errOff := 0
  off := 0
  nalOff := 0
  nalLen := 0
  nalType := 0
  scrLen := 0
  pos := 0
  total := 0
  nSub := 0
  pp := 0
  lp := 0
  c44 := 0
  tProfile := 0
  tRext := 0
  tLevel := 0
  tChroma := 0
  tDepth := 0
  buf := []
  scr := []
  view := View.empty
  reader := { view := [], pos := 0 }
  viewArg := []
  reply := .nothing
  phase := .idle
  epbI := 0
  epbK := 0
  subI := 0
  cfg := Cfg.nalp
  lenWritten := false
  nswWritten := false
  host := []
  hostData := 0
  free := 0

/-- What a step answers. -/
abbrev Out := Host.Outcome State Fault Refusal

end Sys2Proof.Machine
end

