-- ==== Sys2Proof/Machine/Flags.lean ====
section
/-! DEFINITION. The fields of `STATUS` and the codes of the error kinds (10_state.md R22, 60_exceptions.md R240).  NALP has
no arithmetic condition codes (10_state.md R32). -/

namespace Sys2Proof.Machine

open Sys2Proof

/-- The positions of the fields of `STATUS` (R22). -/
def Status.busyBit : Nat := 0
def Status.doneBit : Nat := 1
def Status.okBit : Nat := 2

/-- The sticky bit of an error kind (R22, R240). -/
def Err.bit : Err → Nat
  | .bitstreamExhausted => 8
  | .malformedCode => 9
  | .truncatedNal => 10
  | .malformedNal => 11
  | .fieldOutOfRange => 12

/-- The code of an error kind, as written to `LAST_ERR` (R240). -/
def Err.code : Err → BitVec 3
  | .bitstreamExhausted => 1
  | .malformedCode => 2
  | .truncatedNal => 3
  | .malformedNal => 4
  | .fieldOutOfRange => 5

/-- `STATUS` with bit `i` set to `b`, every other bit kept. -/
def Status.put (w : BitVec 13) (i : Nat) (b : Bool) : BitVec 13 :=
  if b then w ||| (1#13 <<< i) else w &&& ~~~(1#13 <<< i)

/-- `STATUS.BUSY`. -/
def State.busy (s : State) : Bool := s.status.getLsbD Status.busyBit

/-- `STATUS.DONE`. -/
def State.done (s : State) : Bool := s.status.getLsbD Status.doneBit

/-- `STATUS.OK`. -/
def State.ok (s : State) : Bool := s.status.getLsbD Status.okBit

/-- The sticky bit of an error kind. -/
def State.sticky (s : State) (e : Err) : Bool := s.status.getLsbD e.bit

/-- `STATUS` as a `START` leaves it: `BUSY` set; `DONE`, `OK` and the five sticky bits cleared (R160). -/
def Status.started (w : BitVec 13) : BitVec 13 :=
  let w := Status.put (Status.put (Status.put w Status.busyBit true) Status.doneBit false) Status.okBit false
  let w := Status.put (Status.put w Err.bitstreamExhausted.bit false) Err.malformedCode.bit false
  Status.put (Status.put (Status.put w Err.truncatedNal.bit false) Err.malformedNal.bit false) Err.fieldOutOfRange.bit false

/-- `STATUS` as `ENDCALL` leaves it: `OK` says whether an SPS decoded; `BUSY` cleared, `DONE` set (R168). -/
def Status.ended (w : BitVec 13) (ok : Bool) : BitVec 13 :=
  Status.put (Status.put (Status.put w Status.okBit ok) Status.busyBit false) Status.doneBit true

end Sys2Proof.Machine
end

