-- ==== Sys2Proof/Machine/Ops.lean ====
section
/-! DEFINITION. The shared operations over memory and registers, and the error mechanism: recording an error, aborting an
SPS decode with it, and going back to the scanner (60_exceptions.md R247 to R251). -/

namespace Sys2Proof.Machine

open Sys2Proof

/-! ## Memory (20_memory.md) -/

/-- The byte at an address, if it was ever written. -/
def Memory.read? : Memory → Nat → Option Byte
  | [], _ => none
  | (x, y) :: r, a => if x = a then some y else Memory.read? r a

/-- Write one byte, keeping the addresses strictly rising. -/
def Memory.write : Memory → Nat → Byte → Memory
  | [], a, b => [(a, b)]
  | (x, y) :: r, a, b =>
    if a < x then (a, b) :: (x, y) :: r
    else if a = x then (a, b) :: r
    else (x, y) :: Memory.write r a b

/-- The canonical form: addresses strictly rising.  An unlisted address has no value, so no entry can equal it. -/
def Memory.wf : Memory → Bool
  | [] => true
  | [_] => true
  | (a, _) :: (b, y) :: r => decide (a < b) && Memory.wf ((b, y) :: r)

/-- `BUF[i]`, defined for `i < LEN` only (00_scope.md R12, 20_memory.md R62). -/
def State.bufRead (s : State) (i : Nat) : Except Fault Byte :=
  if i < s.len.toNat then
    match s.buf.read? i with
    | some b => .ok b
    | none => .error (.bufUnwritten i)
  else .error (.bufOutOfRange i)

/-- `SCR[i]`, defined for `i < SCR_LEN` only (R61, R62). -/
def State.scrRead (s : State) (i : Nat) : Except Fault Byte :=
  if i < s.scrLen.toNat then
    match s.scr.read? i with
    | some b => .ok b
    | none => .error (.scrUnwritten i)
  else .error (.scrOutOfRange i)

/-- `SCR[i] <- b` (R61). -/
def State.scrWrite (s : State) (i : Nat) (b : Byte) : State := { s with scr := s.scr.write i b }

/-- The `n` bytes `BUF[o] .. BUF[o + n - 1]`, lowest offset first (00_scope.md R12, `MemRead`). -/
def State.bufBytes (s : State) : Nat → Nat → Except Fault (List Byte)
  | 0, _ => .ok []
  | n + 1, o =>
    match s.bufRead o with
    | .error f => .error f
    | .ok b =>
      match s.bufBytes n (o + 1) with
      | .error f => .error f
      | .ok bs => .ok (b :: bs)

/-- Go on with the value of a read, or stop with its fault. -/
def ofRead {α : Type} (r : Except Fault α) (k : α → Out) : Out :=
  match r with
  | .ok a => k a
  | .error f => .fault f

/-! ## The engine's place -/

/-- Go to a place in the pseudocode. -/
def State.goto (s : State) (p : Phase) : State := { s with phase := p }

/-! ## Errors -/

/-- `record(E, off)` (60_exceptions.md R247): the sticky bit, `LAST_ERR`, `ERR_OFF`, and nothing else. -/
def State.record (s : State) (e : Err) (off : BitVec 32) : State :=
  { s with status := Status.put s.status e.bit true, lastErr := e.code, errOff := off }

/-- The return from `NALUNIT` to the scan loop: in length-prefixed mode `OFF <- OFF + w + n` with `n = NAL_LEN`
(41_nal_scanner.md R162); in start-code mode `OFF` stays at the NAL unit until the loop finds the next start code
(R164). -/
def State.nalReturn (s : State) : State :=
  if s.nsw = 0 then s.goto .scan
  else { s with off := BitVec.ofNat 33 (s.off.toNat + s.nsw.toNat + s.nalLen.toNat), phase := .scan }

/-- An error raised inside `PARSESPS`, as `DISPATCH` catches it (41_nal_scanner.md R167, 43_sps_decoder.md R230,
60_exceptions.md R248): it is recorded with `NAL_OFF`, `VALID` is left as it is (0), and the scan goes on. -/
def State.raiseSps (s : State) (e : Err) : State := (s.record e s.nalOff).nalReturn

/-- The end of a scan with an error of the scanner itself: recorded, then `ENDCALL` (R162, R248). -/
def State.raiseScan (s : State) (e : Err) (off : BitVec 32) : State := (s.record e off).goto .endcall

/-! ## The call -/

/-- The assignments of `PARSENALS` before the scan (41_nal_scanner.md R160). -/
def State.beginCall (s : State) : State :=
  { s with
    status := Status.started s.status
    lastErr := 0
    errOff := 0
    nalCount := 0
    spsSeen := 0
    spsOk := 0
    valid := false
    off := 0 }

/-! ## The bit cursor -/

/-- Bits left before the end of the view: `TOTAL - POS` (20_memory.md R73). -/
def State.remain (s : State) : Nat := s.total.toNat - s.pos.toNat

/-- Advance the cursor by `n` bits. -/
def State.advance (s : State) (n : Nat) : State := { s with pos := BitVec.ofNat 36 (s.pos.toNat + n) }

/-- `BR.INIT` inside NALP (40_bitreader.md R130): bind a view of `SCR` and rewind. -/
def State.bind (s : State) (v : View) : State :=
  { s with view := v, total := BitVec.ofNat 36 (8 * v.len.toNat), pos := 0 }

/-- Write one of the seven flags `PP[i]` or `LP[i]` (43_sps_decoder.md R211). -/
def putFlag (f : BitVec 7) (i : Nat) (b : BitVec 1) : BitVec 7 :=
  if b = 1 then f ||| (1#7 <<< i) else f &&& ~~~(1#7 <<< i)

/-! ## The bit reader used on its own -/

/-- `TOTAL`, always 8 times the byte length of the view (10_state.md R26). -/
def Reader.total (r : Reader) : BitVec 36 := BitVec.ofNat 36 (8 * r.view.length)

/-- `TOTAL - POS`. -/
def Reader.remain (r : Reader) : Nat := r.total.toNat - r.pos.toNat

/-- The bits from `POS` to `TOTAL`, in stream order (20_memory.md R65). -/
def Reader.bits (r : Reader) : Bits := ((bitsOfBytes r.view).drop r.pos.toNat).take r.remain

/-- Advance its cursor by `n` bits. -/
def State.advanceReader (s : State) (n : Nat) : State :=
  { s with reader := { s.reader with pos := BitVec.ofNat 36 (s.reader.pos.toNat + n) } }

/-- Answer a bit-reader request. -/
def State.answer (s : State) (r : BrReply) : State := { s with reply := r }

/-! ## The result record -/

/-- The commit (43_sps_decoder.md R231): one atomic write of the five data registers and `VALID`. -/
def State.commit (s : State) : State :=
  { s with
    profile := s.tProfile
    rextProfile := s.tRext
    level := s.tLevel
    chromaFormat := s.tChroma
    bitDepth := s.tDepth
    valid := true }

end Sys2Proof.Machine
end

