-- ==== Sys2Proof/Machine/Operands.lean ====
section
/-! DEFINITION. How operands are formed: bits of the bound view, exponential-Golomb values, the search for a start code,
and the place of the next sub-layer element (20_memory.md, 30_encoding.md R100 to R115, 41_nal_scanner.md R165). -/

namespace Sys2Proof.Machine

open Sys2Proof

/-! ## Exponential-Golomb codes -/

/-- The length of a code in bits: `2k + 1` (30_encoding.md R100). -/
def ueLength (c : UeCode) : Nat := 2 * c.k.toNat + 1

/-- The value of a code: `2^k - 1 + suffix`, exact (R100, 40_bitreader.md R134). -/
def ueValue (c : UeCode) : Nat := 2 ^ c.k.toNat - 1 + c.s.toNat

/-- The signed value of a `UE` value `k`: `(-1)^(k+1) * ceil(k/2)` (R103, 40_bitreader.md R135). -/
def seValue (k : Nat) : Int := if k % 2 = 1 then ((k + 1) / 2 : Nat) else -((k / 2 : Nat) : Int)

/-! ## The view bound inside NALP -/

/-- `V[i]`, byte `i` of the bound view (10_state.md R27). -/
def State.viewByte (s : State) (i : Nat) : Except Fault Byte := s.scrRead (s.view.base.toNat + i)

/-- `bit(p) = V[p div 8][7 - (p mod 8)]` (20_memory.md R65). -/
def State.viewBit (s : State) (p : Nat) : Except Fault Bool :=
  match s.viewByte (p / 8) with
  | .error f => .error f
  | .ok b => .ok (b.getLsbD (7 - p % 8))

/-- At most `n` bits from position `p` on, and the fault of the first bit that cannot be read, if one stops it. -/
def State.viewBits (s : State) : Nat → Nat → Bits × Option Fault
  | 0, _ => ([], none)
  | n + 1, p =>
    match s.viewBit p with
    | .error f => ([], some f)
    | .ok b => (b :: (s.viewBits n (p + 1)).1, (s.viewBits n (p + 1)).2)

/-- The bits the reader may look at for an operation that examines at most `n`: those from `POS` on, `TOTAL` never
passed (20_memory.md R62, R73). -/
def State.window (s : State) (n : Nat) : Bits × Option Fault := s.viewBits (min n s.remain) s.pos.toNat

/-- The most bits an element can have (40_bitreader.md R140 (f): 65 for one `ue(v)`). -/
def maxBits : SpsElem → Nat
  | .videoParameterSetId => 4
  | .maxSubLayersMinus1 => 3
  | .temporalIdNestingFlag => 1
  | .generalProfileSpace => 2
  | .generalTierFlag => 1
  | .generalProfileIdc => 5
  | .generalCompatibilityFlags => 32
  | .generalSourceFlags => 4
  | .generalConstraintBlock => 44
  | .generalLevelIdc => 8
  | .subLayerPresentFlags => 2
  | .subLayerPadding => 2
  | .subLayerProfile => 88
  | .subLayerLevelIdc => 8
  | .seqParameterSetId => 65
  | .chromaFormatIdc => 65
  | .separateColourPlaneFlag => 1
  | .picWidth => 65
  | .picHeight => 65
  | .conformanceWindowFlag => 1
  | .conformanceWindowOffsets => 260
  | .bitDepthLuma => 65
  | .bitDepthChroma => 65

/-- The outcome of looking for an SPS element at the cursor. -/
inductive CodeAt where
  /-- An instruction of the element stands there. -/
  | found (i : Instr)
  /-- An error kind of the bit reader. -/
  | raises (e : Err)
  /-- A byte of the view cannot be read. -/
  | faults (f : Fault)
  /-- No instruction of the format, for a reason that is no error of the bit reader. -/
  | rejected (r : Reject)
  deriving DecidableEq, Repr

/-- The bits the reader may look at for an element. -/
def State.elementBits (s : State) (e : SpsElem) : Bits := (s.window (maxBits e)).1

/-- The SPS element at the cursor.  A request tests its room before it reads (40_bitreader.md R131, R133): where the decoder
wants more bits than are left before `TOTAL`, that is `BitstreamExhausted`, whatever a byte further on holds; where there is
room for them, a byte without a value stops it. -/
def State.codeAt (s : State) (e : SpsElem) : CodeAt :=
  match decode s.cfg (.sps e) (s.elementBits e) with
  | .ok (i, _) => .found i
  | .error .malformedCode => .raises .malformedCode
  | .error (.exhausted missing) =>
    match (s.window (maxBits e)).2 with
    | some g =>
      if s.remain < (s.elementBits e).length + missing then .raises .bitstreamExhausted else .faults g
    | none => .raises .bitstreamExhausted
  | .error r => .rejected r

/-- How many bits the complete codes at the head of `bs` take, of at most `n` codes. -/
def completeCodes : Nat → Bits → Nat
  | 0, _ => 0
  | n + 1, bs =>
    match takeUe bs with
    | .ok (c, r) => ueLength c + completeCodes n r
    | .error _ => 0

/-- Where an element whose bits are `bs` cannot be completed: the state after those of its requests that succeeded, which
have had their full effect (60_exceptions.md R249).  Three elements take more than one request: `READBITS 32` and `READBITS 12`
(43_sps_decoder.md R208), two flags (R211), four codes (R226). -/
def State.passed (s : State) (e : SpsElem) (bs : Bits) : State :=
  match e with
  | .generalConstraintBlock => if bs.length < 32 then s else s.advance 32
  | .subLayerPresentFlags =>
    match bs with
    | [] => s
    | p :: _ => { s.advance 1 with pp := putFlag s.pp s.subI.toNat (BitVec.ofBool p) }
  | .conformanceWindowOffsets => s.advance (completeCodes 3 bs)
  | _ => s

/-! ## The start-code search -/

/-- Whether `00 00 01` stands at offset `j`, with `j + 2 < LEN`; the bytes are read in order and no more of them than
needed. -/
def State.startCodeAt (s : State) (j : Nat) : Except Fault Bool :=
  match s.bufRead j with
  | .error f => .error f
  | .ok b0 =>
    if b0 ≠ 0 then .ok false else
    match s.bufRead (j + 1) with
    | .error f => .error f
    | .ok b1 =>
      if b1 ≠ 0 then .ok false else
      match s.bufRead (j + 2) with
      | .error f => .error f
      | .ok b2 => .ok (decide (b2 = 1))

/-- `find_sc` from `j` on, looking at no more than `fuel` offsets. -/
def State.findScFrom (s : State) : Nat → Nat → Except Fault (Option Nat)
  | 0, _ => .ok none
  | fuel + 1, j =>
    if j + 2 < s.len.toNat then
      match s.startCodeAt j with
      | .error f => .error f
      | .ok true => .ok (some j)
      | .ok false => s.findScFrom fuel (j + 1)
    else .ok none

/-- `find_sc(from)` (41_nal_scanner.md R165): the least `j >= from` with `j + 2 < LEN` and `00 00 01` at `j`. -/
def State.findSc (s : State) (from_ : Nat) : Except Fault (Option Nat) := s.findScFrom s.len.toNat from_

/-! ## EPBREMOVE's operands -/

/-- `p = NAL_OFF + 2`, the offset of the payload (42_epb_removal.md R190). -/
def State.payloadOff (s : State) : Nat := s.nalOff.toNat + 2

/-- `m = NAL_LEN - 2`, the length of the payload (R190). -/
def State.payloadLen (s : State) : Nat := s.nalLen.toNat - 2

/-! ## The sub-layer loop (43_sps_decoder.md R213) -/

/-- The first sub-layer from `i` on, below `N_SUB`, that has a profile or a level: its index and element. -/
def State.subLayerFrom (s : State) : Nat → Nat → Option (Nat × SpsElem)
  | 0, _ => none
  | fuel + 1, i =>
    if i < s.nSub.toNat then
      if s.pp.getLsbD i then some (i, .subLayerProfile)
      else if s.lp.getLsbD i then some (i, .subLayerLevelIdc)
      else s.subLayerFrom fuel (i + 1)
    else none

/-- Go to the data of the first sub-layer from `i` on that has any, or past `profile_tier_level` when none has. -/
def State.gotoSubLayer (s : State) (i : Nat) : State :=
  match s.subLayerFrom 8 i with
  | some (j, e) => { s with subI := BitVec.ofNat 4 j, phase := .sps e }
  | none => s.goto (.sps .seqParameterSetId)

end Sys2Proof.Machine
end

