-- ==== Sys2Proof/Machine/BitReader.lean ====
section
/-! DEFINITION. The bit reader's requests (40_bitreader.md R130 to R142; 30_encoding.md R111) and the codes they read
(R100, R103, R104), by a reader used on its own (log entry 12); inside NALP the SPS elements issue them.  A request that fails
answers its error kind and leaves the cursor as it was (R138). -/

namespace Sys2Proof.Machine

open Sys2Proof

/-- Consume `n` bits and answer: `BitstreamExhausted` when `TOTAL - POS < n` (R131, R136). -/
def answerBits (n : Nat) (r : BrReply) (s : State) : Out :=
  if s.reader.remain < n then .next (s.answer (.error .bitstreamExhausted)) else .next ((s.advanceReader n).answer r)

/-- A fixed-width read of `n` bits, first bit most significant (R131). -/
def readFixed (n : Nat) (s : State) : Out :=
  answerBits n (.value (BitVec.ofNat 33 (natOfBits (s.reader.bits.take n)))) s

/-- The error kind of a code that cannot be read (R133). -/
def readerError : Reject → Err
  | .malformedCode => .malformedCode
  | _ => .bitstreamExhausted

/-- Read a `UE` code at the cursor and answer with `v` of it (R133): its errors are examined bit by bit, as R133 meets them. -/
def readGolomb (v : UeCode → BitVec 33) (s : State) : Out :=
  match takeUe s.reader.bits with
  | .ok (c, _) => answerBits (ueLength c) (.value (v c)) s
  | .error r => .next (s.answer (.error (readerError r)))

/-- The reply of `READUE`, 33 bits unsigned (R134). -/
def ueReply (c : UeCode) : BitVec 33 := BitVec.ofNat 33 (ueValue c)

/-- The reply of `READSE`, 33 bits two's complement (R135). -/
def seReply (c : UeCode) : BitVec 33 := BitVec.ofInt 33 (seValue (ueValue c))

/-- `BR.INIT` (R130); `N` is ignored (R111). -/
def execBrInit (_n : BitVec 36) (s : State) : Out := .next ({ s with reader := { view := s.viewArg, pos := 0 } }.answer .done)

/-- `READBITS n` (R131): `n` outside 1 to 32 is refused. -/
def execReadbits (n : BitVec 36) (s : State) : Out :=
  if n.toNat = 0 ∨ n.toNat > Config.brMaxN then .refused .readBitsRange else readFixed n.toNat s

/-- `READFLAG` (R132): `READBITS 1`, the bit as 0 or 1. -/
def execReadflag (_n : BitVec 36) (s : State) : Out := readFixed 1 s

/-- `READUE` (R133). -/
def execReadue (_n : BitVec 36) (s : State) : Out := readGolomb ueReply s

/-- `READSE` (R135). -/
def execReadse (_n : BitVec 36) (s : State) : Out := readGolomb seReply s

/-- `SKIPBITS n` (R136): the skipped bits are not examined. -/
def execSkipbits (n : BitVec 36) (s : State) : Out := answerBits n.toNat .done s

/-- `BYTEALIGN` (R137): to the next byte boundary. -/
def execBytealign (_n : BitVec 36) (s : State) : Out :=
  .next ({ s with reader := { s.reader with pos := BitVec.ofNat 36 (8 * ((s.reader.pos.toNat + 7) / 8)) } }.answer .done)

/-- `OP = 7`: refused (R111). -/
def execBrReserved (_n : BitVec 36) (_s : State) : Out := .refused .reservedOp

/-- The code `u(n)` at the cursor, as `READBITS n` reads it (30_encoding.md R104, R114). -/
def execU (n : BitVec 6) (v : BitVec 32) (s : State) : Out :=
  if n.toNat = 0 ∨ n.toNat > Config.brMaxN then .refused .readBitsRange else answerBits n.toNat (.value (v.zeroExtend 33)) s

/-- The code `ue(v)` at the cursor, as `READUE` reads it (R100, R114). -/
def execUe (c : UeCode) (s : State) : Out := answerBits (ueLength c) (.value (ueReply c)) s

/-- The code `se(v)` at the cursor, as `READSE` reads it (R103, R114). -/
def execSe (c : UeCode) (s : State) : Out := answerBits (ueLength c) (.value (seReply c)) s

end Sys2Proof.Machine
end

