-- ==== Sys2Proof/Machine/Call.lean ====
section
/-! DEFINITION. The host command, the call and its end: `START`, `PARSENALS`, `ENDCALL` (41_nal_scanner.md R160, R161,
R168). -/

namespace Sys2Proof.Machine

open Sys2Proof

/-- `START` (R160, R161; 60_exceptions.md R260): ignored while a call is in progress; refused before `LEN` and `NSW` were
ever written and for a reserved `NSW`; otherwise the call begins and the engine takes it up as `PARSENALS`. -/
def execStart (s : State) : Out :=
  if s.busy then .next s
  else if !s.lenWritten || !s.nswWritten then .refused .startBeforeSetup
  else if s.nsw.toNat > 4 then .refused .reservedNsw
  else .next (s.beginCall.goto .parsenals)

/-- `PARSENALS` (R160): the assignments of a new call, then the scan of the mode in `NSW`. -/
def execParsenals (s : State) : Out :=
  if s.nsw.toNat > 4 then .refused .reservedNsw
  else .next (s.beginCall.goto .scan)

/-- `ENDCALL` (R168): `OK <- (SPS_OK > 0)`, `BUSY <- 0`, `DONE <- 1`. -/
def execEndcall (s : State) : Out :=
  .next { s with status := Status.ended s.status (decide (s.spsOk.toNat > 0)), phase := .idle }

end Sys2Proof.Machine
end

