-- ==== Sys2Proof/Machine/Epb.lean ====
section
/-! DEFINITION. Emulation-prevention removal: `EPBREMOVE` and the triple `EPB` (42_epb_removal.md R190 to R195).  A step is
one iteration of the loop of R190: `EPB` on a byte that is dropped, `EPBREMOVE` on a byte that is kept, and once more
`EPBREMOVE` for the line after the loop (log entry 2). -/

namespace Sys2Proof.Machine

open Sys2Proof

/-- `EPBREMOVE` at payload index `i` (R190): keep the byte, or, past the last one, set `SCR_LEN` and go on with
`PARSESPS`. -/
def execEpbremove (s : State) : Out :=
  if s.epbI.toNat < s.payloadLen then
    ofRead (s.bufRead (s.payloadOff + s.epbI.toNat)) fun b =>
      .next { s.scrWrite s.epbK.toNat b with epbI := s.epbI + 1, epbK := s.epbK + 1, phase := .epb }
  else .next { s with scrLen := s.epbK, phase := .parsesps }

/-- `EPB` (30_encoding.md R99, R190): the `03` at payload index `i` is dropped; nothing after it is examined. -/
def execEpb (s : State) : Out := .next { s with epbI := s.epbI + 1, phase := .epb }

end Sys2Proof.Machine
end

