-- ==== Sys2Proof/Machine/NalUnit.lean ====
section
/-! DEFINITION. One NAL unit: `NALUNIT`, the classes of its header, `DISPATCH` (41_nal_scanner.md R166, R167;
30_encoding.md R96, R97). -/

namespace Sys2Proof.Machine

open Sys2Proof

/-- `NALUNIT` (R166): count the NAL unit, then look at its header. -/
def execNalunit (s : State) : Out := .next { s with nalCount := s.nalCount + 1, phase := .header }

/-- A NAL unit that is skipped with `MalformedNAL` (R166; 60_exceptions.md R244, R248). -/
def malformedNalUnit (s : State) : Out := .next (s.record .malformedNal s.nalOff).nalReturn

/-- A header with the forbidden-zero bit set (R97 (1), R166). -/
def execNalMalformed (_rest : BitVec 15) (s : State) : Out := malformedNalUnit s

/-- A NAL unit of 0 or 1 byte, which has no header (R166). -/
def execNalShort (s : State) : Out := malformedNalUnit s

/-- A header of the SPS type (R97 (2)): `NAL_TYPE <- h0[6:1]`, then `DISPATCH`. -/
def execNalSps (_ignored : BitVec 9) (s : State) : Out := .next { s with nalType := s.cfg.spsNut, phase := .dispatch }

/-- A header of another type (R97 (3)): `NAL_TYPE <- h0[6:1]`, then `DISPATCH`, which skips it. -/
def execNalOther (nalType : BitVec 6) (_ignored : BitVec 9) (s : State) : Out :=
  .next { s with nalType := nalType, phase := .dispatch }

/-- `DISPATCH` (R167): a NAL unit of another type is skipped; an SPS is counted, and `EPBREMOVE(NAL_OFF + 2, NAL_LEN - 2)`
begins with its loop counters `i` and `k` at 0. -/
def execDispatch (s : State) : Out :=
  if s.nalType ≠ s.cfg.spsNut then .next s.nalReturn
  else .next { s with spsSeen := s.spsSeen + 1, epbI := 0, epbK := 0, phase := .epb }

end Sys2Proof.Machine
end

