-- ==== Sys2Proof/Machine/Scanner.lean ====
section
/-! DEFINITION. NAL unit discovery: `SCAN.SC`, `SCAN.LP`, the reserved modes, the start codes and the length prefixes
(41_nal_scanner.md R161 to R165).  The loops of R162 and R164 are unrolled into steps: a scan instruction is the head of
its loop, and the start code or length prefix met there is an instruction of its own (log entry 2). -/

namespace Sys2Proof.Machine

open Sys2Proof

/-- Hand the span `BUF[st .. e - 1]` to `NALUNIT` (R162, R164). -/
def State.openNal (s : State) (st e : Nat) : State :=
  { s with nalOff := BitVec.ofNat 32 st, nalLen := BitVec.ofNat 32 (e - st), phase := .nalunit }

/-- The head of the loop of R164 at `OFF`: without a start code from there on the scan ends; otherwise `OFF` moves past
it, and the NAL unit it opens runs to the end of the buffer or to the start code that ends it. -/
def scanStartCode (s : State) : Out :=
  ofRead (s.findSc s.off.toNat) fun
    | none => .next (s.goto .endcall)
    | some i =>
      ofRead (s.findSc (i + 3)) fun
        | none => .next ({ s with off := BitVec.ofNat 33 (i + 3) }.openNal (i + 3) s.len.toNat)
        | some _ => .next ({ s with off := BitVec.ofNat 33 (i + 3) }.goto .delim)

/-- The start code that ends the NAL unit beginning at `OFF` (R164): the unit ends where the code begins, one byte
earlier when the byte before `00 00 01` belongs to the code (`trim`).  Without a start code ahead it ends at `LEN`. -/
def closeSpan (trim : Bool) (s : State) : Out :=
  ofRead (s.findSc s.off.toNat) fun
    | none => .next (s.openNal s.off.toNat s.len.toNat)
    | some j => .next (s.openNal s.off.toNat (if trim ∧ j > s.off.toNat then j - 1 else j))

/-- The head of the loop of R162 with a field of `w` bytes, compared without wrap (R163). -/
def scanPrefixed (w : Nat) (s : State) : Out :=
  if s.off.toNat < s.len.toNat then
    if s.off.toNat + w > s.len.toNat then .next (s.raiseScan .truncatedNal (BitVec.ofNat 32 s.off.toNat))
    else .next (s.goto .lpField)
  else .next (s.goto .endcall)

/-- A length field of `w` bytes holding `n` (R162): truncated when `OFF + w + n` would pass `LEN`, else a NAL unit. -/
def lengthField (w n : Nat) (s : State) : Out :=
  if s.off.toNat + w + n > s.len.toNat then .next (s.raiseScan .truncatedNal (BitVec.ofNat 32 s.off.toNat))
  else .next (s.openNal (s.off.toNat + w) (s.off.toNat + w + n))

/-- `SCAN.SC` (R164). -/
def execScanSc (s : State) : Out := scanStartCode s

/-- `SCAN.LP` with a 1-byte field (R162). -/
def execScanLp1 (s : State) : Out := scanPrefixed 1 s

/-- `SCAN.LP` with a 2-byte field (R162). -/
def execScanLp2 (s : State) : Out := scanPrefixed 2 s

/-- `SCAN.LP` with a 3-byte field (R162). -/
def execScanLp3 (s : State) : Out := scanPrefixed 3 s

/-- `SCAN.LP` with a 4-byte field (R162). -/
def execScanLp4 (s : State) : Out := scanPrefixed 4 s

/-- `NSW = 5`: refused (R161). -/
def execNswReserved5 (_ : State) : Out := .refused .reservedNsw

/-- `NSW = 6`: refused (R161). -/
def execNswReserved6 (_ : State) : Out := .refused .reservedNsw

/-- `NSW = 7`: refused (R161). -/
def execNswReserved7 (_ : State) : Out := .refused .reservedNsw

/-- `SC3` (30_encoding.md R91, R164). -/
def execSc3 (s : State) : Out := closeSpan false s

/-- `SC4` (30_encoding.md R92, R164): its leading zero is trimmed from the NAL unit before it. -/
def execSc4 (s : State) : Out := closeSpan true s

/-- `LP` of 1 byte (30_encoding.md R93, R162). -/
def execLp1 (n : BitVec 8) (s : State) : Out := lengthField 1 n.toNat s

/-- `LP` of 2 bytes (R93, R162). -/
def execLp2 (n : BitVec 16) (s : State) : Out := lengthField 2 n.toNat s

/-- `LP` of 3 bytes (R93, R162). -/
def execLp3 (n : BitVec 24) (s : State) : Out := lengthField 3 n.toNat s

/-- `LP` of 4 bytes (R93, R162). -/
def execLp4 (n : BitVec 32) (s : State) : Out := lengthField 4 n.toNat s

end Sys2Proof.Machine
end

