-- ==== Sys2Proof/Machine/Sps.lean ====
section
/-! DEFINITION. The SPS field decoder: `PARSESPS` and one instruction per syntax element (43_sps_decoder.md R200 to R235).
`PARSESPS` is the entry of R200; every line after it is the step of its element, in the order of 30_encoding.md R105 and
R106; the last element commits. -/

namespace Sys2Proof.Machine

open Sys2Proof

/-- `PARSESPS` (R200): `VALID <- 0`, `BR.INIT` on `SCR[0 .. SCR_LEN - 1]`, then the first element. -/
def execParsesps (s : State) : Out :=
  .next (({ s with valid := false }.bind { base := 0, len := s.scrLen }).goto (.sps .videoParameterSetId))

/-- One request of `n` bits, then `k`; with fewer bits left, `BitstreamExhausted` (R230, 40_bitreader.md R131, R136), and
what earlier requests did stands (60_exceptions.md R249). -/
def request (n : Nat) (s : State) (k : State → Out) : Out :=
  if s.remain < n then .next (s.raiseSps .bitstreamExhausted) else k (s.advance n)

/-- An element of one request. -/
def element (n : Nat) (s : State) (k : State → State) : Out := request n s fun t => .next (k t)

/-! ## The leading fields -/

/-- R201. -/
def execSpsVideoParameterSetId (_v : BitVec 4) (s : State) : Out :=
  element 4 s fun t => t.goto (.sps .maxSubLayersMinus1)

/-- R202: kept in `N_SUB`. -/
def execSpsMaxSubLayersMinus1 (v : BitVec 3) (s : State) : Out :=
  element 3 s fun t => { t with nSub := v, phase := .sps .temporalIdNestingFlag }

/-- R203. -/
def execSpsTemporalIdNestingFlag (_v : BitVec 1) (s : State) : Out :=
  element 1 s fun t => t.goto (.sps .generalProfileSpace)

/-! ## `profile_tier_level` -/

/-- R204. -/
def execSpsGeneralProfileSpace (_v : BitVec 2) (s : State) : Out :=
  element 2 s fun t => t.goto (.sps .generalTierFlag)

/-- R204. -/
def execSpsGeneralTierFlag (_v : BitVec 1) (s : State) : Out :=
  element 1 s fun t => t.goto (.sps .generalProfileIdc)

/-- R205: kept in `T_PROFILE`. -/
def execSpsGeneralProfileIdc (v : BitVec 5) (s : State) : Out :=
  element 5 s fun t => { t with tProfile := v, phase := .sps .generalCompatibilityFlags }

/-- R206. -/
def execSpsGeneralCompatibilityFlags (_v : BitVec 32) (s : State) : Out :=
  element 32 s fun t => t.goto (.sps .generalSourceFlags)

/-- R207. -/
def execSpsGeneralSourceFlags (_v : BitVec 4) (s : State) : Out :=
  element 4 s fun t => t.goto (.sps .generalConstraintBlock)

/-- R208, R209: `READBITS 32`, then `READBITS 12`, kept in `C44`; `T_REXT` is `REXT_MAP(C44)` for the Range-Extension profile,
else 0. -/
def execSpsGeneralConstraintBlock (v : BitVec 44) (s : State) : Out :=
  request 32 s fun t => element 12 t fun t =>
    { t with
      c44 := v
      tRext := if t.tProfile = t.cfg.rextIdc then Config.rextMap v else 0
      phase := .sps .generalLevelIdc }

/-- R210: kept in `T_LEVEL`; then the sub-layer flags, when there are sub-layers. -/
def execSpsGeneralLevelIdc (v : BitVec 8) (s : State) : Out :=
  element 8 s fun t =>
    { t with
      tLevel := v
      subI := 0
      phase := if t.nSub = 0 then .sps .seqParameterSetId else .sps .subLayerPresentFlags }

/-- After the last present flags: the padding of R212, or at once the sub-layer data of R213. -/
def State.afterPresentFlags (s : State) : State :=
  match s.cfg.ptlPad with
  | .hevc => { s with subI := BitVec.ofNat 4 s.nSub.toNat, phase := .sps .subLayerPadding }
  | .none => s.gotoSubLayer 0

/-- R211: `PP[i]` and `LP[i]`, for `i` = 0 to `N_SUB - 1`. -/
def execSpsSubLayerPresentFlags (p l : BitVec 1) (s : State) : Out :=
  request 1 s fun t => element 1 { t with pp := putFlag t.pp t.subI.toNat p } fun t =>
    let t := { t with lp := putFlag t.lp t.subI.toNat l }
    if t.subI.toNat + 1 < t.nSub.toNat then
      { t with subI := BitVec.ofNat 4 (t.subI.toNat + 1), phase := .sps .subLayerPresentFlags }
    else t.afterPresentFlags

/-- R212: discarded, for `i` = `N_SUB` to 7. -/
def execSpsSubLayerPadding (_v : BitVec 2) (s : State) : Out :=
  element 2 s fun t =>
    if t.subI.toNat < 7 then { t with subI := BitVec.ofNat 4 (t.subI.toNat + 1), phase := .sps .subLayerPadding }
    else t.gotoSubLayer 0

/-- R213: the profile of sub-layer `i` is skipped; its level follows when `LP[i] = 1`. -/
def execSpsSubLayerProfile (_v : BitVec 88) (s : State) : Out :=
  element 88 s fun t =>
    if t.lp.getLsbD t.subI.toNat then t.goto (.sps .subLayerLevelIdc) else t.gotoSubLayer (t.subI.toNat + 1)

/-- R213: the level of sub-layer `i` is skipped. -/
def execSpsSubLayerLevelIdc (_v : BitVec 8) (s : State) : Out :=
  element 8 s fun t => t.gotoSubLayer (t.subI.toNat + 1)

/-! ## The fields after `profile_tier_level` -/

/-- R220. -/
def execSpsSeqParameterSetId (c : UeCode) (s : State) : Out :=
  element (ueLength c) s fun t => t.goto (.sps .chromaFormatIdc)

/-- R221: kept in `T_CHROMA`; 4 or more is `FieldOutOfRange`, before the next field is read. -/
def execSpsChromaFormatIdc (c : UeCode) (s : State) : Out :=
  element (ueLength c) s fun t =>
    if ueValue c > 3 then t.raiseSps .fieldOutOfRange
    else
      { t with
        tChroma := BitVec.ofNat 2 (ueValue c)
        phase := if ueValue c = 3 then .sps .separateColourPlaneFlag else .sps .picWidth }

/-- R222. -/
def execSpsSeparateColourPlaneFlag (_v : BitVec 1) (s : State) : Out :=
  element 1 s fun t => t.goto (.sps .picWidth)

/-- R223. -/
def execSpsPicWidth (c : UeCode) (s : State) : Out :=
  element (ueLength c) s fun t => t.goto (.sps .picHeight)

/-- R224. -/
def execSpsPicHeight (c : UeCode) (s : State) : Out :=
  element (ueLength c) s fun t => t.goto (.sps .conformanceWindowFlag)

/-- R225: gates the four offsets. -/
def execSpsConformanceWindowFlag (v : BitVec 1) (s : State) : Out :=
  element 1 s fun t => t.goto (if v = 1 then .sps .conformanceWindowOffsets else .sps .bitDepthLuma)

/-- R226: four codes in a row. -/
def execSpsConformanceWindowOffsets (c1 c2 c3 c4 : UeCode) (s : State) : Out :=
  request (ueLength c1) s fun t => request (ueLength c2) t fun t => request (ueLength c3) t fun t =>
    element (ueLength c4) t fun t => t.goto (.sps .bitDepthLuma)

/-- R228: `T_DEPTH <- value + 8`; a value of 9 or more is `FieldOutOfRange`. -/
def execSpsBitDepthLuma (c : UeCode) (s : State) : Out :=
  element (ueLength c) s fun t =>
    if ueValue c > 8 then t.raiseSps .fieldOutOfRange
    else { t with tDepth := BitVec.ofNat 5 (ueValue c + 8), phase := .sps .bitDepthChroma }

/-- R229, then the commit of R231 and the success line of `DISPATCH`: `SPS_OK <- SPS_OK + 1` (41_nal_scanner.md R167). -/
def execSpsBitDepthChroma (c : UeCode) (s : State) : Out :=
  element (ueLength c) s fun t => { t.commit with spsOk := t.spsOk + 1 }.nalReturn

end Sys2Proof.Machine
end

