-- ==== Sys2Proof/Machine/Dispatch.lean ====
section
/-! DEFINITION. The dispatch: one arm per constructor of Instr, each one direct call of the instruction's meaning. -/

namespace Sys2Proof.Machine

open Sys2Proof

def exec (i : Instr) (s : State) : Host.Outcome State Fault Refusal :=
  match i with
  | .start => Sys2Proof.Machine.execStart s
  | .parsenals => Sys2Proof.Machine.execParsenals s
  | .scanSc => Sys2Proof.Machine.execScanSc s
  | .scanLp1 => Sys2Proof.Machine.execScanLp1 s
  | .scanLp2 => Sys2Proof.Machine.execScanLp2 s
  | .scanLp3 => Sys2Proof.Machine.execScanLp3 s
  | .scanLp4 => Sys2Proof.Machine.execScanLp4 s
  | .nswReserved5 => Sys2Proof.Machine.execNswReserved5 s
  | .nswReserved6 => Sys2Proof.Machine.execNswReserved6 s
  | .nswReserved7 => Sys2Proof.Machine.execNswReserved7 s
  | .sc3 => Sys2Proof.Machine.execSc3 s
  | .sc4 => Sys2Proof.Machine.execSc4 s
  | .lp1 length => Sys2Proof.Machine.execLp1 length s
  | .lp2 length => Sys2Proof.Machine.execLp2 length s
  | .lp3 length => Sys2Proof.Machine.execLp3 length s
  | .lp4 length => Sys2Proof.Machine.execLp4 length s
  | .nalMalformed rest => Sys2Proof.Machine.execNalMalformed rest s
  | .nalSps ignored => Sys2Proof.Machine.execNalSps ignored s
  | .nalOther nalType ignored => Sys2Proof.Machine.execNalOther nalType ignored s
  | .nalShort => Sys2Proof.Machine.execNalShort s
  | .epb => Sys2Proof.Machine.execEpb s
  | .epbremove => Sys2Proof.Machine.execEpbremove s
  | .u n v => Sys2Proof.Machine.execU n v s
  | .ue c => Sys2Proof.Machine.execUe c s
  | .se c => Sys2Proof.Machine.execSe c s
  | .brInit n => Sys2Proof.Machine.execBrInit n s
  | .readbits n => Sys2Proof.Machine.execReadbits n s
  | .readflag n => Sys2Proof.Machine.execReadflag n s
  | .readue n => Sys2Proof.Machine.execReadue n s
  | .readse n => Sys2Proof.Machine.execReadse n s
  | .skipbits n => Sys2Proof.Machine.execSkipbits n s
  | .bytealign n => Sys2Proof.Machine.execBytealign n s
  | .brReserved n => Sys2Proof.Machine.execBrReserved n s
  | .nalunit => Sys2Proof.Machine.execNalunit s
  | .dispatch => Sys2Proof.Machine.execDispatch s
  | .endcall => Sys2Proof.Machine.execEndcall s
  | .parsesps => Sys2Proof.Machine.execParsesps s
  | .spsVideoParameterSetId v => Sys2Proof.Machine.execSpsVideoParameterSetId v s
  | .spsMaxSubLayersMinus1 v => Sys2Proof.Machine.execSpsMaxSubLayersMinus1 v s
  | .spsTemporalIdNestingFlag v => Sys2Proof.Machine.execSpsTemporalIdNestingFlag v s
  | .spsGeneralProfileSpace v => Sys2Proof.Machine.execSpsGeneralProfileSpace v s
  | .spsGeneralTierFlag v => Sys2Proof.Machine.execSpsGeneralTierFlag v s
  | .spsGeneralProfileIdc v => Sys2Proof.Machine.execSpsGeneralProfileIdc v s
  | .spsGeneralCompatibilityFlags v => Sys2Proof.Machine.execSpsGeneralCompatibilityFlags v s
  | .spsGeneralSourceFlags v => Sys2Proof.Machine.execSpsGeneralSourceFlags v s
  | .spsGeneralConstraintBlock v => Sys2Proof.Machine.execSpsGeneralConstraintBlock v s
  | .spsGeneralLevelIdc v => Sys2Proof.Machine.execSpsGeneralLevelIdc v s
  | .spsSubLayerPresentFlags p l => Sys2Proof.Machine.execSpsSubLayerPresentFlags p l s
  | .spsSubLayerPadding v => Sys2Proof.Machine.execSpsSubLayerPadding v s
  | .spsSubLayerProfile v => Sys2Proof.Machine.execSpsSubLayerProfile v s
  | .spsSubLayerLevelIdc v => Sys2Proof.Machine.execSpsSubLayerLevelIdc v s
  | .spsSeqParameterSetId c => Sys2Proof.Machine.execSpsSeqParameterSetId c s
  | .spsChromaFormatIdc c => Sys2Proof.Machine.execSpsChromaFormatIdc c s
  | .spsSeparateColourPlaneFlag v => Sys2Proof.Machine.execSpsSeparateColourPlaneFlag v s
  | .spsPicWidth c => Sys2Proof.Machine.execSpsPicWidth c s
  | .spsPicHeight c => Sys2Proof.Machine.execSpsPicHeight c s
  | .spsConformanceWindowFlag v => Sys2Proof.Machine.execSpsConformanceWindowFlag v s
  | .spsConformanceWindowOffsets c1 c2 c3 c4 => Sys2Proof.Machine.execSpsConformanceWindowOffsets c1 c2 c3 c4 s
  | .spsBitDepthLuma c => Sys2Proof.Machine.execSpsBitDepthLuma c s
  | .spsBitDepthChroma c => Sys2Proof.Machine.execSpsBitDepthChroma c s

end Sys2Proof.Machine
end

