-- ==== Sys2Proof/Machine/Fetch.lean ====
section
/-! DEFINITION. What a step works on: the instruction the engine meets where it stands, and what the host does.  NALP
fetches no program (00_scope.md R3): the engine's place in the pseudocode says which format it expects and where its bits
are, and the decoder reads the instruction there. -/

namespace Sys2Proof.Machine

open Sys2Proof

/-- What a step has to do: run an instruction at a state, or answer at once. -/
inductive Fetched where
  | run (i : Instr) (s : State)
  | answer (o : Out)

/-- Run what the decoder accepts.  The formats met through here are complete where the engine meets them. -/
def runDecoded (s : State) (r : Except Reject (Instr × Bits)) : Fetched :=
  match r with
  | .ok (i, _) => .run i s
  | .error e => .answer (.refused (.undecodable e))

/-- Go on with the value of a read, or stop with its fault. -/
def fetchRead {α : Type} (r : Except Fault α) (k : α → Fetched) : Fetched :=
  match r with
  | .ok a => k a
  | .error f => .answer (.fault f)

/-! ## The engine -/

/-- The length field at `OFF` (41_nal_scanner.md R162). -/
def fetchLengthField (s : State) : Fetched :=
  fetchRead (s.bufBytes s.nsw.toNat s.off.toNat) fun bs => runDecoded s (decode s.cfg (.lp s.nsw.toNat) (bitsOfBytes bs))

/-- The start code that ends the NAL unit at `OFF` (R164): four bytes when the byte before `00 00 01` is `00` and lies in
the NAL unit's span (30_encoding.md R92, R110), else three. -/
def fetchDelimiter (s : State) : Fetched :=
  fetchRead (s.findSc s.off.toNat) fun
    | none => .run .scanSc s
    | some j =>
      if j > s.off.toNat then
        fetchRead (s.bufRead (j - 1)) fun b =>
          if b = 0 then
            fetchRead (s.bufBytes 4 (j - 1)) fun bs => runDecoded s (decode s.cfg .sc (bitsOfBytes bs))
          else fetchRead (s.bufBytes 3 j) fun bs => runDecoded s (decode s.cfg .sc (bitsOfBytes bs))
      else fetchRead (s.bufBytes 3 j) fun bs => runDecoded s (decode s.cfg .sc (bitsOfBytes bs))

/-- The header of the current NAL unit (R166); a NAL unit of fewer than 2 bytes has none and nothing is read. -/
def fetchHeader (s : State) : Fetched :=
  if s.nalLen.toNat < 2 then runDecoded s (decode s.cfg .nh [])
  else fetchRead (s.bufBytes 2 s.nalOff.toNat) fun bs => runDecoded s (decode s.cfg .nh (bitsOfBytes bs))

/-- The payload byte at index `i` of the loop of R190: with two bytes before it, `EPB` when the three are `00 00 03`; in
every other case `EPBREMOVE`. -/
def fetchEpb (s : State) : Fetched :=
  if 2 ≤ s.epbI.toNat ∧ s.epbI.toNat < s.payloadLen then
    fetchRead (s.bufBytes 3 (s.payloadOff + s.epbI.toNat - 2)) fun bs =>
      match decode s.cfg .epb (bitsOfBytes bs) with
      | .ok (i, _) => .run i s
      | .error _ => runDecoded s (decode s.cfg (.op .epbremove) [])
  else runDecoded s (decode s.cfg (.op .epbremove) [])

/-- An SPS element at the cursor; an error of the bit reader aborts the decode (43_sps_decoder.md R230) after the requests of
the element that succeeded (60_exceptions.md R249). -/
def fetchElement (e : SpsElem) (s : State) : Fetched :=
  match s.codeAt e with
  | .found i => .run i s
  | .raises err => .answer (.next ((s.passed e (s.elementBits e)).raiseSps err))
  | .faults f => .answer (.fault f)
  | .rejected r => .answer (.refused (.undecodable r))

/-- What the engine does next. -/
def fetchEngine (s : State) : Fetched :=
  match s.phase with
  | .idle => .answer (.next s)
  | .parsenals => runDecoded s (decode s.cfg .call [true])
  | .scan => runDecoded s (decode s.cfg .nsw (bitsOfBv s.nsw))
  | .lpField => fetchLengthField s
  | .delim => fetchDelimiter s
  | .nalunit => runDecoded s (decode s.cfg (.op .nalunit) [])
  | .header => fetchHeader s
  | .dispatch => runDecoded s (decode s.cfg (.op .dispatch) [])
  | .epb => fetchEpb s
  | .parsesps => runDecoded s (decode s.cfg (.op .parsesps) [])
  | .sps e => fetchElement e s
  | .endcall => runDecoded s (decode s.cfg (.op .endcall) [])

/-! ## The host (10_state.md R21, 60_exceptions.md R260, 70_reset_and_hazards.md R270 to R284) -/

/-- A host write to a register: `CTRL` bit 0 is the command, a write of 0 does nothing (30_encoding.md R112); `LEN` and
`NSW` are refused while busy (R280); a write to a read-only register is ignored (R21). -/
def hostWrite (reg : Nat) (v : BitVec 32) (s : State) : Fetched :=
  match reg with
  | 0 =>
    match decode s.cfg .ctrl [v.getLsbD 0] with
    | .ok (i, _) => .run i s
    | .error _ => .answer (.next s)
  | 2 =>
    if s.busy then .answer (.refused .hostWriteWhileBusy)
    else .answer (.next { s with len := v, lenWritten := true })
  | 3 =>
    if s.busy then .answer (.refused .hostWriteWhileBusy)
    else .answer (.next { s with nsw := v.setWidth 3, nswWritten := true })
  | 1 | 4 | 5 | 6 | 7 | 8 | 9 | 10 | 11 | 12 | 13 | 14 => .answer (.next s)
  | _ => .answer (.refused .noSuchRegister)

/-- The value of a register as the host reads it between calls; bits above its width read 0 (R21). -/
def regValue (s : State) (reg : Nat) : Option (BitVec 32) :=
  match reg with
  | 0 => some 0
  | 1 => some (s.status.setWidth 32)
  | 2 => some s.len
  | 3 => some (s.nsw.setWidth 32)
  | 4 => some (if s.valid then 1 else 0)
  | 5 => some (s.profile.setWidth 32)
  | 6 => some (s.rextProfile.setWidth 32)
  | 7 => some (s.level.setWidth 32)
  | 8 => some (s.chromaFormat.setWidth 32)
  | 9 => some (s.bitDepth.setWidth 32)
  | 10 => some s.nalCount
  | 11 => some s.spsSeen
  | 12 => some s.spsOk
  | 13 => some (s.lastErr.setWidth 32)
  | 14 => some s.errOff
  | _ => none

/-- `STATUS` as read while a call is in progress: `BUSY` and `DONE` as they stand, the reserved bits 0, and a free value
in the others, which are no part of the contract (R282; log entry 9). -/
def busyStatus (s : State) : BitVec 13 := (s.status &&& 0x0003) ||| (Config.freeStatus s.free &&& 0x1F04)

/-- A host read of a register: while busy only `STATUS` may be read (R282); the five data registers only when `VALID = 1`
(R260, R284).  MODEL'S CHOICE (log entry 24): with `BUSY = 0` and `DONE = 0`, after reset and before any call, where
41_nal_scanner.md R173 has the host read no result yet and no rule refuses it, `VALID`, the counters, `LAST_ERR` and `ERR_OFF`
read as they stand. -/
def hostRead (reg : Nat) (s : State) : Fetched :=
  match regValue s reg with
  | none => .answer (.refused .noSuchRegister)
  | some v =>
    if s.busy then
      if reg = 1 then .answer (.next { s with hostData := (busyStatus s).setWidth 32, free := s.free + 1 })
      else .answer (.refused .hostReadWhileBusy)
    else if 5 ≤ reg ∧ reg ≤ 9 ∧ s.valid = false then .answer (.refused .hostReadInvalid)
    else .answer (.next { s with hostData := v })

/-- A host write of one byte of `BUF` (20_memory.md R60), refused while busy (R280). -/
def hostWriteBuf (off : BitVec 32) (b : Byte) (s : State) : Fetched :=
  if s.busy then .answer (.refused .hostWriteWhileBusy)
  else .answer (.next { s with buf := s.buf.write off.toNat b })

/-- The reset input (R270, R271): the state after reset; the parameters are fixed for the life of the instance (R274), what
the host goes on to do is the host's, and a bit reader used on its own is no part of the block (log entries 11, 12). -/
def State.resetInput (s : State) : State :=
  { State.reset with
    cfg := s.cfg
    host := s.host
    hostData := s.hostData
    free := s.free
    reader := s.reader
    viewArg := s.viewArg
    reply := s.reply }

/-- A request by the name of a code (30_encoding.md R114): the code at the cursor is the instruction. -/
def hostCode (f : CodeFmt) (s : State) : Fetched :=
  let fmt := match f with
    | .u n => .u n.toNat
    | .ue => .ue
    | .se => .se
  match decode s.cfg fmt s.reader.bits with
  | .ok (i, _) => .run i s
  | .error .badWidth => .answer (.refused .readBitsRange)
  | .error r => .answer (.next (s.answer (.error (readerError r))))

/-- What an access of the host, or of the user of a bit reader on its own, does. -/
def fetchHost (a : HostAct) (s : State) : Fetched :=
  match a with
  | .write reg v => hostWrite reg v s
  | .read reg => hostRead reg s
  | .writeBuf off b => hostWriteBuf off b s
  | .reset => .answer (.next s.resetInput)
  | .bindView v =>
    if v.length < 2 ^ 32 then .answer (.next { s with viewArg := v }) else .answer (.refused .viewTooLong)
  | .request w => runDecoded s (decode s.cfg .br (bitsOfBv w))
  | .code f => hostCode f s
  | .pass => fetchEngine s

/-- The host's next access, when it has one; else the engine (log entry 3). -/
def fetch (s : State) : Fetched :=
  match s.host with
  | a :: rest => fetchHost a { s with host := rest }
  | [] => fetchEngine s

/-! ## Placing an instruction where the next step meets it -/

/-- The `n` bytes of a table word, most significant first: the first byte of a stream structure is its most significant
one (20_memory.md R64, R66). -/
def bytesOfWord : Nat → Nat → List Byte
  | 0, _ => []
  | n + 1, w => BitVec.ofNat 8 (w / 256 ^ n) :: bytesOfWord n w

/-- Write bytes at consecutive addresses. -/
def Memory.writeBytes (m : Memory) : Nat → List Byte → Memory
  | _, [] => m
  | o, b :: r => (m.write o b).writeBytes (o + 1) r

/-- Bytes of `BUF` placed at `o`, with `LEN` at least past them. -/
def State.placeBuf (s : State) (o : Nat) (bs : List Byte) : State :=
  { s with buf := s.buf.writeBytes o bs, len := BitVec.ofNat 32 (max s.len.toNat (o + bs.length)) }

/-- An SPS element of `n` bytes placed at the start of `SCR`, the cursor on it. -/
def State.placeElement (s : State) (e : SpsElem) (bs : List Byte) : State :=
  { s with
    scr := s.scr.writeBytes 0 bs
    scrLen := BitVec.ofNat 32 bs.length
    view := { base := 0, len := BitVec.ofNat 32 bs.length }
    pos := 0
    total := BitVec.ofNat 36 (8 * bs.length)
    phase := .sps e
    host := [] }

/-- `s` with the table word `w` of `nbits` bits where the next step meets it (log entry 6). -/
def placeTableWord (s : State) (nbits w : Nat) : State :=
  match tableFmt nbits w with
  | none => s
  | some (.ctrl, _) => { s with host := [.write 0 (BitVec.ofNat 32 w)], lenWritten := true, nswWritten := true }
  | some (.nsw, _) => { s with nsw := BitVec.ofNat 3 w, nswWritten := true, phase := .scan, host := [] }
  | some (.lp k, _) =>
    { s.placeBuf s.off.toNat (bytesOfWord k w) with nsw := BitVec.ofNat 3 k, phase := .lpField, host := [] }
  | some (.sc, n) => { s.placeBuf s.off.toNat (bytesOfWord (n / 8) w) with nsw := 0, phase := .delim, host := [] }
  | some (.epb, _) =>
    { s.placeBuf (s.nalOff.toNat + 2) (bytesOfWord 3 w) with nalLen := 5, epbI := 2, phase := .epb, host := [] }
  | some (.nh, 16) =>
    { s.placeBuf s.nalOff.toNat (bytesOfWord 2 w) with nalLen := 2, phase := .header, host := [] }
  | some (.nh, _) => { s with nalLen := 0, phase := .header, host := [] }
  | some (.br, _) => { s with host := [.request (BitVec.ofNat 39 w)] }
  | some (.sps e, n) => s.placeElement e (bytesOfWord (nbits / 8) (w * 2 ^ (nbits - n)))
  | some (_, _) => s

end Sys2Proof.Machine
end

