-- ==== Sys2Proof/Safety.lean ====
section
/-! DEFINITION. The terms claims are stated in: which bytes the host has supplied, what the rules of the spec compute on byte
and bit strings, how an error shows in the state, and what every run keeps true of it. -/

namespace Sys2Proof.Machine

open Sys2Proof

/-! ## Outcomes -/

/-- The next state an outcome holds, when it is one. -/
def nextOf : Out → Option State
  | .next s => some s
  | .fault _ => none
  | .refused _ => none

/-! ## What the host supplies -/

/-- `BUF[0 .. LEN - 1]` holds the bytes to parse (70_reset_and_hazards.md R273): each has been written. -/
def State.BufWritten (s : State) : Prop := ∀ i < s.len.toNat, (s.buf.read? i).isSome = true

/-- The first `n` bytes of `SCR` have been written. -/
def State.ScrWritten (s : State) (n : Nat) : Prop := ∀ i < n, (s.scr.read? i).isSome = true

/-- `00 00 01` stands at offset `j` of `BUF`, inside the buffer (41_nal_scanner.md R165). -/
def State.IsStartCode (s : State) (j : Nat) : Prop :=
  j + 2 < s.len.toNat ∧ s.buf.read? j = some 0x00 ∧ s.buf.read? (j + 1) = some 0x00 ∧ s.buf.read? (j + 2) = some 0x01

/-- `j` is `find_sc(from)`: the least offset from `from_` on at which a start code stands (R165). -/
def State.FirstStartCode (s : State) (from_ j : Nat) : Prop :=
  from_ ≤ j ∧ s.IsStartCode j ∧ ∀ k, from_ ≤ k → k < j → ¬ s.IsStartCode k

/-! ## What the rules compute on strings -/

/-- Whether byte `i` of a payload is an emulation-prevention byte: `drop` in the pseudocode of 42_epb_removal.md R190. -/
def isEpb (payload : List Byte) (i : Nat) : Bool :=
  decide (payload[i]? = some 0x03) && decide (2 ≤ i) && decide (payload[i - 1]? = some 0x00) &&
    decide (payload[i - 2]? = some 0x00)

/-- The payload without its emulation-prevention bytes: the loop of R190. -/
def keptBytes (payload : List Byte) : List Byte :=
  (List.range payload.length).filterMap fun i => if isEpb payload i then none else payload[i]?

/-- The streaming form of R191, `z` consecutive zeros seen. -/
def streamKept : Nat → List Byte → List Byte
  | _, [] => []
  | z, b :: r =>
    if b = 0x03 ∧ 2 ≤ z then streamKept 0 r
    else b :: streamKept (if b = 0x00 then z + 1 else 0) r

/-- `be(b0, ..., bk)` (00_scope.md R12). -/
def bigEndian (bs : List Byte) : Nat := bs.foldl (fun a b => 256 * a + b.toNat) 0

/-- The standard exponential-Golomb scheme (40_bitreader.md R141): `v + 1` in binary with `m` bits, preceded by `m - 1`
zeros. -/
def ueEncode (v : Nat) : Bits := List.replicate (v + 1).log2 false ++ bitsOfNat ((v + 1).log2 + 1) (v + 1)

/-- The signed scheme of R141: `v > 0` is sent as `2v - 1`, `v <= 0` as `-2v`. -/
def seEncode (v : Int) : Bits := ueEncode (if 0 < v then (2 * v - 1).toNat else (-2 * v).toNat)

/-- The bits `bs` stand at the cursor of the reader inside NALP, inside the view. -/
def State.CursorAt (s : State) (bs : Bits) : Prop :=
  bs.length ≤ s.remain ∧ ∀ k (h : k < bs.length), s.viewBit (s.pos.toNat + k) = .ok bs[k]

/-- The bits `bs` stand at the cursor of the reader used on its own, inside its view. -/
abbrev State.ReaderAt (s : State) (bs : Bits) : Prop := bs <+: s.reader.bits

/-- The first bits of the de-emulated payload are `bs` (20_memory.md R65, 43_sps_decoder.md R200). -/
def State.PayloadBegins (s : State) (bs : Bits) : Prop :=
  bs.length ≤ 8 * s.scrLen.toNat ∧
    ∀ k (h : k < bs.length), ∃ b, s.scr.read? (k / 8) = some b ∧ b.getLsbD (7 - k % 8) = bs[k]

/-- The bits of several stream structures, one after the other. -/
def encodeAll (c : Cfg) (is : List Instr) : Bits := (is.map (encode c)).flatten

/-- Two instances are given the same call: the same bytes, length, mode and parameters (41_nal_scanner.md R172). -/
def State.SameInputs (s s' : State) : Prop :=
  s'.len = s.len ∧ s'.nsw = s.nsw ∧ s'.cfg = s.cfg ∧ ∀ i < s.len.toNat, s'.buf.read? i = s.buf.read? i

/-- The five result data registers are the same (10_state.md R28). -/
def State.SameRecord (s s' : State) : Prop :=
  s'.profile = s.profile ∧ s'.rextProfile = s.rextProfile ∧ s'.level = s.level ∧ s'.chromaFormat = s.chromaFormat ∧
    s'.bitDepth = s.bitDepth

/-! ## How an error shows, and how the scan goes on -/

/-- `t` is `s` with an error recorded: its sticky bit set, `LAST_ERR` and `ERR_OFF` written, nothing else changed
(60_exceptions.md R247). -/
def State.Recorded (s t : State) (bit : Nat) (code : BitVec 3) (off : BitVec 32) : Prop :=
  t = { s with status := t.status, lastErr := code, errOff := off } ∧
    ∀ j < 13, t.status.getLsbD j = (decide (j = bit) || s.status.getLsbD j)

/-- `t` is `s` back at the scan loop after its NAL unit: in start-code mode `OFF` is unchanged, in length-prefixed mode it
is `OFF + w + n` (41_nal_scanner.md R162, R164); nothing else changed. -/
def State.ScanGoesOn (s t : State) : Prop :=
  t = { s with off := t.off, phase := .scan } ∧ (s.nsw = 0 → t.off = s.off) ∧
    (s.nsw ≠ 0 → t.off = BitVec.ofNat 33 (s.off.toNat + s.nsw.toNat + s.nalLen.toNat))

/-- The widths of the bit-reader requests that read an SPS element, in their order (43_sps_decoder.md R200): `READBITS 32` and
`READBITS 12` for the constraint block (R208), two flags (R211), four codes (R226); one request for every other element. -/
def requests (c : Cfg) : Instr → List Nat
  | .spsGeneralConstraintBlock _ => [32, 12]
  | .spsSubLayerPresentFlags _ _ => [1, 1]
  | .spsConformanceWindowOffsets c1 c2 c3 c4 => [c1.bits.length, c2.bits.length, c3.bits.length, c4.bits.length]
  | i => [(encode c i).length]

/-- `t` is the scan gone on after an SPS decode that was aborted at `s` with an error (43_sps_decoder.md R230,
60_exceptions.md R248): the error is recorded with `NAL_OFF`, and nothing else of `s` is changed. -/
def State.AbortedTo (s t : State) (bit : Nat) (code : BitVec 3) : Prop :=
  ∃ u, s.Recorded u bit code s.nalOff ∧ u.ScanGoesOn t

/-- The sub-layer at or after `i` that has data, and what comes first of it (43_sps_decoder.md R213). -/
def State.SubLayerNext (s : State) (i j : Nat) (e : SpsElem) : Prop :=
  i ≤ j ∧ j < s.nSub.toNat ∧ (∀ k, i ≤ k → k < j → s.pp.getLsbD k = false ∧ s.lp.getLsbD k = false) ∧
    ((s.pp.getLsbD j = true ∧ e = .subLayerProfile) ∨
      (s.pp.getLsbD j = false ∧ s.lp.getLsbD j = true ∧ e = .subLayerLevelIdc))

/-- `t` is `s` at the data of the first sub-layer from `i` on that has any, or past `profile_tier_level` when none has
(R213); nothing else changed. -/
def State.AtSubLayer (s t : State) (i : Nat) : Prop :=
  (∃ j e, s.SubLayerNext i j e ∧ t = { s with subI := BitVec.ofNat 4 j, phase := .sps e }) ∨
    ((∀ k, i ≤ k → k < s.nSub.toNat → s.pp.getLsbD k = false ∧ s.lp.getLsbD k = false) ∧
      t = { s with phase := .sps .seqParameterSetId })

/-- `t` is `s` at the start of a call (41_nal_scanner.md R160): `BUSY` set, `DONE`, `OK` and the sticky bits cleared, the
counters, `LAST_ERR`, `ERR_OFF`, `VALID` and `OFF` cleared; nothing else changed but the place. -/
def State.CallBegun (s t : State) (p : Phase) : Prop :=
  t = { s with
    status := t.status, lastErr := 0, errOff := 0, nalCount := 0, spsSeen := 0, spsOk := 0, valid := false, off := 0
    phase := p } ∧
    ∀ j < 13, t.status.getLsbD j =
      if j = 0 then true else if j = 1 ∨ j = 2 ∨ 8 ≤ j then false else s.status.getLsbD j

/-! ## Places in the pseudocode -/

/-- The engine works on a NAL unit it has found. -/
def Phase.inUnit : Phase → Bool
  | .nalunit | .header | .dispatch | .epb | .parsesps | .sps _ => true
  | _ => false

/-- The engine works on the payload of an SPS. -/
def Phase.inSps : Phase → Bool
  | .epb | .parsesps | .sps _ => true
  | _ => false

/-! ## The invariant -/

/-- What every step keeps (each field names the rule it reads). -/
structure State.Inv (s : State) : Prop where
  /-- Both memories are in canonical form. -/
  bufWf : s.buf.wf = true
  scrWf : s.scr.wf = true
  /-- The reserved bits of `STATUS` read 0 (10_state.md R22). -/
  reserved : ∀ i, 3 ≤ i → i ≤ 7 → s.status.getLsbD i = false
  /-- `LAST_ERR` is a code of R240. -/
  lastErrCode : s.lastErr.toNat ≤ 5
  /-- The cursor stays within its view, and `TOTAL` is 8 times the view's length (10_state.md R25, R26). -/
  cursor : s.pos.toNat ≤ s.total.toNat
  totalBytes : s.total.toNat = 8 * s.view.len.toNat
  /-- So does the cursor of the reader used on its own, whose views have at most `2^32 - 1` bytes (40_bitreader.md R130). -/
  readerCursor : s.reader.pos.toNat ≤ s.reader.total.toNat
  readerView : s.reader.view.length < 2 ^ 32 ∧ s.viewArg.length < 2 ^ 32
  /-- `BUSY` is 1 exactly while a call is in progress; `DONE` and `OK` are 0 then (R22). -/
  busyPhase : s.busy = true ↔ s.phase ≠ .idle
  busyDone : s.busy = true → s.done = false ∧ s.ok = false
  /-- A valid record has a legal bit depth, and some SPS of the last call decoded (10_state.md R29, 41_nal_scanner.md
  R168). -/
  depth : s.valid = true → 8 ≤ s.bitDepth.toNat ∧ s.bitDepth.toNat ≤ 16
  validOk : s.valid = true → 0 < s.spsOk.toNat
  /-- Between calls `OK` says whether an SPS decoded (R168). -/
  okIdle : s.phase = .idle → (s.ok = true ↔ 0 < s.spsOk.toNat)
  /-- A call runs with `NSW` in 0 to 4 (R161). -/
  mode : s.phase ≠ .idle → s.nsw.toNat ≤ 4
  /-- `OFF` stays in 0 to `LEN` (10_state.md R24, 41_nal_scanner.md R163). -/
  offLen : s.phase ≠ .idle → s.phase ≠ .parsenals → s.off.toNat ≤ s.len.toNat
  /-- A length field lies inside the buffer (R162). -/
  lpRoom : s.phase = .lpField → 1 ≤ s.nsw.toNat ∧ s.off.toNat + s.nsw.toNat ≤ s.len.toNat
  /-- Start codes end NAL units in start-code mode only (R164). -/
  delimMode : s.phase = .delim → s.nsw = 0
  /-- The current NAL unit lies inside the buffer, right after its length field or start code (R162, R164). -/
  unitOff : s.phase.inUnit = true → s.nalOff.toNat = s.off.toNat + s.nsw.toNat
  unitLen : s.phase.inUnit = true → s.nalOff.toNat + s.nalLen.toNat ≤ s.len.toNat
  /-- A NAL unit that is dispatched has its 2-byte header (R166). -/
  header : (s.phase = .dispatch ∨ s.phase.inSps = true) → 2 ≤ s.nalLen.toNat
  /-- The loop counters of R190: no more bytes kept than seen, none past the payload, the kept ones in `SCR`. -/
  epbLoop : s.phase = .epb → s.epbK.toNat ≤ s.epbI.toNat ∧ s.epbI.toNat ≤ s.payloadLen ∧ s.ScrWritten s.epbK.toNat
  /-- `PARSESPS` reads the de-emulated payload and nothing else (43_sps_decoder.md R200, 20_memory.md R62). -/
  scrReady : s.phase = .parsesps → s.ScrWritten s.scrLen.toNat
  spsView : ∀ e, s.phase = .sps e →
    s.view = { base := 0, len := s.scrLen } ∧ s.ScrWritten s.scrLen.toNat ∧ s.valid = false
  /-- The depth staged for the commit is legal (R228). -/
  staged : s.phase = .sps .bitDepthChroma → 8 ≤ s.tDepth.toNat ∧ s.tDepth.toNat ≤ 16
  /-- The sub-layer loops stay within `N_SUB`, the padding within 7 (R211 to R213). -/
  subIndex : (s.phase = .sps .subLayerPresentFlags ∨ s.phase = .sps .subLayerProfile ∨
    s.phase = .sps .subLayerLevelIdc) → s.subI.toNat < s.nSub.toNat
  padIndex : s.phase = .sps .subLayerPadding → 1 ≤ s.subI.toNat ∧ s.subI.toNat ≤ 7
  /-- The counters of a call (60_exceptions.md R256, 41_nal_scanner.md R166): `SPS_OK <= SPS_SEEN <= NAL_COUNT`, with
  room for the NAL unit in hand, and `NAL_COUNT` bounded by the bytes already passed. -/
  okSeen : s.spsOk.toNat + (if s.phase.inSps then 1 else 0) ≤ s.spsSeen.toNat
  seenCount : s.spsSeen.toNat + (if s.phase = .header ∨ s.phase = .dispatch then 1 else 0) ≤ s.nalCount.toNat
  countOff : (s.phase = .scan ∨ s.phase = .lpField ∨ s.phase = .endcall) → s.nalCount.toNat ≤ s.off.toNat
  countDelim : s.phase = .delim → s.nalCount.toNat + 1 ≤ s.off.toNat
  countUnit : s.phase.inUnit = true →
    s.nalCount.toNat + (if s.phase = .nalunit then 1 else 0) ≤ s.off.toNat + s.nsw.toNat

end Sys2Proof.Machine
end

