-- ==== Sys2Proof/Certificates/Slice0/Obligations.lean ====
section
/-! DEFINITION. The statements for the provers.  Each docstring names the rule of spec/ it reads; a clause that rests on a
choice of the model names its log entry. -/

open Sys2Proof Sys2Proof.Machine

/-! ## Reset and the host -/

/-- 10_state.md R35: the values the spec gives for reset.  That no byte of `BUF` and `SCR` has a value is log entry 8. -/
def Obligations.ResetState : Prop :=
  State.reset.status = 0 ∧ State.reset.valid = false ∧ State.reset.nalCount = 0 ∧ State.reset.spsSeen = 0 ∧
    State.reset.spsOk = 0 ∧ State.reset.lastErr = 0 ∧ State.reset.errOff = 0 ∧ State.reset.phase = .idle ∧
    (∀ a, State.reset.buf.read? a = none) ∧ ∀ a, State.reset.scr.read? a = none

/-- 70_reset_and_hazards.md R270, R271: the reset input, asserted at any time, also during a call.  `cfg` and `host` are the
model's own (log entries 3 and 5). -/
def Obligations.ResetInputAbandonsCall : Prop :=
  ∀ (s : State) (rest : List HostAct), s.host = .reset :: rest →
    ∃ t, step s = .next t ∧ t.busy = false ∧ t.done = false ∧ t.status = 0 ∧ t.valid = false ∧ t.nalCount = 0 ∧
      t.spsSeen = 0 ∧ t.spsOk = 0 ∧ t.lastErr = 0 ∧ t.errOff = 0 ∧ t.phase = .idle ∧
      (∀ a, t.buf.read? a = none) ∧ (∀ a, t.scr.read? a = none) ∧ t.cfg = s.cfg ∧ t.host = rest

/-- 41_nal_scanner.md R160: a `START` that is accepted, and the operation it performs. -/
def Obligations.StartBeginsCall : Prop :=
  ∀ s : State, s.nsw.toNat ≤ 4 →
    (s.busy = false → s.lenWritten = true → s.nswWritten = true →
      ∃ t, exec .start s = .next t ∧ s.CallBegun t .parsenals) ∧
    ∃ t, exec .parsenals s = .next t ∧ s.CallBegun t .scan

/-- 70_reset_and_hazards.md R281: for the instruction, and for the host's write of 1. -/
def Obligations.StartIgnoredWhileBusy : Prop :=
  ∀ s : State, s.busy = true →
    exec .start s = .next s ∧
    ∀ v rest, s.host = .write 0 v :: rest → v.getLsbD 0 = true → step s = .next { s with host := rest }

/-- 41_nal_scanner.md R161: a `START` with `NSW` in 5 to 7 stops, and so do the reserved modes themselves. -/
def Obligations.ReservedWidthRefused : Prop :=
  ∀ s : State,
    (4 < s.nsw.toNat → s.busy = false → s.lenWritten = true → s.nswWritten = true →
      exec .start s = .refused .reservedNsw) ∧
    (4 < s.nsw.toNat → exec .parsenals s = .refused .reservedNsw) ∧
    exec .nswReserved5 s = .refused .reservedNsw ∧ exec .nswReserved6 s = .refused .reservedNsw ∧
    exec .nswReserved7 s = .refused .reservedNsw

/-- 30_encoding.md R112: a write of 1 to `CTRL` bit 0 runs `START`, a write of 0 is a no-op; the other bits of `CTRL` are
ignored (10_state.md R21). -/
def Obligations.CtrlWriteIsTheCommand : Prop :=
  ∀ (s : State) (v : BitVec 32) (rest : List HostAct), s.host = .write 0 v :: rest →
    (v.getLsbD 0 = true → step s = exec .start { s with host := rest }) ∧
    (v.getLsbD 0 = false → step s = .next { s with host := rest })

/-- 10_state.md R21, 20_memory.md R60, 70_reset_and_hazards.md R273: what the host's writes do between calls; a write to a
read-only register is ignored at any time. -/
def Obligations.HostSetUpWrites : Prop :=
  ∀ (s : State) (rest : List HostAct),
    (∀ v, s.busy = false → s.host = .write 2 v :: rest →
      step s = .next { s with host := rest, len := v, lenWritten := true }) ∧
    (∀ v, s.busy = false → s.host = .write 3 v :: rest →
      step s = .next { s with host := rest, nsw := v.setWidth 3, nswWritten := true }) ∧
    (∀ off b, s.busy = false → s.host = .writeBuf off b :: rest →
      ∃ t, step s = .next t ∧ t = { s with host := rest, buf := t.buf } ∧
        ∀ a, t.buf.read? a = if a = off.toNat then some b else s.buf.read? a) ∧
    ∀ reg v, (reg = 1 ∨ 4 ≤ reg ∧ reg ≤ 14) → s.host = .write reg v :: rest → step s = .next { s with host := rest }

/-- 60_exceptions.md R260, 70_reset_and_hazards.md R280, R282: a `START` before `LEN` and `NSW` were ever written; what the host
may not do during a call; what it may not read while `VALID = 0`. -/
def Obligations.HostHazardsRefused : Prop :=
  ∀ (s : State) (rest : List HostAct),
    (s.busy = false → (s.lenWritten = false ∨ s.nswWritten = false) →
      exec .start s = .refused .startBeforeSetup) ∧
    (∀ reg v, s.busy = true → (reg = 2 ∨ reg = 3) → s.host = .write reg v :: rest →
      step s = .refused .hostWriteWhileBusy) ∧
    (∀ off b, s.busy = true → s.host = .writeBuf off b :: rest → step s = .refused .hostWriteWhileBusy) ∧
    (∀ reg, s.busy = true → reg ≤ 14 → reg ≠ 1 → s.host = .read reg :: rest →
      step s = .refused .hostReadWhileBusy) ∧
    ∀ reg, s.busy = false → s.valid = false → 5 ≤ reg → reg ≤ 9 → s.host = .read reg :: rest →
      step s = .refused .hostReadInvalid

/-- 10_state.md R21: what the host reads between calls, bits above a register's width 0, `CTRL` 0; and 70_reset_and_hazards.md
R282: during a call the bits `BUSY` and `DONE` of `STATUS`, whatever the free value of its other bits is (log entry 9).  That
the registers read so also with `DONE = 0`, before any call, is the model's choice (log entry 24). -/
def Obligations.HostReadsRegisters : Prop :=
  ∀ (s : State) (rest : List HostAct),
    (∀ p ∈ [(0, 0#32), (1, s.status.setWidth 32), (2, s.len), (3, s.nsw.setWidth 32),
        (4, if s.valid = true then 1#32 else 0#32), (5, s.profile.setWidth 32), (6, s.rextProfile.setWidth 32),
        (7, s.level.setWidth 32), (8, s.chromaFormat.setWidth 32), (9, s.bitDepth.setWidth 32), (10, s.nalCount),
        (11, s.spsSeen), (12, s.spsOk), (13, s.lastErr.setWidth 32), (14, s.errOff)],
      s.busy = false → (5 ≤ p.1 → p.1 ≤ 9 → s.valid = true) → s.host = .read p.1 :: rest →
      step s = .next { s with host := rest, hostData := p.2 }) ∧
    (s.busy = true → s.host = .read 1 :: rest →
      ∃ t, step s = .next t ∧ t = { s with host := rest, hostData := t.hostData, free := s.free + 1 } ∧
        t.hostData.getLsbD 0 = s.busy ∧ t.hostData.getLsbD 1 = s.done ∧
        ∀ j, (3 ≤ j ∧ j ≤ 7 ∨ 13 ≤ j) → t.hostData.getLsbD j = false)

/-! ## The scanner -/

/-- 41_nal_scanner.md R168. -/
def Obligations.EndcallClosesCall : Prop :=
  ∀ s : State, ∃ t, exec .endcall s = .next t ∧ t = { s with status := t.status, phase := .idle } ∧
    t.busy = false ∧ t.done = true ∧ (t.ok = true ↔ 0 < s.spsOk.toNat) ∧
    ∀ j, 3 ≤ j → j < 13 → t.status.getLsbD j = s.status.getLsbD j

/-- 41_nal_scanner.md R162, R163: the head of the loop with a field of `w` bytes. -/
def Obligations.ScanPrefixedHead : Prop :=
  ∀ (s : State) (i : Instr) (w : Nat),
    (i = .scanLp1 ∧ w = 1 ∨ i = .scanLp2 ∧ w = 2 ∨ i = .scanLp3 ∧ w = 3 ∨ i = .scanLp4 ∧ w = 4) →
    (s.len.toNat ≤ s.off.toNat → exec i s = .next { s with phase := .endcall }) ∧
    (s.off.toNat < s.len.toNat → s.len.toNat < s.off.toNat + w →
      ∃ t, s.Recorded t 10 3 (BitVec.ofNat 32 s.off.toNat) ∧ exec i s = .next { t with phase := .endcall }) ∧
    (s.off.toNat < s.len.toNat → s.off.toNat + w ≤ s.len.toNat → exec i s = .next { s with phase := .lpField })

/-- 41_nal_scanner.md R162, R163, 60_exceptions.md R243: a length field of `w` bytes holding `n`, without
wrap (R163 is derived in the spec from R162). -/
def Obligations.LengthPrefixBoundsUnit : Prop :=
  ∀ (s : State) (i : Instr) (w n : Nat),
    ((∃ v, i = .lp1 v ∧ w = 1 ∧ n = v.toNat) ∨ (∃ v, i = .lp2 v ∧ w = 2 ∧ n = v.toNat) ∨
      (∃ v, i = .lp3 v ∧ w = 3 ∧ n = v.toNat) ∨ ∃ v, i = .lp4 v ∧ w = 4 ∧ n = v.toNat) →
    (s.len.toNat < s.off.toNat + w + n →
      ∃ t, s.Recorded t 10 3 (BitVec.ofNat 32 s.off.toNat) ∧ exec i s = .next { t with phase := .endcall }) ∧
    (s.off.toNat + w + n ≤ s.len.toNat →
      exec i s = .next
        { s with nalOff := BitVec.ofNat 32 (s.off.toNat + w), nalLen := BitVec.ofNat 32 n, phase := .nalunit })

/-- 41_nal_scanner.md R164: the head of the loop in start-code mode, in a buffer the host has filled. -/
def Obligations.ScanStartCodeHead : Prop :=
  ∀ s : State, s.BufWritten →
    ((∀ k, s.off.toNat ≤ k → ¬ s.IsStartCode k) → exec .scanSc s = .next { s with phase := .endcall }) ∧
    (∀ i, s.FirstStartCode s.off.toNat i → (∀ k, i + 3 ≤ k → ¬ s.IsStartCode k) →
      exec .scanSc s = .next
        { s with
          off := BitVec.ofNat 33 (i + 3)
          nalOff := BitVec.ofNat 32 (i + 3)
          nalLen := BitVec.ofNat 32 (s.len.toNat - (i + 3))
          phase := .nalunit }) ∧
    ∀ i j, s.FirstStartCode s.off.toNat i → s.FirstStartCode (i + 3) j →
      exec .scanSc s = .next { s with off := BitVec.ofNat 33 (i + 3), phase := .delim }

/-- 41_nal_scanner.md R164, 30_encoding.md R91, R92: a start code ends the NAL unit that begins at `OFF`; the leading zero of
a 4-byte one is taken from the unit.  The last clause is the MODEL'S CHOICE for states no run reaches (log entry 19): `SC3` and
`SC4` executed with no start code ahead close the unit at the end of the buffer. -/
def Obligations.StartCodeEndsUnit : Prop :=
  ∀ s : State, s.BufWritten →
    (∀ j, s.FirstStartCode s.off.toNat j →
      exec .sc3 s = .next
        { s with
          nalOff := BitVec.ofNat 32 s.off.toNat
          nalLen := BitVec.ofNat 32 (j - s.off.toNat)
          phase := .nalunit } ∧
      exec .sc4 s = .next
        { s with
          nalOff := BitVec.ofNat 32 s.off.toNat
          nalLen := BitVec.ofNat 32 (j - 1 - s.off.toNat)
          phase := .nalunit }) ∧
    ((∀ k, s.off.toNat ≤ k → ¬ s.IsStartCode k) → ∀ i ∈ [Instr.sc3, Instr.sc4],
      exec i s = .next
        { s with
          nalOff := BitVec.ofNat 32 s.off.toNat
          nalLen := BitVec.ofNat 32 (s.len.toNat - s.off.toNat)
          phase := .nalunit })

/-- 41_nal_scanner.md R165 (that file derives it from the source's scan): `find_sc` is the least offset at which a start code
stands, `none` when there is none. -/
def Obligations.FindScIsLeast : Prop :=
  ∀ s : State, s.BufWritten → ∀ from_ : Nat,
    (∀ j, s.findSc from_ = .ok (some j) ↔ s.FirstStartCode from_ j) ∧
    (s.findSc from_ = .ok none ↔ ∀ k, from_ ≤ k → ¬ s.IsStartCode k) ∧
    (s.len.toNat < 3 ∨ s.len.toNat - 3 < from_ → s.findSc from_ = .ok none)

/-- 41_nal_scanner.md R166, R167, 30_encoding.md R97, R109: every NAL unit is counted; its type is kept, the nine other header
bits change nothing; one that is no SPS is skipped without error, an SPS goes to `EPBREMOVE` (`epbI` and `epbK` are `i` and
`k` of R190). -/
def Obligations.UnitCountedAndDispatched : Prop :=
  ∀ s : State,
    exec .nalunit s = .next { s with nalCount := s.nalCount + 1, phase := .header } ∧
    (∀ ignored, exec (.nalSps ignored) s = .next { s with nalType := s.cfg.spsNut, phase := .dispatch }) ∧
    (∀ ty ignored, exec (.nalOther ty ignored) s = .next { s with nalType := ty, phase := .dispatch }) ∧
    (s.nalType ≠ s.cfg.spsNut → ∃ t, s.ScanGoesOn t ∧ exec .dispatch s = .next t) ∧
    (s.nalType = s.cfg.spsNut →
      exec .dispatch s = .next { s with spsSeen := s.spsSeen + 1, epbI := 0, epbK := 0, phase := .epb })

/-- 41_nal_scanner.md R166, 60_exceptions.md R244, R248: a NAL unit with the forbidden bit set, or without a header, is
skipped. -/
def Obligations.MalformedUnitSkipped : Prop :=
  ∀ (s : State) (i : Instr), (i = .nalShort ∨ ∃ rest, i = .nalMalformed rest) →
    ∃ u t, s.Recorded u 11 4 s.nalOff ∧ u.ScanGoesOn t ∧ exec i s = .next t

/-! ## Emulation prevention -/

/-- 42_epb_removal.md R190: one iteration of the loop, and the line after it. -/
def Obligations.EpbLoopIteration : Prop :=
  ∀ s : State,
    exec .epb s = .next { s with epbI := s.epbI + 1, phase := .epb } ∧
    (∀ b, s.epbI.toNat < s.nalLen.toNat - 2 → s.nalOff.toNat + 2 + s.epbI.toNat < s.len.toNat →
      s.buf.read? (s.nalOff.toNat + 2 + s.epbI.toNat) = some b →
      ∃ t, exec .epbremove s = .next t ∧
        t = { s with scr := t.scr, epbI := s.epbI + 1, epbK := s.epbK + 1, phase := .epb } ∧
        ∀ a, t.scr.read? a = if a = s.epbK.toNat then some b else s.scr.read? a) ∧
    (s.nalLen.toNat - 2 ≤ s.epbI.toNat →
      exec .epbremove s = .next { s with scrLen := s.epbK, phase := .parsesps })

/-- 42_epb_removal.md R190, R194: from its entry, `m + 1` steps of the engine leave in `SCR` the payload without its
emulation-prevention bytes, and change nothing else but the loop's own counters.  That the loop takes `m + 1` steps is this
model's cutting into steps (log entry 2), and the counters are its fields (log entry 1). -/
def Obligations.EpbremoveRefinesRule : Prop :=
  ∀ (s : State) (payload : List Byte), s.host = [] → s.phase = .epb → s.epbI = 0 → s.epbK = 0 →
    s.bufBytes (s.nalLen.toNat - 2) (s.nalOff.toNat + 2) = .ok payload →
    ∃ t, Sys2Proof.core.run (payload.length + 1) s = .next t ∧
      t = { s with scr := t.scr, scrLen := t.scrLen, epbI := t.epbI, epbK := t.epbK, phase := .parsesps } ∧
      t.scrLen.toNat = (keptBytes payload).length ∧
      (∀ j (h : j < (keptBytes payload).length), t.scr.read? j = some (keptBytes payload)[j]) ∧
      ∀ a, (keptBytes payload).length ≤ a → t.scr.read? a = s.scr.read? a

/-- 42_epb_removal.md R191 (derived there from R190): the streaming form computes the same function, so `00 00 03 03` gives
`00 00 03`. -/
def Obligations.StreamingRemovalAgrees : Prop :=
  (∀ payload : List Byte, keptBytes payload = streamKept 0 payload) ∧
    keptBytes [0x00, 0x00, 0x03, 0x03] = [0x00, 0x00, 0x03]

/-- 42_epb_removal.md R194: `SCR_LEN <= m` after every `EPBREMOVE`, and `SCR_LEN = m`, with the payload itself in `SCR`, when the
payload has no `00 00 03`.  The number of steps is this model's (log entry 2), the counters are its fields (log entry 1). -/
def Obligations.RemovalNeverGrows : Prop :=
  ∀ (s : State) (payload : List Byte), s.host = [] → s.phase = .epb → s.epbI = 0 → s.epbK = 0 →
    s.bufBytes (s.nalLen.toNat - 2) (s.nalOff.toNat + 2) = .ok payload →
    ∃ t, Sys2Proof.core.run (payload.length + 1) s = .next t ∧ t.phase = .parsesps ∧
      t.scrLen.toNat ≤ payload.length ∧
      ((∀ i : Nat, ¬ (payload[i]? = some 0x00 ∧ payload[i + 1]? = some 0x00 ∧ payload[i + 2]? = some 0x03)) →
        t.scrLen.toNat = payload.length ∧
          ∀ j (h : j < payload.length), t.scr.read? j = some payload[j])

/-! ## The SPS decoder -/

/-- 43_sps_decoder.md R200: the entry; nothing else is written. -/
def Obligations.ParsespsEntry : Prop :=
  ∀ s : State, exec .parsesps s = .next
    { s with
      valid := false
      view := { base := 0, len := s.scrLen }
      pos := 0
      total := BitVec.ofNat 36 (8 * s.scrLen.toNat)
      phase := .sps .videoParameterSetId }

/-- 43_sps_decoder.md R201, R203, R204, R206, R207, R222: read and discarded, whatever the value. -/
def Obligations.DiscardedFieldsAdvance : Prop :=
  ∀ (s : State) (i : Instr) (n : Nat) (next : SpsElem),
    ((∃ v, i = .spsVideoParameterSetId v ∧ n = 4 ∧ next = .maxSubLayersMinus1) ∨
      (∃ v, i = .spsTemporalIdNestingFlag v ∧ n = 1 ∧ next = .generalProfileSpace) ∨
      (∃ v, i = .spsGeneralProfileSpace v ∧ n = 2 ∧ next = .generalTierFlag) ∨
      (∃ v, i = .spsGeneralTierFlag v ∧ n = 1 ∧ next = .generalProfileIdc) ∨
      (∃ v, i = .spsGeneralCompatibilityFlags v ∧ n = 32 ∧ next = .generalSourceFlags) ∨
      (∃ v, i = .spsGeneralSourceFlags v ∧ n = 4 ∧ next = .generalConstraintBlock) ∨
      ∃ v, i = .spsSeparateColourPlaneFlag v ∧ n = 1 ∧ next = .picWidth) →
    n ≤ s.remain →
    exec i s = .next { s with pos := BitVec.ofNat 36 (s.pos.toNat + n), phase := .sps next }

/-- 43_sps_decoder.md R202, R205, R208, R209, R210: kept in a working register, every value accepted; `REXT_MAP` stays
open. -/
def Obligations.KeptFieldsStaged : Prop :=
  ∀ s : State,
    (∀ v, 3 ≤ s.remain → exec (.spsMaxSubLayersMinus1 v) s = .next
      { s with pos := BitVec.ofNat 36 (s.pos.toNat + 3), nSub := v, phase := .sps .temporalIdNestingFlag }) ∧
    (∀ v, 5 ≤ s.remain → exec (.spsGeneralProfileIdc v) s = .next
      { s with pos := BitVec.ofNat 36 (s.pos.toNat + 5), tProfile := v, phase := .sps .generalCompatibilityFlags }) ∧
    (∀ v, 44 ≤ s.remain → exec (.spsGeneralConstraintBlock v) s = .next
      { s with
        pos := BitVec.ofNat 36 (s.pos.toNat + 44)
        c44 := v
        tRext := if s.tProfile = s.cfg.rextIdc then Config.rextMap v else 0
        phase := .sps .generalLevelIdc }) ∧
    ∀ v, 8 ≤ s.remain → exec (.spsGeneralLevelIdc v) s = .next
      { s with
        pos := BitVec.ofNat 36 (s.pos.toNat + 8)
        tLevel := v
        subI := 0
        phase := if s.nSub = 0 then .sps .seqParameterSetId else .sps .subLayerPresentFlags }

/-- 43_sps_decoder.md R211, R212, R213: one pair of present flags, one padding field, and the skipped data of sub-layer `i`;
`subI` is `i` of those rules. -/
def Obligations.SubLayerElements : Prop :=
  ∀ s : State,
    (2 ≤ s.remain → ∀ p l, ∃ u t : State, exec (.spsSubLayerPresentFlags p l) s = .next t ∧
      u = { s with pos := BitVec.ofNat 36 (s.pos.toNat + 2), pp := u.pp, lp := u.lp } ∧
      (∀ k < 7, u.pp.getLsbD k = if k = s.subI.toNat then decide (p = 1) else s.pp.getLsbD k) ∧
      (∀ k < 7, u.lp.getLsbD k = if k = s.subI.toNat then decide (l = 1) else s.lp.getLsbD k) ∧
      (s.subI.toNat + 1 < s.nSub.toNat →
        t = { u with subI := BitVec.ofNat 4 (s.subI.toNat + 1), phase := .sps .subLayerPresentFlags }) ∧
      (s.nSub.toNat ≤ s.subI.toNat + 1 → s.cfg.ptlPad = .hevc →
        t = { u with subI := BitVec.ofNat 4 s.nSub.toNat, phase := .sps .subLayerPadding }) ∧
      (s.nSub.toNat ≤ s.subI.toNat + 1 → s.cfg.ptlPad = .none → u.AtSubLayer t 0)) ∧
    (2 ≤ s.remain → ∀ v,
      (s.subI.toNat < 7 → exec (.spsSubLayerPadding v) s = .next
        { s with
          pos := BitVec.ofNat 36 (s.pos.toNat + 2)
          subI := BitVec.ofNat 4 (s.subI.toNat + 1)
          phase := .sps .subLayerPadding }) ∧
      (7 ≤ s.subI.toNat → ∃ t, exec (.spsSubLayerPadding v) s = .next t ∧
        State.AtSubLayer { s with pos := BitVec.ofNat 36 (s.pos.toNat + 2) } t 0)) ∧
    (88 ≤ s.remain → ∀ v,
      (s.lp.getLsbD s.subI.toNat = true → exec (.spsSubLayerProfile v) s = .next
        { s with pos := BitVec.ofNat 36 (s.pos.toNat + 88), phase := .sps .subLayerLevelIdc }) ∧
      (s.lp.getLsbD s.subI.toNat = false → ∃ t, exec (.spsSubLayerProfile v) s = .next t ∧
        State.AtSubLayer { s with pos := BitVec.ofNat 36 (s.pos.toNat + 88) } t (s.subI.toNat + 1))) ∧
    (8 ≤ s.remain → ∀ v, ∃ t, exec (.spsSubLayerLevelIdc v) s = .next t ∧
      State.AtSubLayer { s with pos := BitVec.ofNat 36 (s.pos.toNat + 8) } t (s.subI.toNat + 1))

/-- 43_sps_decoder.md R220, R223, R224, R225, R226: decoded and discarded; the window flag gates the four offsets. -/
def Obligations.DiscardedCodesAdvance : Prop :=
  ∀ s : State,
    (∀ c : UeCode, 2 * c.k.toNat + 1 ≤ s.remain →
      exec (.spsSeqParameterSetId c) s = .next
        { s with pos := BitVec.ofNat 36 (s.pos.toNat + (2 * c.k.toNat + 1)), phase := .sps .chromaFormatIdc } ∧
      exec (.spsPicWidth c) s = .next
        { s with pos := BitVec.ofNat 36 (s.pos.toNat + (2 * c.k.toNat + 1)), phase := .sps .picHeight } ∧
      exec (.spsPicHeight c) s = .next
        { s with pos := BitVec.ofNat 36 (s.pos.toNat + (2 * c.k.toNat + 1)), phase := .sps .conformanceWindowFlag }) ∧
    (∀ v : BitVec 1, 1 ≤ s.remain →
      exec (.spsConformanceWindowFlag v) s = .next
        { s with
          pos := BitVec.ofNat 36 (s.pos.toNat + 1)
          phase := if v = 1 then .sps .conformanceWindowOffsets else .sps .bitDepthLuma }) ∧
    ∀ c1 c2 c3 c4 : UeCode, ∀ n,
      n = (2 * c1.k.toNat + 1) + (2 * c2.k.toNat + 1) + (2 * c3.k.toNat + 1) + (2 * c4.k.toNat + 1) → n ≤ s.remain →
      exec (.spsConformanceWindowOffsets c1 c2 c3 c4) s = .next
        { s with pos := BitVec.ofNat 36 (s.pos.toNat + n), phase := .sps .bitDepthLuma }

/-- 43_sps_decoder.md R221, R228, 60_exceptions.md R245: `chroma_format_idc` and `bit_depth_luma_minus8`, with their range
checks. -/
def Obligations.RangeCheckedFieldsStaged : Prop :=
  ∀ (s u : State) (c : UeCode) (v : Nat), v = 2 ^ c.k.toNat - 1 + c.s.toNat → 2 * c.k.toNat + 1 ≤ s.remain →
    u = { s with pos := BitVec.ofNat 36 (s.pos.toNat + (2 * c.k.toNat + 1)) } →
    (v ≤ 3 → exec (.spsChromaFormatIdc c) s = .next
      { u with
        tChroma := BitVec.ofNat 2 v
        phase := if v = 3 then .sps .separateColourPlaneFlag else .sps .picWidth }) ∧
    (4 ≤ v → ∃ r t, u.Recorded r 12 5 s.nalOff ∧ r.ScanGoesOn t ∧ exec (.spsChromaFormatIdc c) s = .next t) ∧
    (v ≤ 8 → exec (.spsBitDepthLuma c) s = .next
      { u with tDepth := BitVec.ofNat 5 (v + 8), phase := .sps .bitDepthChroma }) ∧
    (9 ≤ v → ∃ r t, u.Recorded r 12 5 s.nalOff ∧ r.ScanGoesOn t ∧ exec (.spsBitDepthLuma c) s = .next t)

/-- 43_sps_decoder.md R229, R231, 41_nal_scanner.md R167: the last element commits the record, whatever its value. -/
def Obligations.CommitWritesRecord : Prop :=
  ∀ (s : State) (c : UeCode), 2 * c.k.toNat + 1 ≤ s.remain →
    ∃ t, exec (.spsBitDepthChroma c) s = .next t ∧
      State.ScanGoesOn
        { s with
          pos := BitVec.ofNat 36 (s.pos.toNat + (2 * c.k.toNat + 1))
          profile := s.tProfile
          rextProfile := s.tRext
          level := s.tLevel
          chromaFormat := s.tChroma
          bitDepth := s.tDepth
          valid := true
          spsOk := s.spsOk + 1 } t

/-- 43_sps_decoder.md R230, 60_exceptions.md R241, R249: an element with fewer bits left than its code has is
`BitstreamExhausted`.  Its requests before the failing one have had their effect (the cursor is past them, and the first of
the two flags of R211 is in `PP[i]`); the failing one and those after it have had none, and nothing else is changed but the
error's registers and the place.  That an element is one step is the model's choice (log entry 14). -/
def Obligations.ShortElementAborts : Prop :=
  ∀ (s : State) (i : Instr) (e : SpsElem), i.fmt = .sps e → s.remain < (encode s.cfg i).length →
    ∃ (done : List Nat) (w : Nat) (later : List Nat) (v t : State), requests s.cfg i = done ++ w :: later ∧
      done.sum ≤ s.remain ∧ s.remain < done.sum + w ∧
      v = { s with pos := BitVec.ofNat 36 (s.pos.toNat + done.sum), pp := v.pp } ∧
      (done = [] ∨ e ≠ .subLayerPresentFlags → v.pp = s.pp) ∧
      (∀ p l, done ≠ [] → i = .spsSubLayerPresentFlags p l → ∀ k < 7,
        v.pp.getLsbD k = if k = s.subI.toNat then decide (p = 1) else s.pp.getLsbD k) ∧
      v.AbortedTo t 8 1 ∧ exec i s = .next t

/-! ## The bit reader

The requests and codes below are those of a reader used on its own, with a view and a cursor of its own (log entry 12). -/

/-- 40_bitreader.md R131, R132: the value, the failure and the domain of `READBITS n`; `READFLAG` is `READBITS 1`. -/
def Obligations.ReadbitsReadsField : Prop :=
  ∀ s : State,
    (∀ bs : Bits, 1 ≤ bs.length → bs.length ≤ 32 → s.ReaderAt bs →
      exec (.readbits (BitVec.ofNat 36 bs.length)) s = .next
        { s with
          reader := { s.reader with pos := BitVec.ofNat 36 (s.reader.pos.toNat + bs.length) }
          reply := .value (BitVec.ofNat 33 (natOfBits bs)) }) ∧
    (∀ n : BitVec 36, 1 ≤ n.toNat → n.toNat ≤ 32 → s.reader.remain < n.toNat →
      exec (.readbits n) s = .next { s with reply := .error .bitstreamExhausted }) ∧
    (∀ n : BitVec 36, n.toNat = 0 ∨ 32 < n.toNat → exec (.readbits n) s = .refused .readBitsRange) ∧
    (∀ (n : BitVec 36) (b : Bool), s.ReaderAt [b] →
      exec (.readflag n) s = .next
        { s with
          reader := { s.reader with pos := BitVec.ofNat 36 (s.reader.pos.toNat + 1) }
          reply := .value (if b = true then 1 else 0) }) ∧
    ∀ n : BitVec 36, s.reader.remain = 0 → exec (.readflag n) s = .next { s with reply := .error .bitstreamExhausted }

/-- 40_bitreader.md R133, R134, R135: a code at the cursor is read exactly, in 33 bits, and `POS` advances by `2k + 1`. -/
def Obligations.ReadueReadsCode : Prop :=
  ∀ (s : State) (n : BitVec 36) (c : UeCode), c.wf = true → s.ReaderAt c.bits →
    exec (.readue n) s = .next
      { s with
        reader := { s.reader with pos := BitVec.ofNat 36 (s.reader.pos.toNat + (2 * c.k.toNat + 1)) }
        reply := .value (BitVec.ofNat 33 (2 ^ c.k.toNat - 1 + c.s.toNat)) } ∧
    exec (.readse n) s = .next
      { s with
        reader := { s.reader with pos := BitVec.ofNat 36 (s.reader.pos.toNat + (2 * c.k.toNat + 1)) }
        reply := .value (BitVec.ofInt 33
          (if (2 ^ c.k.toNat - 1 + c.s.toNat) % 2 = 1 then (((2 ^ c.k.toNat - 1 + c.s.toNat) + 1) / 2 : Nat)
            else -(((2 ^ c.k.toNat - 1 + c.s.toNat) / 2 : Nat) : Int))) }

/-- 40_bitreader.md R133, R138, 60_exceptions.md R241, R242, R250: the errors of `READUE` and `READSE`, whichever is met
first bit by bit, and the cursor as it was. -/
def Obligations.ReadueErrorsInOrder : Prop :=
  ∀ (s : State) (n : BitVec 36), ∀ i ∈ [Instr.readue n, Instr.readse n],
    (∀ z ≤ 32, s.reader.bits = List.replicate z false →
      exec i s = .next { s with reply := .error .bitstreamExhausted }) ∧
    (s.ReaderAt (List.replicate 33 false) → exec i s = .next { s with reply := .error .malformedCode }) ∧
    ∀ z ≤ 32, ∀ w : Bits, w.length < z → s.reader.bits = List.replicate z false ++ true :: w →
      exec i s = .next { s with reply := .error .bitstreamExhausted }

/-- 40_bitreader.md R130, R136, R137, 30_encoding.md R111: `BR.INIT`, `SKIPBITS` and `BYTEALIGN`; `N` counts for `SKIPBITS`
alone; `OP = 7` is reserved and refused. -/
def Obligations.CursorRequests : Prop :=
  ∀ (s : State) (n : BitVec 36),
    (∃ t, exec (.brInit n) s = .next t ∧ t = { s with reader := t.reader, reply := .done } ∧
      t.reader.view = s.viewArg ∧ t.reader.pos = 0 ∧
      (s.viewArg.length < 2 ^ 32 → t.reader.total.toNat = 8 * s.viewArg.length)) ∧
    (n.toNat ≤ s.reader.remain → exec (.skipbits n) s = .next
      { s with
        reader := { s.reader with pos := BitVec.ofNat 36 (s.reader.pos.toNat + n.toNat) }
        reply := .done }) ∧
    (s.reader.remain < n.toNat → exec (.skipbits n) s = .next { s with reply := .error .bitstreamExhausted }) ∧
    exec (.bytealign n) s = .next
      { s with
        reader := { s.reader with pos := BitVec.ofNat 36 (8 * ((s.reader.pos.toNat + 7) / 8)) }
        reply := .done } ∧
    exec (.brReserved n) s = .refused .reservedOp

/-- 30_encoding.md R100, R103, R104, R114: the codes by name, found at the cursor. -/
def Obligations.CodesAtCursor : Prop :=
  ∀ s : State,
    (∀ (n : BitVec 6) (v : BitVec 32), 1 ≤ n.toNat → n.toNat ≤ 32 → n.toNat ≤ s.reader.remain →
      exec (.u n v) s = .next
        { s with
          reader := { s.reader with pos := BitVec.ofNat 36 (s.reader.pos.toNat + n.toNat) }
          reply := .value (v.setWidth 33) }) ∧
    (∀ (n : BitVec 6) (v : BitVec 32), n.toNat = 0 ∨ 32 < n.toNat → exec (.u n v) s = .refused .readBitsRange) ∧
    ∀ c : UeCode, 2 * c.k.toNat + 1 ≤ s.reader.remain →
      exec (.ue c) s = .next
        { s with
          reader := { s.reader with pos := BitVec.ofNat 36 (s.reader.pos.toNat + (2 * c.k.toNat + 1)) }
          reply := .value (BitVec.ofNat 33 (2 ^ c.k.toNat - 1 + c.s.toNat)) } ∧
      exec (.se c) s = .next
        { s with
          reader := { s.reader with pos := BitVec.ofNat 36 (s.reader.pos.toNat + (2 * c.k.toNat + 1)) }
          reply := .value (BitVec.ofInt 33 (seValue (2 ^ c.k.toNat - 1 + c.s.toNat))) }

/-- 40_bitreader.md R138: a request or a code that raises an error changes nothing but the reply. -/
def Obligations.FailureIsAtomic : Prop :=
  ∀ (s t : State) (i : Instr) (e : Err),
    (i.fmt = .br ∨ i.fmt = .ue ∨ i.fmt = .se ∨ ∃ n, i.fmt = .u n) →
    exec i s = .next t → t.reply = .error e → t = { s with reply := .error e }

/-- 40_bitreader.md R139, 20_memory.md R61: the answer and the new cursor of every operation depend on the old cursor, its
bytes and the bytes to bind alone, whatever the NALP instance holds, and nothing of the instance is written; the bytes are bound
by `BR.INIT` alone. -/
def Obligations.ReaderIsPure : Prop :=
  ∀ (s s' t : State) (i : Instr), (i.fmt = .br ∨ i.fmt = .ue ∨ i.fmt = .se ∨ ∃ n, i.fmt = .u n) →
    s'.reader = s.reader → s'.viewArg = s.viewArg → exec i s = .next t →
    t = { s with reader := t.reader, reply := t.reply } ∧
      ((∀ n, i ≠ .brInit n) → t.reader.view = s.reader.view) ∧
      exec i s' = .next { s' with reader := t.reader, reply := t.reply }

/-- 40_bitreader.md R140 (d), a law that file derives: two fields read one after the other are one field. -/
def Obligations.ReadbitsConcatenate : Prop :=
  ∀ (s t u : State) (a b : BitVec 36) (hi lo : BitVec 33), 1 ≤ a.toNat → 1 ≤ b.toNat → a.toNat + b.toNat ≤ 32 →
    exec (.readbits a) s = .next t → t.reply = .value hi →
    exec (.readbits b) t = .next u → u.reply = .value lo →
    exec (.readbits (a + b)) s = .next
      { s with reader := u.reader, reply := .value (BitVec.ofNat 33 (hi.toNat * 2 ^ b.toNat + lo.toNat)) }

/-! ## Encodings -/

/-- 40_bitreader.md R141: what the encoder writes, `READUE` and `READSE` read back.  The encoder is the scheme that rule spells
out as its own reading of the source. -/
def Obligations.GolombRoundTrip : Prop :=
  ueEncode 0 = [true] ∧
    ∀ (s : State) (n : BitVec 36),
      (∀ v ≤ 65535, s.ReaderAt (ueEncode v) →
        exec (.readue n) s = .next
          { s with
            reader := { s.reader with pos := BitVec.ofNat 36 (s.reader.pos.toNat + (ueEncode v).length) }
            reply := .value (BitVec.ofNat 33 v) }) ∧
      ∀ v : Int, -1000 ≤ v → v ≤ 1000 → s.ReaderAt (seEncode v) →
        exec (.readse n) s = .next
          { s with
            reader := { s.reader with pos := BitVec.ofNat 36 (s.reader.pos.toNat + (seEncode v).length) }
            reply := .value (BitVec.ofInt 33 v) }

/-- 30_encoding.md R97: the class of a header, for every 16-bit word and every `SPS_NUT`; 20_memory.md R64: a length field is
the big-endian number of its bytes. -/
def Obligations.HeaderClassAndLengthOrder : Prop :=
  ∀ c : Cfg,
    (∀ (h : BitVec 16) (rest : Bits),
      (h.getLsbD 15 = true →
        decode c .nh (bitsOfBv h ++ rest) = .ok (.nalMalformed (h.extractLsb' 0 15), rest)) ∧
      (h.getLsbD 15 = false → h.extractLsb' 9 6 = c.spsNut →
        decode c .nh (bitsOfBv h ++ rest) = .ok (.nalSps (h.extractLsb' 0 9), rest)) ∧
      (h.getLsbD 15 = false → h.extractLsb' 9 6 ≠ c.spsNut →
        decode c .nh (bitsOfBv h ++ rest) = .ok (.nalOther (h.extractLsb' 9 6) (h.extractLsb' 0 9), rest))) ∧
    ∀ bs : List Byte,
      (bs.length = 1 → decode c (.lp 1) (bitsOfBytes bs) = .ok (.lp1 (BitVec.ofNat 8 (bigEndian bs)), [])) ∧
      (bs.length = 2 → decode c (.lp 2) (bitsOfBytes bs) = .ok (.lp2 (BitVec.ofNat 16 (bigEndian bs)), [])) ∧
      (bs.length = 3 → decode c (.lp 3) (bitsOfBytes bs) = .ok (.lp3 (BitVec.ofNat 24 (bigEndian bs)), [])) ∧
      (bs.length = 4 → decode c (.lp 4) (bitsOfBytes bs) = .ok (.lp4 (BitVec.ofNat 32 (bigEndian bs)), []))

/-- Words written out from 30_encoding.md R91, R92, R97, R99, R101, R105 and R111, one of each kind. -/
def Obligations.WordsDecode : Prop :=
  decode Cfg.nalp .sc (bitsOfBytes [0x00, 0x00, 0x01]) = .ok (.sc3, []) ∧
    decode Cfg.nalp .sc (bitsOfBytes [0x00, 0x00, 0x00, 0x01]) = .ok (.sc4, []) ∧
    decode Cfg.nalp .nh (bitsOfBytes [0x42, 0x01]) = .ok (.nalSps 1, []) ∧
    decode Cfg.nalp .nh (bitsOfBytes [0xC2, 0x01]) = .ok (.nalMalformed 0x4201, []) ∧
    decode Cfg.nalp .epb (bitsOfBytes [0x00, 0x00, 0x03]) = .ok (.epb, []) ∧
    decode Cfg.nalp .ue [false, false, true, false, true] = .ok (.ue { k := 2, s := 1 }, []) ∧
    decode Cfg.nalp (.sps .generalProfileIdc) [false, false, false, false, true] = .ok (.spsGeneralProfileIdc 1, []) ∧
    decode Cfg.nalp .br (bitsOfNat 39 0x1000000005) = .ok (.readbits 5, [])

/-- 30_encoding.md R90: every well-formed instruction is read back from its own bits, whatever follows them, with every
operand.  A NAL unit without a header has no bits, and is what an empty header field reads as. -/
def Obligations.DecodeEncodeRoundTrip : Prop :=
  ∀ (c : Cfg) (i : Instr), i.wf c = true →
    (i ≠ .nalShort → ∀ rest : Bits, decode c i.fmt (encode c i ++ rest) = .ok (i, rest)) ∧
    (i = .nalShort → decode c i.fmt (encode c i) = .ok (i, []))

/-- 30_encoding.md R90, R108: whatever the decoder accepts is a well-formed instruction of the format asked for, and the bits
read are its own; so no bit of a stream structure is dropped or read twice. -/
def Obligations.DecodedBitsAreTheEncoding : Prop :=
  ∀ (c : Cfg) (f : Fmt) (bs rest : Bits) (i : Instr), decode c f bs = .ok (i, rest) →
    i.wf c = true ∧ i.fmt = f ∧ (i ≠ .nalShort → bs = encode c i ++ rest)

/-! ## A step runs the decoded instruction -/

/-- Without a host access, where the engine is at a structure of the byte stream, a step is `exec` of the instruction that
stands there (00_scope.md R3, 41_nal_scanner.md R162 to R166, 42_epb_removal.md R190). -/
def Obligations.StepRunsStreamStructure : Prop :=
  ∀ s : State, s.host = [] →
    (∀ i r, s.phase = .scan → decode s.cfg .nsw (bitsOfBv s.nsw) = .ok (i, r) → step s = exec i s) ∧
    (∀ bs i r, s.phase = .lpField → s.bufBytes s.nsw.toNat s.off.toNat = .ok bs →
      decode s.cfg (.lp s.nsw.toNat) (bitsOfBytes bs) = .ok (i, r) → step s = exec i s) ∧
    (∀ j, s.phase = .delim → s.BufWritten → s.FirstStartCode s.off.toNat j →
      (s.off.toNat < j ∧ s.buf.read? (j - 1) = some 0x00 → step s = exec .sc4 s) ∧
      (¬ (s.off.toNat < j ∧ s.buf.read? (j - 1) = some 0x00) → step s = exec .sc3 s)) ∧
    (∀ bs i r, s.phase = .header → 2 ≤ s.nalLen.toNat → s.bufBytes 2 s.nalOff.toNat = .ok bs →
      decode s.cfg .nh (bitsOfBytes bs) = .ok (i, r) → step s = exec i s) ∧
    (s.phase = .header → s.nalLen.toNat < 2 → step s = exec .nalShort s) ∧
    (∀ bs, s.phase = .epb → 2 ≤ s.epbI.toNat → s.epbI.toNat < s.nalLen.toNat - 2 →
      s.bufBytes 3 (s.nalOff.toNat + s.epbI.toNat) = .ok bs →
      (bs = [0x00, 0x00, 0x03] → step s = exec .epb s) ∧ (bs ≠ [0x00, 0x00, 0x03] → step s = exec .epbremove s)) ∧
    (s.phase = .epb → s.epbI.toNat < 2 ∨ s.nalLen.toNat - 2 ≤ s.epbI.toNat → step s = exec .epbremove s)

/-- Where the engine is about to perform an operation, a step is `exec` of it (00_scope.md R3); an idle engine does nothing of
itself (70_reset_and_hazards.md R272, 60_exceptions.md R259). -/
def Obligations.StepRunsOperation : Prop :=
  ∀ s : State, s.host = [] →
    (s.phase = .parsenals → step s = exec .parsenals s) ∧ (s.phase = .nalunit → step s = exec .nalunit s) ∧
    (s.phase = .dispatch → step s = exec .dispatch s) ∧ (s.phase = .parsesps → step s = exec .parsesps s) ∧
    (s.phase = .endcall → step s = exec .endcall s) ∧ (s.phase = .idle → step s = .next s)

/-- Where the engine is at an element of the SPS whose bits stand at the cursor, a step is `exec` of it (43_sps_decoder.md
R200). -/
def Obligations.StepRunsElement : Prop :=
  ∀ (s : State) (e : SpsElem) (i : Instr), s.host = [] → s.phase = .sps e → i.fmt = .sps e → i.wf s.cfg = true →
    s.CursorAt (encode s.cfg i) → step s = exec i s

/-- 43_sps_decoder.md R230, 41_nal_scanner.md R167, 60_exceptions.md R249: where the bits left are the start of no element, the
step records the bit reader's error with `NAL_OFF` and the scan goes on.  An element of one request leaves nothing else changed;
of the three elements of several requests (R208, R211, R226) those that succeeded have had their effect: the cursor is past them,
and the first of two flags is in `PP[i]`.  That an element is one step is the model's choice (log entry 14). -/
def Obligations.StepAbortsElement : Prop :=
  ∀ (s : State) (e : SpsElem) (bs : Bits), s.host = [] → s.phase = .sps e → s.CursorAt bs → s.remain = bs.length →
    (e ≠ .generalConstraintBlock → e ≠ .subLayerPresentFlags → e ≠ .conformanceWindowOffsets →
      (∀ m, decode s.cfg (.sps e) bs = .error (.exhausted m) → ∃ t, s.AbortedTo t 8 1 ∧ step s = .next t) ∧
      (decode s.cfg (.sps e) bs = .error .malformedCode → ∃ t, s.AbortedTo t 9 2 ∧ step s = .next t)) ∧
    (e = .generalConstraintBlock → bs.length < 44 →
      ∃ t, State.AbortedTo { s with pos := BitVec.ofNat 36 (s.pos.toNat + if bs.length < 32 then 0 else 32) } t 8 1 ∧
        step s = .next t) ∧
    (e = .subLayerPresentFlags →
      (bs = [] → ∃ t, s.AbortedTo t 8 1 ∧ step s = .next t) ∧
      ∀ p, bs = [p] → ∃ v t : State, v = { s with pos := BitVec.ofNat 36 (s.pos.toNat + 1), pp := v.pp } ∧
        (∀ k < 7, v.pp.getLsbD k = if k = s.subI.toNat then p else s.pp.getLsbD k) ∧
        v.AbortedTo t 8 1 ∧ step s = .next t) ∧
    (e = .conformanceWindowOffsets → ∀ (codes : List UeCode) (rest : Bits), codes.length < 4 →
      (∀ c ∈ codes, c.wf = true) → bs = (codes.map UeCode.bits).flatten ++ rest →
      (∀ m, decode s.cfg .ue rest = .error (.exhausted m) → ∃ t, State.AbortedTo
        { s with pos := BitVec.ofNat 36 (s.pos.toNat + (codes.map UeCode.bits).flatten.length) } t 8 1 ∧ step s = .next t) ∧
      (decode s.cfg .ue rest = .error .malformedCode → ∃ t, State.AbortedTo
        { s with pos := BitVec.ofNat 36 (s.pos.toNat + (codes.map UeCode.bits).flatten.length) } t 9 2 ∧ step s = .next t))

/-- 30_encoding.md R111, R114: a bit-reader request, by its word or by the name of a code, is `exec` of the instruction, during
a call or not: the reader used on its own is no part of the NALP instance (log entry 12).  The bytes that `BR.INIT` binds are
presented separately. -/
def Obligations.StepRunsRequest : Prop :=
  ∀ (s : State) (rest : List HostAct),
    (∀ w i r, s.host = .request w :: rest → decode s.cfg .br (bitsOfBv w) = .ok (i, r) →
      step s = exec i { s with host := rest }) ∧
    (∀ n v, s.host = .code (.u n) :: rest → (Instr.u n v).wf s.cfg = true →
      s.ReaderAt (encode s.cfg (.u n v)) → step s = exec (.u n v) { s with host := rest }) ∧
    (∀ c : UeCode, c.wf = true → s.ReaderAt c.bits →
      (s.host = .code .ue :: rest → step s = exec (.ue c) { s with host := rest }) ∧
      (s.host = .code .se :: rest → step s = exec (.se c) { s with host := rest })) ∧
    ∀ v : List Byte, s.host = .bindView v :: rest →
      (v.length < 2 ^ 32 → step s = .next { s with host := rest, viewArg := v }) ∧
      (2 ^ 32 ≤ v.length → step s = .refused .viewTooLong)

/-! ## Whole-machine rules -/

/-- What `State.Inv` says holds after reset.  Its clauses about registers that reset leaves unspecified (`POS <= TOTAL`, `TOTAL` 8
times the length of the view) hold by the MODEL'S CHOICE of 0 for them (log entry 7). -/
def Obligations.ResetMeetsInvariant : Prop := State.reset.Inv

/-- Every step keeps the invariant, the host's accesses included: the memories stay canonical, the cursor stays in its view,
`OFF` and the NAL unit in the buffer, a valid record legal, the counters bounded (10_state.md R22 to R29, 20_memory.md R62,
41_nal_scanner.md R162 to R168). -/
def Obligations.StepKeepsInvariant : Prop :=
  ∀ s t : State, s.Inv → step s = .next t → t.Inv

/-- 20_memory.md R62, 60_exceptions.md R252: over a filled buffer no step of the engine faults or is refused, so nothing
outside `BUF[0 .. LEN-1]`, `SCR[0 .. SCR_LEN-1]` or the view is ever read. -/
def Obligations.EngineNeverStops : Prop :=
  ∀ s : State, s.Inv → s.host = [] → s.BufWritten → ∃ t, step s = .next t

/-- 41_nal_scanner.md R171 (derived there), 60_exceptions.md R252: every call over a filled buffer, of any content, ends with
`DONE = 1`
within a number of steps linear in `LEN` (the number 60 is this model's: its steps are log entry 2's). -/
def Obligations.CallTerminates : Prop :=
  ∀ s : State, s.Inv → s.host = [] → s.BufWritten → s.phase = .idle → s.lenWritten = true → s.nswWritten = true →
    s.nsw.toNat ≤ 4 →
    ∃ u, exec .start s = .next u ∧ ∃ k ≤ 60 * s.len.toNat + 3, ∃ t, Sys2Proof.core.run k u = .next t ∧
      t.phase = .idle ∧ t.busy = false ∧ t.done = true ∧ (t.valid = true → t.ok = true)

/-- 10_state.md R24 (derived there): during a call `OFF` never decreases and never passes `LEN`. -/
def Obligations.OffsetOnlyIncreases : Prop :=
  ∀ s t : State, s.Inv → s.host = [] → s.phase ≠ .idle → s.phase ≠ .parsenals → step s = .next t →
    s.off.toNat ≤ t.off.toNat ∧ t.off.toNat ≤ s.len.toNat

/-- 10_state.md R30, 43_sps_decoder.md R231: no step of the engine writes a result data register, but the one that commits all
five of them and sets `VALID`. -/
def Obligations.OnlyCommitWritesResults : Prop :=
  ∀ s t : State, s.host = [] → step s = .next t →
    (t.profile = s.profile ∧ t.rextProfile = s.rextProfile ∧ t.level = s.level ∧ t.chromaFormat = s.chromaFormat ∧
      t.bitDepth = s.bitDepth ∧ (t.valid = true → s.valid = true)) ∨
    (s.phase = .sps .bitDepthChroma ∧ t.profile = s.tProfile ∧ t.rextProfile = s.tRext ∧ t.level = s.tLevel ∧
      t.chromaFormat = s.tChroma ∧ t.bitDepth = s.tDepth ∧ t.valid = true ∧ t.spsOk = s.spsOk + 1)

/-- 60_exceptions.md R255, 42_epb_removal.md R194, 70_reset_and_hazards.md R274: the engine writes no byte of `BUF`, not
`LEN`, not `NSW` and no parameter; and no byte of `SCR` outside `EPBREMOVE`. -/
def Obligations.EngineKeepsInputs : Prop :=
  ∀ s t : State, s.host = [] → step s = .next t →
    (∀ a, t.buf.read? a = s.buf.read? a) ∧ t.len = s.len ∧ t.nsw = s.nsw ∧ t.cfg = s.cfg ∧
      (s.phase ≠ .epb → ∀ a, t.scr.read? a = s.scr.read? a)

/-- 10_state.md R22: once set, a sticky bit stays set until the next `START`; the reserved bits never change. -/
def Obligations.StickyBitsStaySet : Prop :=
  ∀ s t : State, s.host = [] → s.phase ≠ .parsenals → step s = .next t →
    (∀ e : Err, s.sticky e = true → t.sticky e = true) ∧
      ∀ j, 3 ≤ j → j ≤ 7 → t.status.getLsbD j = s.status.getLsbD j

/-- 20_memory.md R62, 41_nal_scanner.md R172: what stands in `BUF` from `LEN` on changes nothing the engine does. -/
def Obligations.BytesPastLenIrrelevant : Prop :=
  ∀ (s : State) (b : Memory), s.host = [] → (∀ i < s.len.toNat, b.read? i = s.buf.read? i) →
    (∀ t, step s = .next t → step { s with buf := b } = .next { t with buf := b }) ∧
    (∀ f, step s = .fault f → step { s with buf := b } = .fault f) ∧
    ∀ r, step s = .refused r → step { s with buf := b } = .refused r

/-- 41_nal_scanner.md R174: a call that finds no NAL unit, because `LEN = 0` or, in start-code mode, because the buffer has no
start code, ends in three steps with no error.  That they are three is this model's cutting of a call into steps (log entry 2). -/
def Obligations.EmptyCallEndsClean : Prop :=
  ∀ s : State, s.host = [] → s.BufWritten → s.phase = .parsenals → s.nsw.toNat ≤ 4 →
    (s.len = 0 ∨ s.nsw = 0 ∧ ∀ k, ¬ s.IsStartCode k) →
    ∃ t, Sys2Proof.core.run 3 s = .next t ∧ t.phase = .idle ∧ t.busy = false ∧ t.done = true ∧ t.ok = false ∧
      t.valid = false ∧ t.nalCount = 0 ∧ t.spsSeen = 0 ∧ t.spsOk = 0 ∧ t.lastErr = 0 ∧ t.errOff = 0 ∧
      ∀ e : Err, t.sticky e = false

/-- 43_sps_decoder.md R232 (derived there): an SPS payload of 13 bytes or fewer never commits; it always ends in
`BitstreamExhausted`, with the
old record untouched. -/
def Obligations.ShortPayloadNeverCommits : Prop :=
  ∀ s : State, s.Inv → s.host = [] → s.phase = .parsesps → s.scrLen.toNat ≤ 13 →
    ∃ k t, Sys2Proof.core.run k s = .next t ∧ t.phase = .scan ∧ t.valid = false ∧ t.sticky .bitstreamExhausted = true ∧
      t.lastErr = 1 ∧ t.errOff = s.nalOff ∧ t.spsOk = s.spsOk ∧ t.profile = s.profile ∧
      t.rextProfile = s.rextProfile ∧ t.level = s.level ∧ t.chromaFormat = s.chromaFormat ∧ t.bitDepth = s.bitDepth

/-- 43_sps_decoder.md R200, R231, R234: every SPS prefix without sub-layers, whatever its fields within the two range checks,
is decoded element by element and committed; the cursor has consumed exactly its bits, and no error is recorded. -/
def Obligations.SpsWithoutSubLayersCommits : Prop :=
  ∀ (s : State) (vps src : BitVec 4) (nest tier plane : BitVec 1) (space : BitVec 2) (idc : BitVec 5) (compat : BitVec 32)
    (block : BitVec 44) (lvl : BitVec 8) (spsId chroma width height luma depth : UeCode)
    (window : Option (UeCode × UeCode × UeCode × UeCode)) (elems : List Instr),
    elems =
      [.spsVideoParameterSetId vps, .spsMaxSubLayersMinus1 0, .spsTemporalIdNestingFlag nest,
        .spsGeneralProfileSpace space, .spsGeneralTierFlag tier, .spsGeneralProfileIdc idc,
        .spsGeneralCompatibilityFlags compat, .spsGeneralSourceFlags src, .spsGeneralConstraintBlock block,
        .spsGeneralLevelIdc lvl, .spsSeqParameterSetId spsId, .spsChromaFormatIdc chroma] ++
      (if 2 ^ chroma.k.toNat - 1 + chroma.s.toNat = 3 then [.spsSeparateColourPlaneFlag plane] else []) ++
      [.spsPicWidth width, .spsPicHeight height] ++
      (match window with
        | none => [.spsConformanceWindowFlag 0]
        | some (c1, c2, c3, c4) => [.spsConformanceWindowFlag 1, .spsConformanceWindowOffsets c1 c2 c3 c4]) ++
      [.spsBitDepthLuma luma, .spsBitDepthChroma depth] →
    (∀ i ∈ elems, i.wf s.cfg = true) → 2 ^ chroma.k.toNat - 1 + chroma.s.toNat ≤ 3 →
    2 ^ luma.k.toNat - 1 + luma.s.toNat ≤ 8 → s.host = [] → s.phase = .parsesps →
    s.PayloadBegins (encodeAll s.cfg elems) →
    ∃ t, Sys2Proof.core.run (elems.length + 1) s = .next t ∧ t.phase = .scan ∧ t.valid = true ∧ t.profile = idc ∧
      t.rextProfile = (if idc = s.cfg.rextIdc then Config.rextMap block else 0) ∧ t.level = lvl ∧
      t.chromaFormat.toNat = 2 ^ chroma.k.toNat - 1 + chroma.s.toNat ∧
      t.bitDepth.toNat = 2 ^ luma.k.toNat - 1 + luma.s.toNat + 8 ∧ t.spsOk = s.spsOk + 1 ∧
      t.pos.toNat = (encodeAll s.cfg elems).length ∧ t.status = s.status ∧ t.lastErr = s.lastErr ∧ t.errOff = s.errOff

/-- 41_nal_scanner.md R172: the outcome of a call depends on `BUF[0 .. LEN-1]`, `LEN`, `NSW` and the parameters, and, for the
five data registers when `VALID` ends 0, on their previous values; no hidden state carries over (10_state.md R34).  That
both calls take as many steps is a claim about this model's cutting into steps (log entry 2). -/
def Obligations.CallDependsOnInputsAlone : Prop :=
  ∀ s s' : State, s.Inv → s'.Inv → s.host = [] → s'.host = [] → s.phase = .parsenals → s'.phase = .parsenals →
    s.SameInputs s' → ∀ k t, Sys2Proof.core.run k s = .next t → t.phase = .idle →
    ∃ t', Sys2Proof.core.run k s' = .next t' ∧ t'.phase = .idle ∧ t'.status = t.status ∧ t'.valid = t.valid ∧
      t'.nalCount = t.nalCount ∧ t'.spsSeen = t.spsSeen ∧ t'.spsOk = t.spsOk ∧ t'.lastErr = t.lastErr ∧
      t'.errOff = t.errOff ∧ (t.valid = true ∨ s.SameRecord s' → t.SameRecord t')
end

