-- ==== Sys2Proof/Laws/Bits.lean ====
section
/-! SUPPORT. The laws of bit strings: the number a field reads as, and reading back a field or a code that was written. -/

namespace Sys2Proof

@[simp] theorem bitsOfNat_length (n v : Nat) : (bitsOfNat n v).length = n := by
  induction n with
  | zero => rfl
  | succ n ih => simp [bitsOfNat, ih]

@[simp] theorem bitsOfBv_length {n : Nat} (v : BitVec n) : (bitsOfBv v).length = n := bitsOfNat_length n v.toNat

@[simp] theorem bitsOfBytes_length (bs : List Byte) : (bitsOfBytes bs).length = 8 * bs.length := by
  induction bs with
  | nil => rfl
  | cons b r ih => simp only [bitsOfBytes, List.length_append, bitsOfBv_length, ih, List.length_cons]; omega

/-- A fold that starts from `a` reads the string after `a`. -/
theorem foldl_bits (bs : Bits) (a : Nat) :
    bs.foldl (fun a b => 2 * a + b.toNat) a = a * 2 ^ bs.length + natOfBits bs := by
  induction bs generalizing a with
  | nil => simp [natOfBits]
  | cons b r ih =>
    have h : natOfBits (b :: r) = b.toNat * 2 ^ r.length + natOfBits r := by
      rw [natOfBits, List.foldl_cons, ih]; simp
    rw [List.foldl_cons, ih, h, List.length_cons, pow_succ]
    ring

@[simp] theorem natOfBits_nil : natOfBits [] = 0 := rfl

theorem natOfBits_cons (b : Bool) (r : Bits) : natOfBits (b :: r) = b.toNat * 2 ^ r.length + natOfBits r := by
  rw [natOfBits, List.foldl_cons, foldl_bits]; simp

/-- Two fields one after the other: the first is the more significant (40_bitreader.md R140 (d)). -/
theorem natOfBits_append (a b : Bits) : natOfBits (a ++ b) = natOfBits a * 2 ^ b.length + natOfBits b := by
  rw [natOfBits, List.foldl_append, foldl_bits]; rfl

theorem natOfBits_lt (bs : Bits) : natOfBits bs < 2 ^ bs.length := by
  induction bs with
  | nil => simp
  | cons b r ih =>
    rw [natOfBits_cons, List.length_cons, pow_succ]
    cases b <;> simp <;> omega

/-- Writing the `n` low bits of `v` and reading them back. -/
@[simp] theorem natOfBits_bitsOfNat (n v : Nat) : natOfBits (bitsOfNat n v) = v % 2 ^ n := by
  induction n with
  | zero => simp [bitsOfNat, Nat.mod_one]
  | succ n ih =>
    rw [bitsOfNat, natOfBits_cons, bitsOfNat_length, ih, Nat.testBit_eq_decide_div_mod_eq]
    have h := Nat.mod_mul (x := v) (a := 2 ^ n) (b := 2)
    rw [← pow_succ] at h
    rw [h]
    rcases Nat.mod_two_eq_zero_or_one (v / 2 ^ n) with h0 | h1
    · simp [h0]
    · simp [h1]; omega

@[simp] theorem natOfBits_bitsOfBv {n : Nat} (v : BitVec n) : natOfBits (bitsOfBv v) = v.toNat := by
  rw [bitsOfBv, natOfBits_bitsOfNat, Nat.mod_eq_of_lt v.isLt]

/-! ## Fields -/

/-- A field of `n` bits at the head is read as its value. -/
theorem withU_append {α : Type} (n : Nat) (a rest : Bits) (k : Nat → Bits → Except Reject α) (h : a.length = n) :
    withU n (a ++ rest) k = k (natOfBits a) rest := by
  subst h; simp [withU]

/-- A field that takes the whole bit string. -/
theorem withU_exact {α : Type} (n : Nat) (a : Bits) (k : Nat → Bits → Except Reject α) (h : a.length = n) :
    withU n a k = k (natOfBits a) [] := by
  subst h; simp [withU]

/-- A written field is read back, whatever follows it. -/
@[simp] theorem withU_bitsOfNat {α : Type} (n v : Nat) (rest : Bits) (k : Nat → Bits → Except Reject α) :
    withU n (bitsOfNat n v ++ rest) k = k (v % 2 ^ n) rest := by
  rw [withU_append n _ rest k (bitsOfNat_length n v), natOfBits_bitsOfNat]

@[simp] theorem withU_bitsOfBv {α : Type} {n : Nat} (v : BitVec n) (rest : Bits) (k : Nat → Bits → Except Reject α) :
    withU n (bitsOfBv v ++ rest) k = k v.toNat rest := by
  rw [withU_append n _ rest k (bitsOfBv_length v), natOfBits_bitsOfBv]

/-- Two fields that stand together are read as one. -/
theorem withU_append_append {α : Type} (n : Nat) (a b rest : Bits) (k : Nat → Bits → Except Reject α)
    (h : a.length + b.length = n) :
    withU n (a ++ (b ++ rest)) k = k (natOfBits a * 2 ^ b.length + natOfBits b) rest := by
  rw [← List.append_assoc, withU_append n _ rest k (by simpa using h), natOfBits_append]

/-- What a fixed field can answer: `exhausted`, or the continuation on its value and the bits after it. -/
theorem withU_cases {α : Type} (n : Nat) (bs : Bits) (k : Nat → Bits → Except Reject α) :
    (bs.length < n ∧ withU n bs k = .error (.exhausted (n - bs.length))) ∨
    (n ≤ bs.length ∧ withU n bs k = k (natOfBits (bs.take n)) (bs.drop n)) := by
  unfold withU
  split
  · left; exact ⟨‹_›, rfl⟩
  · right; exact ⟨by omega, rfl⟩

/-- A field is its high part, then its low part. -/
theorem bitsOfNat_add (a b v : Nat) : bitsOfNat (a + b) v = bitsOfNat a (v / 2 ^ b) ++ bitsOfNat b v := by
  induction a with
  | zero => simp [bitsOfNat]
  | succ a ih =>
    rw [show a + 1 + b = (a + b) + 1 by omega, bitsOfNat, bitsOfNat, ih, Nat.testBit_div_two_pow, List.cons_append]

/-- The 16 bits of a header are read as its word (30_encoding.md R96). -/
theorem decode_nh_append (c : Cfg) (a rest : Bits) (h : a.length = 16) :
    decode c .nh (a ++ rest) = .ok (decodeNh c (natOfBits a), rest) := by
  simp only [decode]
  rw [if_neg (by simp [h]), withU_append 16 a rest _ h]
  rfl

/-! ## Exponential-Golomb codes -/

/-- `z` zeros within the bound, then the marker. -/
theorem ueScan_zeros (z lz : Nat) (r : Bits) (h : lz + z ≤ Config.ueMaxLz) :
    ueScan lz (List.replicate z false ++ true :: r) = .ok (lz + z, r) := by
  induction z generalizing lz with
  | zero => simp [ueScan]
  | succ z ih =>
    have hb : ¬ lz + 1 > Config.ueMaxLz := by omega
    simp only [List.replicate_succ, List.cons_append, ueScan, hb, if_false]
    rw [ih (lz + 1) (by omega)]
    congr 2; omega

/-- The 33rd zero is malformed, whatever follows it (30_encoding.md R102). -/
theorem ueScan_malformed (z lz : Nat) (r : Bits) (h : Config.ueMaxLz < lz + z) (hl : lz ≤ Config.ueMaxLz) :
    ueScan lz (List.replicate z false ++ r) = .error .malformedCode := by
  induction z generalizing lz with
  | zero => omega
  | succ z ih =>
    simp only [List.replicate_succ, List.cons_append, ueScan]
    split
    · rfl
    · exact ih (lz + 1) (by omega) (by omega)

/-- Zeros within the bound, and then the end. -/
theorem ueScan_end (z lz : Nat) (h : lz + z ≤ Config.ueMaxLz) :
    ueScan lz (List.replicate z false) = .error (.exhausted 1) := by
  induction z generalizing lz with
  | zero => rfl
  | succ z ih =>
    simp only [List.replicate_succ, ueScan]
    rw [if_neg (by omega)]
    exact ih _ (by omega)

/-- A code has `2k + 1` bits (R100). -/
@[simp] theorem UeCode.bits_length (e : UeCode) : e.bits.length = 2 * e.k.toNat + 1 := by simp [UeCode.bits]; omega

/-- A well-formed code at the head is read back, whatever follows it. -/
@[simp] theorem withUe_bits {α : Type} (e : UeCode) (rest : Bits) (k : UeCode → Bits → Except Reject α)
    (h : e.wf = true) : withUe (e.bits ++ rest) k = k e rest := by
  obtain ⟨hk, hs⟩ : e.k.toNat ≤ Config.ueMaxLz ∧ e.s.toNat < 2 ^ e.k.toNat := by simpa [UeCode.wf] using h
  have h1 : ueScan 0 (e.bits ++ rest) = .ok (e.k.toNat, bitsOfNat e.k.toNat e.s.toNat ++ rest) := by
    rw [UeCode.bits, List.append_assoc, List.cons_append, ueScan_zeros _ _ _ (by omega), Nat.zero_add]
  simp only [withUe, h1, withU_bitsOfNat, Nat.mod_eq_of_lt hs, BitVec.ofNat_toNat, BitVec.setWidth_eq]

/-- A code at the head, by itself. -/
theorem takeUe_bits (e : UeCode) (rest : Bits) (h : e.wf = true) : takeUe (e.bits ++ rest) = .ok (e, rest) :=
  withUe_bits e rest _ h

/-- What the scan of the zero run can answer. -/
theorem ueScan_cases (lz : Nat) (bs : Bits) :
    (ueScan lz bs = .error (.exhausted 1)) ∨ (ueScan lz bs = .error .malformedCode) ∨
    ∃ z r, ueScan lz bs = .ok (lz + z, r) ∧ bs = List.replicate z false ++ true :: r ∧ lz + z ≤ max lz Config.ueMaxLz := by
  induction bs generalizing lz with
  | nil => left; rfl
  | cons b r ih =>
    cases b with
    | true => right; right; exact ⟨0, r, by simp [ueScan], by simp, by omega⟩
    | false =>
      simp only [ueScan]
      split
      · right; left; rfl
      · rcases ih (lz + 1) with h | h | ⟨z, r', h, hr, hz⟩
        · left; exact h
        · right; left; exact h
        · refine .inr (.inr ⟨z + 1, r', ?_, ?_, by omega⟩)
          · rw [h]; congr 2; omega
          · rw [hr]; simp [List.replicate_succ]

/-- What a code can answer: one of the bit reader's two errors, or the continuation on a well-formed code that stands at
the head. -/
theorem withUe_cases {α : Type} (bs : Bits) (k : UeCode → Bits → Except Reject α) :
    (∃ m, withUe bs k = .error (.exhausted m)) ∨ withUe bs k = .error .malformedCode ∨
    ∃ e rest, withUe bs k = k e rest ∧ bs = e.bits ++ rest ∧ e.wf = true := by
  rcases ueScan_cases 0 bs with h | h | ⟨z, r, h, hr, hz⟩
  · left; exact ⟨1, by simp [withUe, h]⟩
  · right; left; simp [withUe, h]
  · have hz32 : z ≤ 32 := by simpa [Config.ueMaxLz] using hz
    rcases withU_cases z r (fun s rest => k { k := BitVec.ofNat 6 z, s := BitVec.ofNat 32 s } rest) with ⟨_, hu⟩ | ⟨hlen, hu⟩
    · left; exact ⟨z - r.length, by simp only [withUe, h, Nat.zero_add, hu]⟩
    · right; right
      have hlt := natOfBits_lt (r.take z)
      have hlen' : (r.take z).length = z := by simp [hlen]
      rw [hlen'] at hlt
      have hpow : (2 : Nat) ^ z ≤ 2 ^ 32 := Nat.pow_le_pow_right (by omega) hz32
      have hk : (BitVec.ofNat 6 z).toNat = z := by simp; omega
      have hs : (BitVec.ofNat 32 (natOfBits (r.take z))).toNat = natOfBits (r.take z) := by
        simp; omega
      refine ⟨{ k := BitVec.ofNat 6 z, s := BitVec.ofNat 32 (natOfBits (r.take z)) }, r.drop z, ?_, ?_, ?_⟩
      · simp only [withUe, h, Nat.zero_add, hu]
      · have hb : bitsOfNat z (natOfBits (r.take z)) = r.take z := by
          clear hu hz hz32 hpow hk hs hlt hr h
          generalize hbs : r.take z = w at hlen' ⊢
          clear hbs hlen
          subst hlen'
          induction w with
          | nil => rfl
          | cons b w ih =>
            have hw := natOfBits_lt w
            simp only [List.length_cons, bitsOfNat, natOfBits_cons]
            have h1 : (b.toNat * 2 ^ w.length + natOfBits w).testBit w.length = b := by
              rw [Nat.testBit_eq_decide_div_mod_eq]
              rw [Nat.add_comm, Nat.add_mul_div_right _ _ (Nat.two_pow_pos _), Nat.div_eq_of_lt hw]
              cases b <;> simp
            have h2 : ∀ n ≤ w.length, bitsOfNat n (b.toNat * 2 ^ w.length + natOfBits w) = bitsOfNat n (natOfBits w) := by
              intro n hn
              induction n with
              | zero => rfl
              | succ n ihn =>
                simp only [bitsOfNat, ihn (by omega)]
                congr 1
                rw [Nat.mul_comm, Nat.testBit_two_pow_mul_add _ hw, if_pos (by omega)]
            rw [h1, h2 _ (Nat.le_refl _), ih]
        rw [hr, UeCode.bits]
        simp only [hk, hs, hb, List.append_assoc, List.cons_append, List.take_append_drop]
      · simp [UeCode.wf, hk, hs, hlt, Config.ueMaxLz, hz32]

/-- What one code by itself can answer. -/
theorem takeUe_cases (bs : Bits) :
    (∃ m, takeUe bs = .error (.exhausted m)) ∨ takeUe bs = .error .malformedCode ∨
    ∃ e rest, takeUe bs = .ok (e, rest) ∧ bs = e.bits ++ rest ∧ e.wf = true :=
  withUe_cases bs _

end Sys2Proof
end

