-- ==== Sys2Proof/Laws/State.lean ====
section
/-! SUPPORT. What each named update of the state does to each field: one lemma per field per update. -/

namespace Sys2Proof.Machine

open Sys2Proof

variable (s : State)

/-! ## `goto` -/

@[simp] theorem goto_status (p : Phase) : (s.goto p).status = s.status := rfl
@[simp] theorem goto_len (p : Phase) : (s.goto p).len = s.len := rfl
@[simp] theorem goto_nsw (p : Phase) : (s.goto p).nsw = s.nsw := rfl
@[simp] theorem goto_valid (p : Phase) : (s.goto p).valid = s.valid := rfl
@[simp] theorem goto_profile (p : Phase) : (s.goto p).profile = s.profile := rfl
@[simp] theorem goto_rextProfile (p : Phase) : (s.goto p).rextProfile = s.rextProfile := rfl
@[simp] theorem goto_level (p : Phase) : (s.goto p).level = s.level := rfl
@[simp] theorem goto_chromaFormat (p : Phase) : (s.goto p).chromaFormat = s.chromaFormat := rfl
@[simp] theorem goto_bitDepth (p : Phase) : (s.goto p).bitDepth = s.bitDepth := rfl
@[simp] theorem goto_nalCount (p : Phase) : (s.goto p).nalCount = s.nalCount := rfl
@[simp] theorem goto_spsSeen (p : Phase) : (s.goto p).spsSeen = s.spsSeen := rfl
@[simp] theorem goto_spsOk (p : Phase) : (s.goto p).spsOk = s.spsOk := rfl
@[simp] theorem goto_lastErr (p : Phase) : (s.goto p).lastErr = s.lastErr := rfl
@[simp] theorem goto_errOff (p : Phase) : (s.goto p).errOff = s.errOff := rfl
@[simp] theorem goto_off (p : Phase) : (s.goto p).off = s.off := rfl
@[simp] theorem goto_nalOff (p : Phase) : (s.goto p).nalOff = s.nalOff := rfl
@[simp] theorem goto_nalLen (p : Phase) : (s.goto p).nalLen = s.nalLen := rfl
@[simp] theorem goto_nalType (p : Phase) : (s.goto p).nalType = s.nalType := rfl
@[simp] theorem goto_scrLen (p : Phase) : (s.goto p).scrLen = s.scrLen := rfl
@[simp] theorem goto_pos (p : Phase) : (s.goto p).pos = s.pos := rfl
@[simp] theorem goto_total (p : Phase) : (s.goto p).total = s.total := rfl
@[simp] theorem goto_nSub (p : Phase) : (s.goto p).nSub = s.nSub := rfl
@[simp] theorem goto_pp (p : Phase) : (s.goto p).pp = s.pp := rfl
@[simp] theorem goto_lp (p : Phase) : (s.goto p).lp = s.lp := rfl
@[simp] theorem goto_c44 (p : Phase) : (s.goto p).c44 = s.c44 := rfl
@[simp] theorem goto_tProfile (p : Phase) : (s.goto p).tProfile = s.tProfile := rfl
@[simp] theorem goto_tRext (p : Phase) : (s.goto p).tRext = s.tRext := rfl
@[simp] theorem goto_tLevel (p : Phase) : (s.goto p).tLevel = s.tLevel := rfl
@[simp] theorem goto_tChroma (p : Phase) : (s.goto p).tChroma = s.tChroma := rfl
@[simp] theorem goto_tDepth (p : Phase) : (s.goto p).tDepth = s.tDepth := rfl
@[simp] theorem goto_buf (p : Phase) : (s.goto p).buf = s.buf := rfl
@[simp] theorem goto_scr (p : Phase) : (s.goto p).scr = s.scr := rfl
@[simp] theorem goto_view (p : Phase) : (s.goto p).view = s.view := rfl
@[simp] theorem goto_reader (p : Phase) : (s.goto p).reader = s.reader := rfl
@[simp] theorem goto_viewArg (p : Phase) : (s.goto p).viewArg = s.viewArg := rfl
@[simp] theorem goto_reply (p : Phase) : (s.goto p).reply = s.reply := rfl
@[simp] theorem goto_phase (p : Phase) : (s.goto p).phase = p := rfl
@[simp] theorem goto_epbI (p : Phase) : (s.goto p).epbI = s.epbI := rfl
@[simp] theorem goto_epbK (p : Phase) : (s.goto p).epbK = s.epbK := rfl
@[simp] theorem goto_subI (p : Phase) : (s.goto p).subI = s.subI := rfl
@[simp] theorem goto_cfg (p : Phase) : (s.goto p).cfg = s.cfg := rfl
@[simp] theorem goto_lenWritten (p : Phase) : (s.goto p).lenWritten = s.lenWritten := rfl
@[simp] theorem goto_nswWritten (p : Phase) : (s.goto p).nswWritten = s.nswWritten := rfl
@[simp] theorem goto_host (p : Phase) : (s.goto p).host = s.host := rfl
@[simp] theorem goto_hostData (p : Phase) : (s.goto p).hostData = s.hostData := rfl
@[simp] theorem goto_free (p : Phase) : (s.goto p).free = s.free := rfl

/-! ## `record` -/

@[simp] theorem record_status (e : Err) (o : BitVec 32) : (s.record e o).status = Status.put s.status e.bit true := rfl
@[simp] theorem record_len (e : Err) (o : BitVec 32) : (s.record e o).len = s.len := rfl
@[simp] theorem record_nsw (e : Err) (o : BitVec 32) : (s.record e o).nsw = s.nsw := rfl
@[simp] theorem record_valid (e : Err) (o : BitVec 32) : (s.record e o).valid = s.valid := rfl
@[simp] theorem record_profile (e : Err) (o : BitVec 32) : (s.record e o).profile = s.profile := rfl
@[simp] theorem record_rextProfile (e : Err) (o : BitVec 32) : (s.record e o).rextProfile = s.rextProfile := rfl
@[simp] theorem record_level (e : Err) (o : BitVec 32) : (s.record e o).level = s.level := rfl
@[simp] theorem record_chromaFormat (e : Err) (o : BitVec 32) : (s.record e o).chromaFormat = s.chromaFormat := rfl
@[simp] theorem record_bitDepth (e : Err) (o : BitVec 32) : (s.record e o).bitDepth = s.bitDepth := rfl
@[simp] theorem record_nalCount (e : Err) (o : BitVec 32) : (s.record e o).nalCount = s.nalCount := rfl
@[simp] theorem record_spsSeen (e : Err) (o : BitVec 32) : (s.record e o).spsSeen = s.spsSeen := rfl
@[simp] theorem record_spsOk (e : Err) (o : BitVec 32) : (s.record e o).spsOk = s.spsOk := rfl
@[simp] theorem record_lastErr (e : Err) (o : BitVec 32) : (s.record e o).lastErr = e.code := rfl
@[simp] theorem record_errOff (e : Err) (o : BitVec 32) : (s.record e o).errOff = o := rfl
@[simp] theorem record_off (e : Err) (o : BitVec 32) : (s.record e o).off = s.off := rfl
@[simp] theorem record_nalOff (e : Err) (o : BitVec 32) : (s.record e o).nalOff = s.nalOff := rfl
@[simp] theorem record_nalLen (e : Err) (o : BitVec 32) : (s.record e o).nalLen = s.nalLen := rfl
@[simp] theorem record_nalType (e : Err) (o : BitVec 32) : (s.record e o).nalType = s.nalType := rfl
@[simp] theorem record_scrLen (e : Err) (o : BitVec 32) : (s.record e o).scrLen = s.scrLen := rfl
@[simp] theorem record_pos (e : Err) (o : BitVec 32) : (s.record e o).pos = s.pos := rfl
@[simp] theorem record_total (e : Err) (o : BitVec 32) : (s.record e o).total = s.total := rfl
@[simp] theorem record_nSub (e : Err) (o : BitVec 32) : (s.record e o).nSub = s.nSub := rfl
@[simp] theorem record_pp (e : Err) (o : BitVec 32) : (s.record e o).pp = s.pp := rfl
@[simp] theorem record_lp (e : Err) (o : BitVec 32) : (s.record e o).lp = s.lp := rfl
@[simp] theorem record_c44 (e : Err) (o : BitVec 32) : (s.record e o).c44 = s.c44 := rfl
@[simp] theorem record_tProfile (e : Err) (o : BitVec 32) : (s.record e o).tProfile = s.tProfile := rfl
@[simp] theorem record_tRext (e : Err) (o : BitVec 32) : (s.record e o).tRext = s.tRext := rfl
@[simp] theorem record_tLevel (e : Err) (o : BitVec 32) : (s.record e o).tLevel = s.tLevel := rfl
@[simp] theorem record_tChroma (e : Err) (o : BitVec 32) : (s.record e o).tChroma = s.tChroma := rfl
@[simp] theorem record_tDepth (e : Err) (o : BitVec 32) : (s.record e o).tDepth = s.tDepth := rfl
@[simp] theorem record_buf (e : Err) (o : BitVec 32) : (s.record e o).buf = s.buf := rfl
@[simp] theorem record_scr (e : Err) (o : BitVec 32) : (s.record e o).scr = s.scr := rfl
@[simp] theorem record_view (e : Err) (o : BitVec 32) : (s.record e o).view = s.view := rfl
@[simp] theorem record_reader (e : Err) (o : BitVec 32) : (s.record e o).reader = s.reader := rfl
@[simp] theorem record_viewArg (e : Err) (o : BitVec 32) : (s.record e o).viewArg = s.viewArg := rfl
@[simp] theorem record_reply (e : Err) (o : BitVec 32) : (s.record e o).reply = s.reply := rfl
@[simp] theorem record_phase (e : Err) (o : BitVec 32) : (s.record e o).phase = s.phase := rfl
@[simp] theorem record_epbI (e : Err) (o : BitVec 32) : (s.record e o).epbI = s.epbI := rfl
@[simp] theorem record_epbK (e : Err) (o : BitVec 32) : (s.record e o).epbK = s.epbK := rfl
@[simp] theorem record_subI (e : Err) (o : BitVec 32) : (s.record e o).subI = s.subI := rfl
@[simp] theorem record_cfg (e : Err) (o : BitVec 32) : (s.record e o).cfg = s.cfg := rfl
@[simp] theorem record_lenWritten (e : Err) (o : BitVec 32) : (s.record e o).lenWritten = s.lenWritten := rfl
@[simp] theorem record_nswWritten (e : Err) (o : BitVec 32) : (s.record e o).nswWritten = s.nswWritten := rfl
@[simp] theorem record_host (e : Err) (o : BitVec 32) : (s.record e o).host = s.host := rfl
@[simp] theorem record_hostData (e : Err) (o : BitVec 32) : (s.record e o).hostData = s.hostData := rfl
@[simp] theorem record_free (e : Err) (o : BitVec 32) : (s.record e o).free = s.free := rfl

/-! ## `beginCall` -/

@[simp] theorem beginCall_status : (s.beginCall).status = Status.started s.status := rfl
@[simp] theorem beginCall_len : (s.beginCall).len = s.len := rfl
@[simp] theorem beginCall_nsw : (s.beginCall).nsw = s.nsw := rfl
@[simp] theorem beginCall_valid : (s.beginCall).valid = false := rfl
@[simp] theorem beginCall_profile : (s.beginCall).profile = s.profile := rfl
@[simp] theorem beginCall_rextProfile : (s.beginCall).rextProfile = s.rextProfile := rfl
@[simp] theorem beginCall_level : (s.beginCall).level = s.level := rfl
@[simp] theorem beginCall_chromaFormat : (s.beginCall).chromaFormat = s.chromaFormat := rfl
@[simp] theorem beginCall_bitDepth : (s.beginCall).bitDepth = s.bitDepth := rfl
@[simp] theorem beginCall_nalCount : (s.beginCall).nalCount = 0 := rfl
@[simp] theorem beginCall_spsSeen : (s.beginCall).spsSeen = 0 := rfl
@[simp] theorem beginCall_spsOk : (s.beginCall).spsOk = 0 := rfl
@[simp] theorem beginCall_lastErr : (s.beginCall).lastErr = 0 := rfl
@[simp] theorem beginCall_errOff : (s.beginCall).errOff = 0 := rfl
@[simp] theorem beginCall_off : (s.beginCall).off = 0 := rfl
@[simp] theorem beginCall_nalOff : (s.beginCall).nalOff = s.nalOff := rfl
@[simp] theorem beginCall_nalLen : (s.beginCall).nalLen = s.nalLen := rfl
@[simp] theorem beginCall_nalType : (s.beginCall).nalType = s.nalType := rfl
@[simp] theorem beginCall_scrLen : (s.beginCall).scrLen = s.scrLen := rfl
@[simp] theorem beginCall_pos : (s.beginCall).pos = s.pos := rfl
@[simp] theorem beginCall_total : (s.beginCall).total = s.total := rfl
@[simp] theorem beginCall_nSub : (s.beginCall).nSub = s.nSub := rfl
@[simp] theorem beginCall_pp : (s.beginCall).pp = s.pp := rfl
@[simp] theorem beginCall_lp : (s.beginCall).lp = s.lp := rfl
@[simp] theorem beginCall_c44 : (s.beginCall).c44 = s.c44 := rfl
@[simp] theorem beginCall_tProfile : (s.beginCall).tProfile = s.tProfile := rfl
@[simp] theorem beginCall_tRext : (s.beginCall).tRext = s.tRext := rfl
@[simp] theorem beginCall_tLevel : (s.beginCall).tLevel = s.tLevel := rfl
@[simp] theorem beginCall_tChroma : (s.beginCall).tChroma = s.tChroma := rfl
@[simp] theorem beginCall_tDepth : (s.beginCall).tDepth = s.tDepth := rfl
@[simp] theorem beginCall_buf : (s.beginCall).buf = s.buf := rfl
@[simp] theorem beginCall_scr : (s.beginCall).scr = s.scr := rfl
@[simp] theorem beginCall_view : (s.beginCall).view = s.view := rfl
@[simp] theorem beginCall_reader : (s.beginCall).reader = s.reader := rfl
@[simp] theorem beginCall_viewArg : (s.beginCall).viewArg = s.viewArg := rfl
@[simp] theorem beginCall_reply : (s.beginCall).reply = s.reply := rfl
@[simp] theorem beginCall_phase : (s.beginCall).phase = s.phase := rfl
@[simp] theorem beginCall_epbI : (s.beginCall).epbI = s.epbI := rfl
@[simp] theorem beginCall_epbK : (s.beginCall).epbK = s.epbK := rfl
@[simp] theorem beginCall_subI : (s.beginCall).subI = s.subI := rfl
@[simp] theorem beginCall_cfg : (s.beginCall).cfg = s.cfg := rfl
@[simp] theorem beginCall_lenWritten : (s.beginCall).lenWritten = s.lenWritten := rfl
@[simp] theorem beginCall_nswWritten : (s.beginCall).nswWritten = s.nswWritten := rfl
@[simp] theorem beginCall_host : (s.beginCall).host = s.host := rfl
@[simp] theorem beginCall_hostData : (s.beginCall).hostData = s.hostData := rfl
@[simp] theorem beginCall_free : (s.beginCall).free = s.free := rfl

/-! ## `advance` -/

@[simp] theorem advance_status (n : Nat) : (s.advance n).status = s.status := rfl
@[simp] theorem advance_len (n : Nat) : (s.advance n).len = s.len := rfl
@[simp] theorem advance_nsw (n : Nat) : (s.advance n).nsw = s.nsw := rfl
@[simp] theorem advance_valid (n : Nat) : (s.advance n).valid = s.valid := rfl
@[simp] theorem advance_profile (n : Nat) : (s.advance n).profile = s.profile := rfl
@[simp] theorem advance_rextProfile (n : Nat) : (s.advance n).rextProfile = s.rextProfile := rfl
@[simp] theorem advance_level (n : Nat) : (s.advance n).level = s.level := rfl
@[simp] theorem advance_chromaFormat (n : Nat) : (s.advance n).chromaFormat = s.chromaFormat := rfl
@[simp] theorem advance_bitDepth (n : Nat) : (s.advance n).bitDepth = s.bitDepth := rfl
@[simp] theorem advance_nalCount (n : Nat) : (s.advance n).nalCount = s.nalCount := rfl
@[simp] theorem advance_spsSeen (n : Nat) : (s.advance n).spsSeen = s.spsSeen := rfl
@[simp] theorem advance_spsOk (n : Nat) : (s.advance n).spsOk = s.spsOk := rfl
@[simp] theorem advance_lastErr (n : Nat) : (s.advance n).lastErr = s.lastErr := rfl
@[simp] theorem advance_errOff (n : Nat) : (s.advance n).errOff = s.errOff := rfl
@[simp] theorem advance_off (n : Nat) : (s.advance n).off = s.off := rfl
@[simp] theorem advance_nalOff (n : Nat) : (s.advance n).nalOff = s.nalOff := rfl
@[simp] theorem advance_nalLen (n : Nat) : (s.advance n).nalLen = s.nalLen := rfl
@[simp] theorem advance_nalType (n : Nat) : (s.advance n).nalType = s.nalType := rfl
@[simp] theorem advance_scrLen (n : Nat) : (s.advance n).scrLen = s.scrLen := rfl
@[simp] theorem advance_pos (n : Nat) : (s.advance n).pos = BitVec.ofNat 36 (s.pos.toNat + n) := rfl
@[simp] theorem advance_total (n : Nat) : (s.advance n).total = s.total := rfl
@[simp] theorem advance_nSub (n : Nat) : (s.advance n).nSub = s.nSub := rfl
@[simp] theorem advance_pp (n : Nat) : (s.advance n).pp = s.pp := rfl
@[simp] theorem advance_lp (n : Nat) : (s.advance n).lp = s.lp := rfl
@[simp] theorem advance_c44 (n : Nat) : (s.advance n).c44 = s.c44 := rfl
@[simp] theorem advance_tProfile (n : Nat) : (s.advance n).tProfile = s.tProfile := rfl
@[simp] theorem advance_tRext (n : Nat) : (s.advance n).tRext = s.tRext := rfl
@[simp] theorem advance_tLevel (n : Nat) : (s.advance n).tLevel = s.tLevel := rfl
@[simp] theorem advance_tChroma (n : Nat) : (s.advance n).tChroma = s.tChroma := rfl
@[simp] theorem advance_tDepth (n : Nat) : (s.advance n).tDepth = s.tDepth := rfl
@[simp] theorem advance_buf (n : Nat) : (s.advance n).buf = s.buf := rfl
@[simp] theorem advance_scr (n : Nat) : (s.advance n).scr = s.scr := rfl
@[simp] theorem advance_view (n : Nat) : (s.advance n).view = s.view := rfl
@[simp] theorem advance_reader (n : Nat) : (s.advance n).reader = s.reader := rfl
@[simp] theorem advance_viewArg (n : Nat) : (s.advance n).viewArg = s.viewArg := rfl
@[simp] theorem advance_reply (n : Nat) : (s.advance n).reply = s.reply := rfl
@[simp] theorem advance_phase (n : Nat) : (s.advance n).phase = s.phase := rfl
@[simp] theorem advance_epbI (n : Nat) : (s.advance n).epbI = s.epbI := rfl
@[simp] theorem advance_epbK (n : Nat) : (s.advance n).epbK = s.epbK := rfl
@[simp] theorem advance_subI (n : Nat) : (s.advance n).subI = s.subI := rfl
@[simp] theorem advance_cfg (n : Nat) : (s.advance n).cfg = s.cfg := rfl
@[simp] theorem advance_lenWritten (n : Nat) : (s.advance n).lenWritten = s.lenWritten := rfl
@[simp] theorem advance_nswWritten (n : Nat) : (s.advance n).nswWritten = s.nswWritten := rfl
@[simp] theorem advance_host (n : Nat) : (s.advance n).host = s.host := rfl
@[simp] theorem advance_hostData (n : Nat) : (s.advance n).hostData = s.hostData := rfl
@[simp] theorem advance_free (n : Nat) : (s.advance n).free = s.free := rfl

/-! ## `advanceReader` -/

@[simp] theorem advanceReader_status (n : Nat) : (s.advanceReader n).status = s.status := rfl
@[simp] theorem advanceReader_len (n : Nat) : (s.advanceReader n).len = s.len := rfl
@[simp] theorem advanceReader_nsw (n : Nat) : (s.advanceReader n).nsw = s.nsw := rfl
@[simp] theorem advanceReader_valid (n : Nat) : (s.advanceReader n).valid = s.valid := rfl
@[simp] theorem advanceReader_profile (n : Nat) : (s.advanceReader n).profile = s.profile := rfl
@[simp] theorem advanceReader_rextProfile (n : Nat) : (s.advanceReader n).rextProfile = s.rextProfile := rfl
@[simp] theorem advanceReader_level (n : Nat) : (s.advanceReader n).level = s.level := rfl
@[simp] theorem advanceReader_chromaFormat (n : Nat) : (s.advanceReader n).chromaFormat = s.chromaFormat := rfl
@[simp] theorem advanceReader_bitDepth (n : Nat) : (s.advanceReader n).bitDepth = s.bitDepth := rfl
@[simp] theorem advanceReader_nalCount (n : Nat) : (s.advanceReader n).nalCount = s.nalCount := rfl
@[simp] theorem advanceReader_spsSeen (n : Nat) : (s.advanceReader n).spsSeen = s.spsSeen := rfl
@[simp] theorem advanceReader_spsOk (n : Nat) : (s.advanceReader n).spsOk = s.spsOk := rfl
@[simp] theorem advanceReader_lastErr (n : Nat) : (s.advanceReader n).lastErr = s.lastErr := rfl
@[simp] theorem advanceReader_errOff (n : Nat) : (s.advanceReader n).errOff = s.errOff := rfl
@[simp] theorem advanceReader_off (n : Nat) : (s.advanceReader n).off = s.off := rfl
@[simp] theorem advanceReader_nalOff (n : Nat) : (s.advanceReader n).nalOff = s.nalOff := rfl
@[simp] theorem advanceReader_nalLen (n : Nat) : (s.advanceReader n).nalLen = s.nalLen := rfl
@[simp] theorem advanceReader_nalType (n : Nat) : (s.advanceReader n).nalType = s.nalType := rfl
@[simp] theorem advanceReader_scrLen (n : Nat) : (s.advanceReader n).scrLen = s.scrLen := rfl
@[simp] theorem advanceReader_pos (n : Nat) : (s.advanceReader n).pos = s.pos := rfl
@[simp] theorem advanceReader_total (n : Nat) : (s.advanceReader n).total = s.total := rfl
@[simp] theorem advanceReader_nSub (n : Nat) : (s.advanceReader n).nSub = s.nSub := rfl
@[simp] theorem advanceReader_pp (n : Nat) : (s.advanceReader n).pp = s.pp := rfl
@[simp] theorem advanceReader_lp (n : Nat) : (s.advanceReader n).lp = s.lp := rfl
@[simp] theorem advanceReader_c44 (n : Nat) : (s.advanceReader n).c44 = s.c44 := rfl
@[simp] theorem advanceReader_tProfile (n : Nat) : (s.advanceReader n).tProfile = s.tProfile := rfl
@[simp] theorem advanceReader_tRext (n : Nat) : (s.advanceReader n).tRext = s.tRext := rfl
@[simp] theorem advanceReader_tLevel (n : Nat) : (s.advanceReader n).tLevel = s.tLevel := rfl
@[simp] theorem advanceReader_tChroma (n : Nat) : (s.advanceReader n).tChroma = s.tChroma := rfl
@[simp] theorem advanceReader_tDepth (n : Nat) : (s.advanceReader n).tDepth = s.tDepth := rfl
@[simp] theorem advanceReader_buf (n : Nat) : (s.advanceReader n).buf = s.buf := rfl
@[simp] theorem advanceReader_scr (n : Nat) : (s.advanceReader n).scr = s.scr := rfl
@[simp] theorem advanceReader_view (n : Nat) : (s.advanceReader n).view = s.view := rfl
@[simp] theorem advanceReader_reader (n : Nat) : (s.advanceReader n).reader =
    { s.reader with pos := BitVec.ofNat 36 (s.reader.pos.toNat + n) } := rfl
@[simp] theorem advanceReader_viewArg (n : Nat) : (s.advanceReader n).viewArg = s.viewArg := rfl
@[simp] theorem advanceReader_reply (n : Nat) : (s.advanceReader n).reply = s.reply := rfl
@[simp] theorem advanceReader_phase (n : Nat) : (s.advanceReader n).phase = s.phase := rfl
@[simp] theorem advanceReader_epbI (n : Nat) : (s.advanceReader n).epbI = s.epbI := rfl
@[simp] theorem advanceReader_epbK (n : Nat) : (s.advanceReader n).epbK = s.epbK := rfl
@[simp] theorem advanceReader_subI (n : Nat) : (s.advanceReader n).subI = s.subI := rfl
@[simp] theorem advanceReader_cfg (n : Nat) : (s.advanceReader n).cfg = s.cfg := rfl
@[simp] theorem advanceReader_lenWritten (n : Nat) : (s.advanceReader n).lenWritten = s.lenWritten := rfl
@[simp] theorem advanceReader_nswWritten (n : Nat) : (s.advanceReader n).nswWritten = s.nswWritten := rfl
@[simp] theorem advanceReader_host (n : Nat) : (s.advanceReader n).host = s.host := rfl
@[simp] theorem advanceReader_hostData (n : Nat) : (s.advanceReader n).hostData = s.hostData := rfl
@[simp] theorem advanceReader_free (n : Nat) : (s.advanceReader n).free = s.free := rfl

/-! ## `bind` -/

@[simp] theorem bind_status (v : View) : (s.bind v).status = s.status := rfl
@[simp] theorem bind_len (v : View) : (s.bind v).len = s.len := rfl
@[simp] theorem bind_nsw (v : View) : (s.bind v).nsw = s.nsw := rfl
@[simp] theorem bind_valid (v : View) : (s.bind v).valid = s.valid := rfl
@[simp] theorem bind_profile (v : View) : (s.bind v).profile = s.profile := rfl
@[simp] theorem bind_rextProfile (v : View) : (s.bind v).rextProfile = s.rextProfile := rfl
@[simp] theorem bind_level (v : View) : (s.bind v).level = s.level := rfl
@[simp] theorem bind_chromaFormat (v : View) : (s.bind v).chromaFormat = s.chromaFormat := rfl
@[simp] theorem bind_bitDepth (v : View) : (s.bind v).bitDepth = s.bitDepth := rfl
@[simp] theorem bind_nalCount (v : View) : (s.bind v).nalCount = s.nalCount := rfl
@[simp] theorem bind_spsSeen (v : View) : (s.bind v).spsSeen = s.spsSeen := rfl
@[simp] theorem bind_spsOk (v : View) : (s.bind v).spsOk = s.spsOk := rfl
@[simp] theorem bind_lastErr (v : View) : (s.bind v).lastErr = s.lastErr := rfl
@[simp] theorem bind_errOff (v : View) : (s.bind v).errOff = s.errOff := rfl
@[simp] theorem bind_off (v : View) : (s.bind v).off = s.off := rfl
@[simp] theorem bind_nalOff (v : View) : (s.bind v).nalOff = s.nalOff := rfl
@[simp] theorem bind_nalLen (v : View) : (s.bind v).nalLen = s.nalLen := rfl
@[simp] theorem bind_nalType (v : View) : (s.bind v).nalType = s.nalType := rfl
@[simp] theorem bind_scrLen (v : View) : (s.bind v).scrLen = s.scrLen := rfl
@[simp] theorem bind_pos (v : View) : (s.bind v).pos = 0 := rfl
@[simp] theorem bind_total (v : View) : (s.bind v).total = BitVec.ofNat 36 (8 * v.len.toNat) := rfl
@[simp] theorem bind_nSub (v : View) : (s.bind v).nSub = s.nSub := rfl
@[simp] theorem bind_pp (v : View) : (s.bind v).pp = s.pp := rfl
@[simp] theorem bind_lp (v : View) : (s.bind v).lp = s.lp := rfl
@[simp] theorem bind_c44 (v : View) : (s.bind v).c44 = s.c44 := rfl
@[simp] theorem bind_tProfile (v : View) : (s.bind v).tProfile = s.tProfile := rfl
@[simp] theorem bind_tRext (v : View) : (s.bind v).tRext = s.tRext := rfl
@[simp] theorem bind_tLevel (v : View) : (s.bind v).tLevel = s.tLevel := rfl
@[simp] theorem bind_tChroma (v : View) : (s.bind v).tChroma = s.tChroma := rfl
@[simp] theorem bind_tDepth (v : View) : (s.bind v).tDepth = s.tDepth := rfl
@[simp] theorem bind_buf (v : View) : (s.bind v).buf = s.buf := rfl
@[simp] theorem bind_scr (v : View) : (s.bind v).scr = s.scr := rfl
@[simp] theorem bind_view (v : View) : (s.bind v).view = v := rfl
@[simp] theorem bind_reader (v : View) : (s.bind v).reader = s.reader := rfl
@[simp] theorem bind_viewArg (v : View) : (s.bind v).viewArg = s.viewArg := rfl
@[simp] theorem bind_reply (v : View) : (s.bind v).reply = s.reply := rfl
@[simp] theorem bind_phase (v : View) : (s.bind v).phase = s.phase := rfl
@[simp] theorem bind_epbI (v : View) : (s.bind v).epbI = s.epbI := rfl
@[simp] theorem bind_epbK (v : View) : (s.bind v).epbK = s.epbK := rfl
@[simp] theorem bind_subI (v : View) : (s.bind v).subI = s.subI := rfl
@[simp] theorem bind_cfg (v : View) : (s.bind v).cfg = s.cfg := rfl
@[simp] theorem bind_lenWritten (v : View) : (s.bind v).lenWritten = s.lenWritten := rfl
@[simp] theorem bind_nswWritten (v : View) : (s.bind v).nswWritten = s.nswWritten := rfl
@[simp] theorem bind_host (v : View) : (s.bind v).host = s.host := rfl
@[simp] theorem bind_hostData (v : View) : (s.bind v).hostData = s.hostData := rfl
@[simp] theorem bind_free (v : View) : (s.bind v).free = s.free := rfl

/-! ## `answer` -/

@[simp] theorem answer_status (r : BrReply) : (s.answer r).status = s.status := rfl
@[simp] theorem answer_len (r : BrReply) : (s.answer r).len = s.len := rfl
@[simp] theorem answer_nsw (r : BrReply) : (s.answer r).nsw = s.nsw := rfl
@[simp] theorem answer_valid (r : BrReply) : (s.answer r).valid = s.valid := rfl
@[simp] theorem answer_profile (r : BrReply) : (s.answer r).profile = s.profile := rfl
@[simp] theorem answer_rextProfile (r : BrReply) : (s.answer r).rextProfile = s.rextProfile := rfl
@[simp] theorem answer_level (r : BrReply) : (s.answer r).level = s.level := rfl
@[simp] theorem answer_chromaFormat (r : BrReply) : (s.answer r).chromaFormat = s.chromaFormat := rfl
@[simp] theorem answer_bitDepth (r : BrReply) : (s.answer r).bitDepth = s.bitDepth := rfl
@[simp] theorem answer_nalCount (r : BrReply) : (s.answer r).nalCount = s.nalCount := rfl
@[simp] theorem answer_spsSeen (r : BrReply) : (s.answer r).spsSeen = s.spsSeen := rfl
@[simp] theorem answer_spsOk (r : BrReply) : (s.answer r).spsOk = s.spsOk := rfl
@[simp] theorem answer_lastErr (r : BrReply) : (s.answer r).lastErr = s.lastErr := rfl
@[simp] theorem answer_errOff (r : BrReply) : (s.answer r).errOff = s.errOff := rfl
@[simp] theorem answer_off (r : BrReply) : (s.answer r).off = s.off := rfl
@[simp] theorem answer_nalOff (r : BrReply) : (s.answer r).nalOff = s.nalOff := rfl
@[simp] theorem answer_nalLen (r : BrReply) : (s.answer r).nalLen = s.nalLen := rfl
@[simp] theorem answer_nalType (r : BrReply) : (s.answer r).nalType = s.nalType := rfl
@[simp] theorem answer_scrLen (r : BrReply) : (s.answer r).scrLen = s.scrLen := rfl
@[simp] theorem answer_pos (r : BrReply) : (s.answer r).pos = s.pos := rfl
@[simp] theorem answer_total (r : BrReply) : (s.answer r).total = s.total := rfl
@[simp] theorem answer_nSub (r : BrReply) : (s.answer r).nSub = s.nSub := rfl
@[simp] theorem answer_pp (r : BrReply) : (s.answer r).pp = s.pp := rfl
@[simp] theorem answer_lp (r : BrReply) : (s.answer r).lp = s.lp := rfl
@[simp] theorem answer_c44 (r : BrReply) : (s.answer r).c44 = s.c44 := rfl
@[simp] theorem answer_tProfile (r : BrReply) : (s.answer r).tProfile = s.tProfile := rfl
@[simp] theorem answer_tRext (r : BrReply) : (s.answer r).tRext = s.tRext := rfl
@[simp] theorem answer_tLevel (r : BrReply) : (s.answer r).tLevel = s.tLevel := rfl
@[simp] theorem answer_tChroma (r : BrReply) : (s.answer r).tChroma = s.tChroma := rfl
@[simp] theorem answer_tDepth (r : BrReply) : (s.answer r).tDepth = s.tDepth := rfl
@[simp] theorem answer_buf (r : BrReply) : (s.answer r).buf = s.buf := rfl
@[simp] theorem answer_scr (r : BrReply) : (s.answer r).scr = s.scr := rfl
@[simp] theorem answer_view (r : BrReply) : (s.answer r).view = s.view := rfl
@[simp] theorem answer_reader (r : BrReply) : (s.answer r).reader = s.reader := rfl
@[simp] theorem answer_viewArg (r : BrReply) : (s.answer r).viewArg = s.viewArg := rfl
@[simp] theorem answer_reply (r : BrReply) : (s.answer r).reply = r := rfl
@[simp] theorem answer_phase (r : BrReply) : (s.answer r).phase = s.phase := rfl
@[simp] theorem answer_epbI (r : BrReply) : (s.answer r).epbI = s.epbI := rfl
@[simp] theorem answer_epbK (r : BrReply) : (s.answer r).epbK = s.epbK := rfl
@[simp] theorem answer_subI (r : BrReply) : (s.answer r).subI = s.subI := rfl
@[simp] theorem answer_cfg (r : BrReply) : (s.answer r).cfg = s.cfg := rfl
@[simp] theorem answer_lenWritten (r : BrReply) : (s.answer r).lenWritten = s.lenWritten := rfl
@[simp] theorem answer_nswWritten (r : BrReply) : (s.answer r).nswWritten = s.nswWritten := rfl
@[simp] theorem answer_host (r : BrReply) : (s.answer r).host = s.host := rfl
@[simp] theorem answer_hostData (r : BrReply) : (s.answer r).hostData = s.hostData := rfl
@[simp] theorem answer_free (r : BrReply) : (s.answer r).free = s.free := rfl

/-! ## `commit` -/

@[simp] theorem commit_status : (s.commit).status = s.status := rfl
@[simp] theorem commit_len : (s.commit).len = s.len := rfl
@[simp] theorem commit_nsw : (s.commit).nsw = s.nsw := rfl
@[simp] theorem commit_valid : (s.commit).valid = true := rfl
@[simp] theorem commit_profile : (s.commit).profile = s.tProfile := rfl
@[simp] theorem commit_rextProfile : (s.commit).rextProfile = s.tRext := rfl
@[simp] theorem commit_level : (s.commit).level = s.tLevel := rfl
@[simp] theorem commit_chromaFormat : (s.commit).chromaFormat = s.tChroma := rfl
@[simp] theorem commit_bitDepth : (s.commit).bitDepth = s.tDepth := rfl
@[simp] theorem commit_nalCount : (s.commit).nalCount = s.nalCount := rfl
@[simp] theorem commit_spsSeen : (s.commit).spsSeen = s.spsSeen := rfl
@[simp] theorem commit_spsOk : (s.commit).spsOk = s.spsOk := rfl
@[simp] theorem commit_lastErr : (s.commit).lastErr = s.lastErr := rfl
@[simp] theorem commit_errOff : (s.commit).errOff = s.errOff := rfl
@[simp] theorem commit_off : (s.commit).off = s.off := rfl
@[simp] theorem commit_nalOff : (s.commit).nalOff = s.nalOff := rfl
@[simp] theorem commit_nalLen : (s.commit).nalLen = s.nalLen := rfl
@[simp] theorem commit_nalType : (s.commit).nalType = s.nalType := rfl
@[simp] theorem commit_scrLen : (s.commit).scrLen = s.scrLen := rfl
@[simp] theorem commit_pos : (s.commit).pos = s.pos := rfl
@[simp] theorem commit_total : (s.commit).total = s.total := rfl
@[simp] theorem commit_nSub : (s.commit).nSub = s.nSub := rfl
@[simp] theorem commit_pp : (s.commit).pp = s.pp := rfl
@[simp] theorem commit_lp : (s.commit).lp = s.lp := rfl
@[simp] theorem commit_c44 : (s.commit).c44 = s.c44 := rfl
@[simp] theorem commit_tProfile : (s.commit).tProfile = s.tProfile := rfl
@[simp] theorem commit_tRext : (s.commit).tRext = s.tRext := rfl
@[simp] theorem commit_tLevel : (s.commit).tLevel = s.tLevel := rfl
@[simp] theorem commit_tChroma : (s.commit).tChroma = s.tChroma := rfl
@[simp] theorem commit_tDepth : (s.commit).tDepth = s.tDepth := rfl
@[simp] theorem commit_buf : (s.commit).buf = s.buf := rfl
@[simp] theorem commit_scr : (s.commit).scr = s.scr := rfl
@[simp] theorem commit_view : (s.commit).view = s.view := rfl
@[simp] theorem commit_reader : (s.commit).reader = s.reader := rfl
@[simp] theorem commit_viewArg : (s.commit).viewArg = s.viewArg := rfl
@[simp] theorem commit_reply : (s.commit).reply = s.reply := rfl
@[simp] theorem commit_phase : (s.commit).phase = s.phase := rfl
@[simp] theorem commit_epbI : (s.commit).epbI = s.epbI := rfl
@[simp] theorem commit_epbK : (s.commit).epbK = s.epbK := rfl
@[simp] theorem commit_subI : (s.commit).subI = s.subI := rfl
@[simp] theorem commit_cfg : (s.commit).cfg = s.cfg := rfl
@[simp] theorem commit_lenWritten : (s.commit).lenWritten = s.lenWritten := rfl
@[simp] theorem commit_nswWritten : (s.commit).nswWritten = s.nswWritten := rfl
@[simp] theorem commit_host : (s.commit).host = s.host := rfl
@[simp] theorem commit_hostData : (s.commit).hostData = s.hostData := rfl
@[simp] theorem commit_free : (s.commit).free = s.free := rfl

/-! ## `openNal` -/

@[simp] theorem openNal_status (a b : Nat) : (s.openNal a b).status = s.status := rfl
@[simp] theorem openNal_len (a b : Nat) : (s.openNal a b).len = s.len := rfl
@[simp] theorem openNal_nsw (a b : Nat) : (s.openNal a b).nsw = s.nsw := rfl
@[simp] theorem openNal_valid (a b : Nat) : (s.openNal a b).valid = s.valid := rfl
@[simp] theorem openNal_profile (a b : Nat) : (s.openNal a b).profile = s.profile := rfl
@[simp] theorem openNal_rextProfile (a b : Nat) : (s.openNal a b).rextProfile = s.rextProfile := rfl
@[simp] theorem openNal_level (a b : Nat) : (s.openNal a b).level = s.level := rfl
@[simp] theorem openNal_chromaFormat (a b : Nat) : (s.openNal a b).chromaFormat = s.chromaFormat := rfl
@[simp] theorem openNal_bitDepth (a b : Nat) : (s.openNal a b).bitDepth = s.bitDepth := rfl
@[simp] theorem openNal_nalCount (a b : Nat) : (s.openNal a b).nalCount = s.nalCount := rfl
@[simp] theorem openNal_spsSeen (a b : Nat) : (s.openNal a b).spsSeen = s.spsSeen := rfl
@[simp] theorem openNal_spsOk (a b : Nat) : (s.openNal a b).spsOk = s.spsOk := rfl
@[simp] theorem openNal_lastErr (a b : Nat) : (s.openNal a b).lastErr = s.lastErr := rfl
@[simp] theorem openNal_errOff (a b : Nat) : (s.openNal a b).errOff = s.errOff := rfl
@[simp] theorem openNal_off (a b : Nat) : (s.openNal a b).off = s.off := rfl
@[simp] theorem openNal_nalOff (a b : Nat) : (s.openNal a b).nalOff = BitVec.ofNat 32 a := rfl
@[simp] theorem openNal_nalLen (a b : Nat) : (s.openNal a b).nalLen = BitVec.ofNat 32 (b - a) := rfl
@[simp] theorem openNal_nalType (a b : Nat) : (s.openNal a b).nalType = s.nalType := rfl
@[simp] theorem openNal_scrLen (a b : Nat) : (s.openNal a b).scrLen = s.scrLen := rfl
@[simp] theorem openNal_pos (a b : Nat) : (s.openNal a b).pos = s.pos := rfl
@[simp] theorem openNal_total (a b : Nat) : (s.openNal a b).total = s.total := rfl
@[simp] theorem openNal_nSub (a b : Nat) : (s.openNal a b).nSub = s.nSub := rfl
@[simp] theorem openNal_pp (a b : Nat) : (s.openNal a b).pp = s.pp := rfl
@[simp] theorem openNal_lp (a b : Nat) : (s.openNal a b).lp = s.lp := rfl
@[simp] theorem openNal_c44 (a b : Nat) : (s.openNal a b).c44 = s.c44 := rfl
@[simp] theorem openNal_tProfile (a b : Nat) : (s.openNal a b).tProfile = s.tProfile := rfl
@[simp] theorem openNal_tRext (a b : Nat) : (s.openNal a b).tRext = s.tRext := rfl
@[simp] theorem openNal_tLevel (a b : Nat) : (s.openNal a b).tLevel = s.tLevel := rfl
@[simp] theorem openNal_tChroma (a b : Nat) : (s.openNal a b).tChroma = s.tChroma := rfl
@[simp] theorem openNal_tDepth (a b : Nat) : (s.openNal a b).tDepth = s.tDepth := rfl
@[simp] theorem openNal_buf (a b : Nat) : (s.openNal a b).buf = s.buf := rfl
@[simp] theorem openNal_scr (a b : Nat) : (s.openNal a b).scr = s.scr := rfl
@[simp] theorem openNal_view (a b : Nat) : (s.openNal a b).view = s.view := rfl
@[simp] theorem openNal_reader (a b : Nat) : (s.openNal a b).reader = s.reader := rfl
@[simp] theorem openNal_viewArg (a b : Nat) : (s.openNal a b).viewArg = s.viewArg := rfl
@[simp] theorem openNal_reply (a b : Nat) : (s.openNal a b).reply = s.reply := rfl
@[simp] theorem openNal_phase (a b : Nat) : (s.openNal a b).phase = .nalunit := rfl
@[simp] theorem openNal_epbI (a b : Nat) : (s.openNal a b).epbI = s.epbI := rfl
@[simp] theorem openNal_epbK (a b : Nat) : (s.openNal a b).epbK = s.epbK := rfl
@[simp] theorem openNal_subI (a b : Nat) : (s.openNal a b).subI = s.subI := rfl
@[simp] theorem openNal_cfg (a b : Nat) : (s.openNal a b).cfg = s.cfg := rfl
@[simp] theorem openNal_lenWritten (a b : Nat) : (s.openNal a b).lenWritten = s.lenWritten := rfl
@[simp] theorem openNal_nswWritten (a b : Nat) : (s.openNal a b).nswWritten = s.nswWritten := rfl
@[simp] theorem openNal_host (a b : Nat) : (s.openNal a b).host = s.host := rfl
@[simp] theorem openNal_hostData (a b : Nat) : (s.openNal a b).hostData = s.hostData := rfl
@[simp] theorem openNal_free (a b : Nat) : (s.openNal a b).free = s.free := rfl

/-! ## `scrWrite` -/

@[simp] theorem scrWrite_status (i : Nat) (b : Byte) : (s.scrWrite i b).status = s.status := rfl
@[simp] theorem scrWrite_len (i : Nat) (b : Byte) : (s.scrWrite i b).len = s.len := rfl
@[simp] theorem scrWrite_nsw (i : Nat) (b : Byte) : (s.scrWrite i b).nsw = s.nsw := rfl
@[simp] theorem scrWrite_valid (i : Nat) (b : Byte) : (s.scrWrite i b).valid = s.valid := rfl
@[simp] theorem scrWrite_profile (i : Nat) (b : Byte) : (s.scrWrite i b).profile = s.profile := rfl
@[simp] theorem scrWrite_rextProfile (i : Nat) (b : Byte) : (s.scrWrite i b).rextProfile = s.rextProfile := rfl
@[simp] theorem scrWrite_level (i : Nat) (b : Byte) : (s.scrWrite i b).level = s.level := rfl
@[simp] theorem scrWrite_chromaFormat (i : Nat) (b : Byte) : (s.scrWrite i b).chromaFormat = s.chromaFormat := rfl
@[simp] theorem scrWrite_bitDepth (i : Nat) (b : Byte) : (s.scrWrite i b).bitDepth = s.bitDepth := rfl
@[simp] theorem scrWrite_nalCount (i : Nat) (b : Byte) : (s.scrWrite i b).nalCount = s.nalCount := rfl
@[simp] theorem scrWrite_spsSeen (i : Nat) (b : Byte) : (s.scrWrite i b).spsSeen = s.spsSeen := rfl
@[simp] theorem scrWrite_spsOk (i : Nat) (b : Byte) : (s.scrWrite i b).spsOk = s.spsOk := rfl
@[simp] theorem scrWrite_lastErr (i : Nat) (b : Byte) : (s.scrWrite i b).lastErr = s.lastErr := rfl
@[simp] theorem scrWrite_errOff (i : Nat) (b : Byte) : (s.scrWrite i b).errOff = s.errOff := rfl
@[simp] theorem scrWrite_off (i : Nat) (b : Byte) : (s.scrWrite i b).off = s.off := rfl
@[simp] theorem scrWrite_nalOff (i : Nat) (b : Byte) : (s.scrWrite i b).nalOff = s.nalOff := rfl
@[simp] theorem scrWrite_nalLen (i : Nat) (b : Byte) : (s.scrWrite i b).nalLen = s.nalLen := rfl
@[simp] theorem scrWrite_nalType (i : Nat) (b : Byte) : (s.scrWrite i b).nalType = s.nalType := rfl
@[simp] theorem scrWrite_scrLen (i : Nat) (b : Byte) : (s.scrWrite i b).scrLen = s.scrLen := rfl
@[simp] theorem scrWrite_pos (i : Nat) (b : Byte) : (s.scrWrite i b).pos = s.pos := rfl
@[simp] theorem scrWrite_total (i : Nat) (b : Byte) : (s.scrWrite i b).total = s.total := rfl
@[simp] theorem scrWrite_nSub (i : Nat) (b : Byte) : (s.scrWrite i b).nSub = s.nSub := rfl
@[simp] theorem scrWrite_pp (i : Nat) (b : Byte) : (s.scrWrite i b).pp = s.pp := rfl
@[simp] theorem scrWrite_lp (i : Nat) (b : Byte) : (s.scrWrite i b).lp = s.lp := rfl
@[simp] theorem scrWrite_c44 (i : Nat) (b : Byte) : (s.scrWrite i b).c44 = s.c44 := rfl
@[simp] theorem scrWrite_tProfile (i : Nat) (b : Byte) : (s.scrWrite i b).tProfile = s.tProfile := rfl
@[simp] theorem scrWrite_tRext (i : Nat) (b : Byte) : (s.scrWrite i b).tRext = s.tRext := rfl
@[simp] theorem scrWrite_tLevel (i : Nat) (b : Byte) : (s.scrWrite i b).tLevel = s.tLevel := rfl
@[simp] theorem scrWrite_tChroma (i : Nat) (b : Byte) : (s.scrWrite i b).tChroma = s.tChroma := rfl
@[simp] theorem scrWrite_tDepth (i : Nat) (b : Byte) : (s.scrWrite i b).tDepth = s.tDepth := rfl
@[simp] theorem scrWrite_buf (i : Nat) (b : Byte) : (s.scrWrite i b).buf = s.buf := rfl
@[simp] theorem scrWrite_scr (i : Nat) (b : Byte) : (s.scrWrite i b).scr = s.scr.write i b := rfl
@[simp] theorem scrWrite_view (i : Nat) (b : Byte) : (s.scrWrite i b).view = s.view := rfl
@[simp] theorem scrWrite_reader (i : Nat) (b : Byte) : (s.scrWrite i b).reader = s.reader := rfl
@[simp] theorem scrWrite_viewArg (i : Nat) (b : Byte) : (s.scrWrite i b).viewArg = s.viewArg := rfl
@[simp] theorem scrWrite_reply (i : Nat) (b : Byte) : (s.scrWrite i b).reply = s.reply := rfl
@[simp] theorem scrWrite_phase (i : Nat) (b : Byte) : (s.scrWrite i b).phase = s.phase := rfl
@[simp] theorem scrWrite_epbI (i : Nat) (b : Byte) : (s.scrWrite i b).epbI = s.epbI := rfl
@[simp] theorem scrWrite_epbK (i : Nat) (b : Byte) : (s.scrWrite i b).epbK = s.epbK := rfl
@[simp] theorem scrWrite_subI (i : Nat) (b : Byte) : (s.scrWrite i b).subI = s.subI := rfl
@[simp] theorem scrWrite_cfg (i : Nat) (b : Byte) : (s.scrWrite i b).cfg = s.cfg := rfl
@[simp] theorem scrWrite_lenWritten (i : Nat) (b : Byte) : (s.scrWrite i b).lenWritten = s.lenWritten := rfl
@[simp] theorem scrWrite_nswWritten (i : Nat) (b : Byte) : (s.scrWrite i b).nswWritten = s.nswWritten := rfl
@[simp] theorem scrWrite_host (i : Nat) (b : Byte) : (s.scrWrite i b).host = s.host := rfl
@[simp] theorem scrWrite_hostData (i : Nat) (b : Byte) : (s.scrWrite i b).hostData = s.hostData := rfl
@[simp] theorem scrWrite_free (i : Nat) (b : Byte) : (s.scrWrite i b).free = s.free := rfl

/-! ## `nalReturn`: `OFF` and the place only -/

@[simp] theorem nalReturn_status : s.nalReturn.status = s.status := by unfold State.nalReturn; split <;> rfl
@[simp] theorem nalReturn_len : s.nalReturn.len = s.len := by unfold State.nalReturn; split <;> rfl
@[simp] theorem nalReturn_nsw : s.nalReturn.nsw = s.nsw := by unfold State.nalReturn; split <;> rfl
@[simp] theorem nalReturn_valid : s.nalReturn.valid = s.valid := by unfold State.nalReturn; split <;> rfl
@[simp] theorem nalReturn_profile : s.nalReturn.profile = s.profile := by unfold State.nalReturn; split <;> rfl
@[simp] theorem nalReturn_rextProfile : s.nalReturn.rextProfile = s.rextProfile := by unfold State.nalReturn; split <;> rfl
@[simp] theorem nalReturn_level : s.nalReturn.level = s.level := by unfold State.nalReturn; split <;> rfl
@[simp] theorem nalReturn_chromaFormat : s.nalReturn.chromaFormat = s.chromaFormat := by unfold State.nalReturn; split <;> rfl
@[simp] theorem nalReturn_bitDepth : s.nalReturn.bitDepth = s.bitDepth := by unfold State.nalReturn; split <;> rfl
@[simp] theorem nalReturn_nalCount : s.nalReturn.nalCount = s.nalCount := by unfold State.nalReturn; split <;> rfl
@[simp] theorem nalReturn_spsSeen : s.nalReturn.spsSeen = s.spsSeen := by unfold State.nalReturn; split <;> rfl
@[simp] theorem nalReturn_spsOk : s.nalReturn.spsOk = s.spsOk := by unfold State.nalReturn; split <;> rfl
@[simp] theorem nalReturn_lastErr : s.nalReturn.lastErr = s.lastErr := by unfold State.nalReturn; split <;> rfl
@[simp] theorem nalReturn_errOff : s.nalReturn.errOff = s.errOff := by unfold State.nalReturn; split <;> rfl
@[simp] theorem nalReturn_off : s.nalReturn.off =
    if s.nsw = 0 then s.off else BitVec.ofNat 33 (s.off.toNat + s.nsw.toNat + s.nalLen.toNat) := by
  unfold State.nalReturn; split <;> rfl
@[simp] theorem nalReturn_nalOff : s.nalReturn.nalOff = s.nalOff := by unfold State.nalReturn; split <;> rfl
@[simp] theorem nalReturn_nalLen : s.nalReturn.nalLen = s.nalLen := by unfold State.nalReturn; split <;> rfl
@[simp] theorem nalReturn_nalType : s.nalReturn.nalType = s.nalType := by unfold State.nalReturn; split <;> rfl
@[simp] theorem nalReturn_scrLen : s.nalReturn.scrLen = s.scrLen := by unfold State.nalReturn; split <;> rfl
@[simp] theorem nalReturn_pos : s.nalReturn.pos = s.pos := by unfold State.nalReturn; split <;> rfl
@[simp] theorem nalReturn_total : s.nalReturn.total = s.total := by unfold State.nalReturn; split <;> rfl
@[simp] theorem nalReturn_nSub : s.nalReturn.nSub = s.nSub := by unfold State.nalReturn; split <;> rfl
@[simp] theorem nalReturn_pp : s.nalReturn.pp = s.pp := by unfold State.nalReturn; split <;> rfl
@[simp] theorem nalReturn_lp : s.nalReturn.lp = s.lp := by unfold State.nalReturn; split <;> rfl
@[simp] theorem nalReturn_c44 : s.nalReturn.c44 = s.c44 := by unfold State.nalReturn; split <;> rfl
@[simp] theorem nalReturn_tProfile : s.nalReturn.tProfile = s.tProfile := by unfold State.nalReturn; split <;> rfl
@[simp] theorem nalReturn_tRext : s.nalReturn.tRext = s.tRext := by unfold State.nalReturn; split <;> rfl
@[simp] theorem nalReturn_tLevel : s.nalReturn.tLevel = s.tLevel := by unfold State.nalReturn; split <;> rfl
@[simp] theorem nalReturn_tChroma : s.nalReturn.tChroma = s.tChroma := by unfold State.nalReturn; split <;> rfl
@[simp] theorem nalReturn_tDepth : s.nalReturn.tDepth = s.tDepth := by unfold State.nalReturn; split <;> rfl
@[simp] theorem nalReturn_buf : s.nalReturn.buf = s.buf := by unfold State.nalReturn; split <;> rfl
@[simp] theorem nalReturn_scr : s.nalReturn.scr = s.scr := by unfold State.nalReturn; split <;> rfl
@[simp] theorem nalReturn_view : s.nalReturn.view = s.view := by unfold State.nalReturn; split <;> rfl
@[simp] theorem nalReturn_reader : s.nalReturn.reader = s.reader := by unfold State.nalReturn; split <;> rfl
@[simp] theorem nalReturn_viewArg : s.nalReturn.viewArg = s.viewArg := by unfold State.nalReturn; split <;> rfl
@[simp] theorem nalReturn_reply : s.nalReturn.reply = s.reply := by unfold State.nalReturn; split <;> rfl
@[simp] theorem nalReturn_phase : s.nalReturn.phase = .scan := by unfold State.nalReturn; split <;> rfl
@[simp] theorem nalReturn_epbI : s.nalReturn.epbI = s.epbI := by unfold State.nalReturn; split <;> rfl
@[simp] theorem nalReturn_epbK : s.nalReturn.epbK = s.epbK := by unfold State.nalReturn; split <;> rfl
@[simp] theorem nalReturn_subI : s.nalReturn.subI = s.subI := by unfold State.nalReturn; split <;> rfl
@[simp] theorem nalReturn_cfg : s.nalReturn.cfg = s.cfg := by unfold State.nalReturn; split <;> rfl
@[simp] theorem nalReturn_lenWritten : s.nalReturn.lenWritten = s.lenWritten := by unfold State.nalReturn; split <;> rfl
@[simp] theorem nalReturn_nswWritten : s.nalReturn.nswWritten = s.nswWritten := by unfold State.nalReturn; split <;> rfl
@[simp] theorem nalReturn_host : s.nalReturn.host = s.host := by unfold State.nalReturn; split <;> rfl
@[simp] theorem nalReturn_hostData : s.nalReturn.hostData = s.hostData := by unfold State.nalReturn; split <;> rfl
@[simp] theorem nalReturn_free : s.nalReturn.free = s.free := by unfold State.nalReturn; split <;> rfl

/-! ## `gotoSubLayer`: the sub-layer index and the place only -/

@[simp] theorem gotoSubLayer_status (i : Nat) : (s.gotoSubLayer i).status = s.status := by unfold State.gotoSubLayer; split <;> rfl
@[simp] theorem gotoSubLayer_len (i : Nat) : (s.gotoSubLayer i).len = s.len := by unfold State.gotoSubLayer; split <;> rfl
@[simp] theorem gotoSubLayer_nsw (i : Nat) : (s.gotoSubLayer i).nsw = s.nsw := by unfold State.gotoSubLayer; split <;> rfl
@[simp] theorem gotoSubLayer_valid (i : Nat) : (s.gotoSubLayer i).valid = s.valid := by unfold State.gotoSubLayer; split <;> rfl
@[simp] theorem gotoSubLayer_profile (i : Nat) : (s.gotoSubLayer i).profile = s.profile := by unfold State.gotoSubLayer; split <;> rfl
@[simp] theorem gotoSubLayer_rextProfile (i : Nat) : (s.gotoSubLayer i).rextProfile = s.rextProfile := by unfold State.gotoSubLayer; split <;> rfl
@[simp] theorem gotoSubLayer_level (i : Nat) : (s.gotoSubLayer i).level = s.level := by unfold State.gotoSubLayer; split <;> rfl
@[simp] theorem gotoSubLayer_chromaFormat (i : Nat) : (s.gotoSubLayer i).chromaFormat = s.chromaFormat := by unfold State.gotoSubLayer; split <;> rfl
@[simp] theorem gotoSubLayer_bitDepth (i : Nat) : (s.gotoSubLayer i).bitDepth = s.bitDepth := by unfold State.gotoSubLayer; split <;> rfl
@[simp] theorem gotoSubLayer_nalCount (i : Nat) : (s.gotoSubLayer i).nalCount = s.nalCount := by unfold State.gotoSubLayer; split <;> rfl
@[simp] theorem gotoSubLayer_spsSeen (i : Nat) : (s.gotoSubLayer i).spsSeen = s.spsSeen := by unfold State.gotoSubLayer; split <;> rfl
@[simp] theorem gotoSubLayer_spsOk (i : Nat) : (s.gotoSubLayer i).spsOk = s.spsOk := by unfold State.gotoSubLayer; split <;> rfl
@[simp] theorem gotoSubLayer_lastErr (i : Nat) : (s.gotoSubLayer i).lastErr = s.lastErr := by unfold State.gotoSubLayer; split <;> rfl
@[simp] theorem gotoSubLayer_errOff (i : Nat) : (s.gotoSubLayer i).errOff = s.errOff := by unfold State.gotoSubLayer; split <;> rfl
@[simp] theorem gotoSubLayer_off (i : Nat) : (s.gotoSubLayer i).off = s.off := by unfold State.gotoSubLayer; split <;> rfl
@[simp] theorem gotoSubLayer_nalOff (i : Nat) : (s.gotoSubLayer i).nalOff = s.nalOff := by unfold State.gotoSubLayer; split <;> rfl
@[simp] theorem gotoSubLayer_nalLen (i : Nat) : (s.gotoSubLayer i).nalLen = s.nalLen := by unfold State.gotoSubLayer; split <;> rfl
@[simp] theorem gotoSubLayer_nalType (i : Nat) : (s.gotoSubLayer i).nalType = s.nalType := by unfold State.gotoSubLayer; split <;> rfl
@[simp] theorem gotoSubLayer_scrLen (i : Nat) : (s.gotoSubLayer i).scrLen = s.scrLen := by unfold State.gotoSubLayer; split <;> rfl
@[simp] theorem gotoSubLayer_pos (i : Nat) : (s.gotoSubLayer i).pos = s.pos := by unfold State.gotoSubLayer; split <;> rfl
@[simp] theorem gotoSubLayer_total (i : Nat) : (s.gotoSubLayer i).total = s.total := by unfold State.gotoSubLayer; split <;> rfl
@[simp] theorem gotoSubLayer_nSub (i : Nat) : (s.gotoSubLayer i).nSub = s.nSub := by unfold State.gotoSubLayer; split <;> rfl
@[simp] theorem gotoSubLayer_pp (i : Nat) : (s.gotoSubLayer i).pp = s.pp := by unfold State.gotoSubLayer; split <;> rfl
@[simp] theorem gotoSubLayer_lp (i : Nat) : (s.gotoSubLayer i).lp = s.lp := by unfold State.gotoSubLayer; split <;> rfl
@[simp] theorem gotoSubLayer_c44 (i : Nat) : (s.gotoSubLayer i).c44 = s.c44 := by unfold State.gotoSubLayer; split <;> rfl
@[simp] theorem gotoSubLayer_tProfile (i : Nat) : (s.gotoSubLayer i).tProfile = s.tProfile := by unfold State.gotoSubLayer; split <;> rfl
@[simp] theorem gotoSubLayer_tRext (i : Nat) : (s.gotoSubLayer i).tRext = s.tRext := by unfold State.gotoSubLayer; split <;> rfl
@[simp] theorem gotoSubLayer_tLevel (i : Nat) : (s.gotoSubLayer i).tLevel = s.tLevel := by unfold State.gotoSubLayer; split <;> rfl
@[simp] theorem gotoSubLayer_tChroma (i : Nat) : (s.gotoSubLayer i).tChroma = s.tChroma := by unfold State.gotoSubLayer; split <;> rfl
@[simp] theorem gotoSubLayer_tDepth (i : Nat) : (s.gotoSubLayer i).tDepth = s.tDepth := by unfold State.gotoSubLayer; split <;> rfl
@[simp] theorem gotoSubLayer_buf (i : Nat) : (s.gotoSubLayer i).buf = s.buf := by unfold State.gotoSubLayer; split <;> rfl
@[simp] theorem gotoSubLayer_scr (i : Nat) : (s.gotoSubLayer i).scr = s.scr := by unfold State.gotoSubLayer; split <;> rfl
@[simp] theorem gotoSubLayer_view (i : Nat) : (s.gotoSubLayer i).view = s.view := by unfold State.gotoSubLayer; split <;> rfl
@[simp] theorem gotoSubLayer_reader (i : Nat) : (s.gotoSubLayer i).reader = s.reader := by unfold State.gotoSubLayer; split <;> rfl
@[simp] theorem gotoSubLayer_viewArg (i : Nat) : (s.gotoSubLayer i).viewArg = s.viewArg := by unfold State.gotoSubLayer; split <;> rfl
@[simp] theorem gotoSubLayer_reply (i : Nat) : (s.gotoSubLayer i).reply = s.reply := by unfold State.gotoSubLayer; split <;> rfl
@[simp] theorem gotoSubLayer_epbI (i : Nat) : (s.gotoSubLayer i).epbI = s.epbI := by unfold State.gotoSubLayer; split <;> rfl
@[simp] theorem gotoSubLayer_epbK (i : Nat) : (s.gotoSubLayer i).epbK = s.epbK := by unfold State.gotoSubLayer; split <;> rfl
@[simp] theorem gotoSubLayer_cfg (i : Nat) : (s.gotoSubLayer i).cfg = s.cfg := by unfold State.gotoSubLayer; split <;> rfl
@[simp] theorem gotoSubLayer_lenWritten (i : Nat) : (s.gotoSubLayer i).lenWritten = s.lenWritten := by unfold State.gotoSubLayer; split <;> rfl
@[simp] theorem gotoSubLayer_nswWritten (i : Nat) : (s.gotoSubLayer i).nswWritten = s.nswWritten := by unfold State.gotoSubLayer; split <;> rfl
@[simp] theorem gotoSubLayer_host (i : Nat) : (s.gotoSubLayer i).host = s.host := by unfold State.gotoSubLayer; split <;> rfl
@[simp] theorem gotoSubLayer_hostData (i : Nat) : (s.gotoSubLayer i).hostData = s.hostData := by unfold State.gotoSubLayer; split <;> rfl
@[simp] theorem gotoSubLayer_free (i : Nat) : (s.gotoSubLayer i).free = s.free := by unfold State.gotoSubLayer; split <;> rfl

/-! ## `afterPresentFlags`: the sub-layer index and the place only -/

@[simp] theorem afterPresentFlags_status : s.afterPresentFlags.status = s.status := by
  unfold State.afterPresentFlags; split <;> simp
@[simp] theorem afterPresentFlags_len : s.afterPresentFlags.len = s.len := by
  unfold State.afterPresentFlags; split <;> simp
@[simp] theorem afterPresentFlags_nsw : s.afterPresentFlags.nsw = s.nsw := by
  unfold State.afterPresentFlags; split <;> simp
@[simp] theorem afterPresentFlags_valid : s.afterPresentFlags.valid = s.valid := by
  unfold State.afterPresentFlags; split <;> simp
@[simp] theorem afterPresentFlags_profile : s.afterPresentFlags.profile = s.profile := by
  unfold State.afterPresentFlags; split <;> simp
@[simp] theorem afterPresentFlags_rextProfile : s.afterPresentFlags.rextProfile = s.rextProfile := by
  unfold State.afterPresentFlags; split <;> simp
@[simp] theorem afterPresentFlags_level : s.afterPresentFlags.level = s.level := by
  unfold State.afterPresentFlags; split <;> simp
@[simp] theorem afterPresentFlags_chromaFormat : s.afterPresentFlags.chromaFormat = s.chromaFormat := by
  unfold State.afterPresentFlags; split <;> simp
@[simp] theorem afterPresentFlags_bitDepth : s.afterPresentFlags.bitDepth = s.bitDepth := by
  unfold State.afterPresentFlags; split <;> simp
@[simp] theorem afterPresentFlags_nalCount : s.afterPresentFlags.nalCount = s.nalCount := by
  unfold State.afterPresentFlags; split <;> simp
@[simp] theorem afterPresentFlags_spsSeen : s.afterPresentFlags.spsSeen = s.spsSeen := by
  unfold State.afterPresentFlags; split <;> simp
@[simp] theorem afterPresentFlags_spsOk : s.afterPresentFlags.spsOk = s.spsOk := by
  unfold State.afterPresentFlags; split <;> simp
@[simp] theorem afterPresentFlags_lastErr : s.afterPresentFlags.lastErr = s.lastErr := by
  unfold State.afterPresentFlags; split <;> simp
@[simp] theorem afterPresentFlags_errOff : s.afterPresentFlags.errOff = s.errOff := by
  unfold State.afterPresentFlags; split <;> simp
@[simp] theorem afterPresentFlags_off : s.afterPresentFlags.off = s.off := by
  unfold State.afterPresentFlags; split <;> simp
@[simp] theorem afterPresentFlags_nalOff : s.afterPresentFlags.nalOff = s.nalOff := by
  unfold State.afterPresentFlags; split <;> simp
@[simp] theorem afterPresentFlags_nalLen : s.afterPresentFlags.nalLen = s.nalLen := by
  unfold State.afterPresentFlags; split <;> simp
@[simp] theorem afterPresentFlags_nalType : s.afterPresentFlags.nalType = s.nalType := by
  unfold State.afterPresentFlags; split <;> simp
@[simp] theorem afterPresentFlags_scrLen : s.afterPresentFlags.scrLen = s.scrLen := by
  unfold State.afterPresentFlags; split <;> simp
@[simp] theorem afterPresentFlags_pos : s.afterPresentFlags.pos = s.pos := by
  unfold State.afterPresentFlags; split <;> simp
@[simp] theorem afterPresentFlags_total : s.afterPresentFlags.total = s.total := by
  unfold State.afterPresentFlags; split <;> simp
@[simp] theorem afterPresentFlags_nSub : s.afterPresentFlags.nSub = s.nSub := by
  unfold State.afterPresentFlags; split <;> simp
@[simp] theorem afterPresentFlags_pp : s.afterPresentFlags.pp = s.pp := by
  unfold State.afterPresentFlags; split <;> simp
@[simp] theorem afterPresentFlags_lp : s.afterPresentFlags.lp = s.lp := by
  unfold State.afterPresentFlags; split <;> simp
@[simp] theorem afterPresentFlags_c44 : s.afterPresentFlags.c44 = s.c44 := by
  unfold State.afterPresentFlags; split <;> simp
@[simp] theorem afterPresentFlags_tProfile : s.afterPresentFlags.tProfile = s.tProfile := by
  unfold State.afterPresentFlags; split <;> simp
@[simp] theorem afterPresentFlags_tRext : s.afterPresentFlags.tRext = s.tRext := by
  unfold State.afterPresentFlags; split <;> simp
@[simp] theorem afterPresentFlags_tLevel : s.afterPresentFlags.tLevel = s.tLevel := by
  unfold State.afterPresentFlags; split <;> simp
@[simp] theorem afterPresentFlags_tChroma : s.afterPresentFlags.tChroma = s.tChroma := by
  unfold State.afterPresentFlags; split <;> simp
@[simp] theorem afterPresentFlags_tDepth : s.afterPresentFlags.tDepth = s.tDepth := by
  unfold State.afterPresentFlags; split <;> simp
@[simp] theorem afterPresentFlags_buf : s.afterPresentFlags.buf = s.buf := by
  unfold State.afterPresentFlags; split <;> simp
@[simp] theorem afterPresentFlags_scr : s.afterPresentFlags.scr = s.scr := by
  unfold State.afterPresentFlags; split <;> simp
@[simp] theorem afterPresentFlags_view : s.afterPresentFlags.view = s.view := by
  unfold State.afterPresentFlags; split <;> simp
@[simp] theorem afterPresentFlags_reader : s.afterPresentFlags.reader = s.reader := by
  unfold State.afterPresentFlags; split <;> simp
@[simp] theorem afterPresentFlags_viewArg : s.afterPresentFlags.viewArg = s.viewArg := by
  unfold State.afterPresentFlags; split <;> simp
@[simp] theorem afterPresentFlags_reply : s.afterPresentFlags.reply = s.reply := by
  unfold State.afterPresentFlags; split <;> simp
@[simp] theorem afterPresentFlags_epbI : s.afterPresentFlags.epbI = s.epbI := by
  unfold State.afterPresentFlags; split <;> simp
@[simp] theorem afterPresentFlags_epbK : s.afterPresentFlags.epbK = s.epbK := by
  unfold State.afterPresentFlags; split <;> simp
@[simp] theorem afterPresentFlags_cfg : s.afterPresentFlags.cfg = s.cfg := by
  unfold State.afterPresentFlags; split <;> simp
@[simp] theorem afterPresentFlags_lenWritten : s.afterPresentFlags.lenWritten = s.lenWritten := by
  unfold State.afterPresentFlags; split <;> simp
@[simp] theorem afterPresentFlags_nswWritten : s.afterPresentFlags.nswWritten = s.nswWritten := by
  unfold State.afterPresentFlags; split <;> simp
@[simp] theorem afterPresentFlags_host : s.afterPresentFlags.host = s.host := by
  unfold State.afterPresentFlags; split <;> simp
@[simp] theorem afterPresentFlags_hostData : s.afterPresentFlags.hostData = s.hostData := by
  unfold State.afterPresentFlags; split <;> simp
@[simp] theorem afterPresentFlags_free : s.afterPresentFlags.free = s.free := by
  unfold State.afterPresentFlags; split <;> simp

/-! ## `passed`: the cursor and `PP` only -/

/-- What the requests of an unfinished element can have written. -/
theorem passed_frame (e : SpsElem) (bs : Bits) : s.passed e bs = { s with pos := (s.passed e bs).pos, pp := (s.passed e bs).pp } := by
  unfold State.passed
  split <;> (try split) <;> rfl

@[simp] theorem passed_status (e : SpsElem) (bs : Bits) : (s.passed e bs).status = s.status := by rw [passed_frame]
@[simp] theorem passed_len (e : SpsElem) (bs : Bits) : (s.passed e bs).len = s.len := by rw [passed_frame]
@[simp] theorem passed_nsw (e : SpsElem) (bs : Bits) : (s.passed e bs).nsw = s.nsw := by rw [passed_frame]
@[simp] theorem passed_valid (e : SpsElem) (bs : Bits) : (s.passed e bs).valid = s.valid := by rw [passed_frame]
@[simp] theorem passed_profile (e : SpsElem) (bs : Bits) : (s.passed e bs).profile = s.profile := by rw [passed_frame]
@[simp] theorem passed_rextProfile (e : SpsElem) (bs : Bits) : (s.passed e bs).rextProfile = s.rextProfile := by rw [passed_frame]
@[simp] theorem passed_level (e : SpsElem) (bs : Bits) : (s.passed e bs).level = s.level := by rw [passed_frame]
@[simp] theorem passed_chromaFormat (e : SpsElem) (bs : Bits) : (s.passed e bs).chromaFormat = s.chromaFormat := by rw [passed_frame]
@[simp] theorem passed_bitDepth (e : SpsElem) (bs : Bits) : (s.passed e bs).bitDepth = s.bitDepth := by rw [passed_frame]
@[simp] theorem passed_nalCount (e : SpsElem) (bs : Bits) : (s.passed e bs).nalCount = s.nalCount := by rw [passed_frame]
@[simp] theorem passed_spsSeen (e : SpsElem) (bs : Bits) : (s.passed e bs).spsSeen = s.spsSeen := by rw [passed_frame]
@[simp] theorem passed_spsOk (e : SpsElem) (bs : Bits) : (s.passed e bs).spsOk = s.spsOk := by rw [passed_frame]
@[simp] theorem passed_lastErr (e : SpsElem) (bs : Bits) : (s.passed e bs).lastErr = s.lastErr := by rw [passed_frame]
@[simp] theorem passed_errOff (e : SpsElem) (bs : Bits) : (s.passed e bs).errOff = s.errOff := by rw [passed_frame]
@[simp] theorem passed_off (e : SpsElem) (bs : Bits) : (s.passed e bs).off = s.off := by rw [passed_frame]
@[simp] theorem passed_nalOff (e : SpsElem) (bs : Bits) : (s.passed e bs).nalOff = s.nalOff := by rw [passed_frame]
@[simp] theorem passed_nalLen (e : SpsElem) (bs : Bits) : (s.passed e bs).nalLen = s.nalLen := by rw [passed_frame]
@[simp] theorem passed_nalType (e : SpsElem) (bs : Bits) : (s.passed e bs).nalType = s.nalType := by rw [passed_frame]
@[simp] theorem passed_scrLen (e : SpsElem) (bs : Bits) : (s.passed e bs).scrLen = s.scrLen := by rw [passed_frame]
@[simp] theorem passed_total (e : SpsElem) (bs : Bits) : (s.passed e bs).total = s.total := by rw [passed_frame]
@[simp] theorem passed_nSub (e : SpsElem) (bs : Bits) : (s.passed e bs).nSub = s.nSub := by rw [passed_frame]
@[simp] theorem passed_lp (e : SpsElem) (bs : Bits) : (s.passed e bs).lp = s.lp := by rw [passed_frame]
@[simp] theorem passed_c44 (e : SpsElem) (bs : Bits) : (s.passed e bs).c44 = s.c44 := by rw [passed_frame]
@[simp] theorem passed_tProfile (e : SpsElem) (bs : Bits) : (s.passed e bs).tProfile = s.tProfile := by rw [passed_frame]
@[simp] theorem passed_tRext (e : SpsElem) (bs : Bits) : (s.passed e bs).tRext = s.tRext := by rw [passed_frame]
@[simp] theorem passed_tLevel (e : SpsElem) (bs : Bits) : (s.passed e bs).tLevel = s.tLevel := by rw [passed_frame]
@[simp] theorem passed_tChroma (e : SpsElem) (bs : Bits) : (s.passed e bs).tChroma = s.tChroma := by rw [passed_frame]
@[simp] theorem passed_tDepth (e : SpsElem) (bs : Bits) : (s.passed e bs).tDepth = s.tDepth := by rw [passed_frame]
@[simp] theorem passed_buf (e : SpsElem) (bs : Bits) : (s.passed e bs).buf = s.buf := by rw [passed_frame]
@[simp] theorem passed_scr (e : SpsElem) (bs : Bits) : (s.passed e bs).scr = s.scr := by rw [passed_frame]
@[simp] theorem passed_view (e : SpsElem) (bs : Bits) : (s.passed e bs).view = s.view := by rw [passed_frame]
@[simp] theorem passed_reader (e : SpsElem) (bs : Bits) : (s.passed e bs).reader = s.reader := by rw [passed_frame]
@[simp] theorem passed_viewArg (e : SpsElem) (bs : Bits) : (s.passed e bs).viewArg = s.viewArg := by rw [passed_frame]
@[simp] theorem passed_reply (e : SpsElem) (bs : Bits) : (s.passed e bs).reply = s.reply := by rw [passed_frame]
@[simp] theorem passed_phase (e : SpsElem) (bs : Bits) : (s.passed e bs).phase = s.phase := by rw [passed_frame]
@[simp] theorem passed_epbI (e : SpsElem) (bs : Bits) : (s.passed e bs).epbI = s.epbI := by rw [passed_frame]
@[simp] theorem passed_epbK (e : SpsElem) (bs : Bits) : (s.passed e bs).epbK = s.epbK := by rw [passed_frame]
@[simp] theorem passed_subI (e : SpsElem) (bs : Bits) : (s.passed e bs).subI = s.subI := by rw [passed_frame]
@[simp] theorem passed_cfg (e : SpsElem) (bs : Bits) : (s.passed e bs).cfg = s.cfg := by rw [passed_frame]
@[simp] theorem passed_lenWritten (e : SpsElem) (bs : Bits) : (s.passed e bs).lenWritten = s.lenWritten := by rw [passed_frame]
@[simp] theorem passed_nswWritten (e : SpsElem) (bs : Bits) : (s.passed e bs).nswWritten = s.nswWritten := by rw [passed_frame]
@[simp] theorem passed_host (e : SpsElem) (bs : Bits) : (s.passed e bs).host = s.host := by rw [passed_frame]
@[simp] theorem passed_hostData (e : SpsElem) (bs : Bits) : (s.passed e bs).hostData = s.hostData := by rw [passed_frame]
@[simp] theorem passed_free (e : SpsElem) (bs : Bits) : (s.passed e bs).free = s.free := by rw [passed_frame]

/-! ## The two error entries are `record` and a place -/

@[simp] theorem raiseSps_eq (e : Err) : s.raiseSps e = (s.record e s.nalOff).nalReturn := rfl
@[simp] theorem raiseScan_eq (e : Err) (o : BitVec 32) : s.raiseScan e o = (s.record e o).goto .endcall := rfl

end Sys2Proof.Machine
end

