-- ==== Sys2Proof/Laws/Flags.lean ====
section
/-! SUPPORT. What the operations on `STATUS` do to each of its bits. -/

namespace Sys2Proof.Machine

open Sys2Proof

/-- `put` sets its own bit and leaves every other. -/
theorem Status.get_put (w : BitVec 13) (i j : Nat) (b : Bool) (hj : j < 13) :
    (Status.put w i b).getLsbD j = if j = i then b else w.getLsbD j := by
  unfold Status.put
  cases b
  · by_cases h : j = i
    · subst h; simp [hj]
    · simp only [Bool.false_eq_true, if_false, h, BitVec.getLsbD_and, BitVec.getLsbD_not, hj, decide_true, Bool.true_and,
        BitVec.getLsbD_shiftLeft]
      by_cases hlt : j < i
      · simp [hlt]
      · have : ¬ (j - i = 0) := by omega
        simp [hlt, this]
  · by_cases h : j = i
    · subst h; simp [hj]
    · simp only [if_true, h, BitVec.getLsbD_or, BitVec.getLsbD_shiftLeft]
      by_cases hlt : j < i
      · simp [hlt]
      · have : ¬ (j - i = 0) := by omega
        simp [hlt, this]

/-- A started `STATUS`: `BUSY` alone of the fields is set; the reserved bits are kept. -/
theorem Status.get_started (w : BitVec 13) (j : Nat) (hj : j < 13) :
    (Status.started w).getLsbD j =
      if j = 0 then true
      else if j = 1 ∨ j = 2 ∨ 8 ≤ j then false
      else w.getLsbD j := by
  unfold Status.started
  simp only [Status.get_put _ _ _ _ hj, Err.bit, Status.busyBit, Status.doneBit, Status.okBit]
  have : j = 0 ∨ j = 1 ∨ j = 2 ∨ j = 3 ∨ j = 4 ∨ j = 5 ∨ j = 6 ∨ j = 7 ∨ j = 8 ∨ j = 9 ∨ j = 10 ∨ j = 11 ∨ j = 12 := by
    omega
  rcases this with h | h | h | h | h | h | h | h | h | h | h | h | h <;> subst h <;> simp

/-- An ended `STATUS`: `BUSY` cleared, `DONE` set, `OK` as given, every other bit kept. -/
theorem Status.get_ended (w : BitVec 13) (ok : Bool) (j : Nat) (hj : j < 13) :
    (Status.ended w ok).getLsbD j =
      if j = 0 then false else if j = 1 then true else if j = 2 then ok else w.getLsbD j := by
  unfold Status.ended
  simp only [Status.get_put _ _ _ _ hj, Status.busyBit, Status.doneBit, Status.okBit]
  split_ifs <;> simp_all

/-- Every field of `STATUS` is one of its 13 bits. -/
theorem Err.bit_lt (e : Err) : e.bit < 13 := by cases e <;> decide

/-- Recording an error sets its sticky bit and leaves every other bit of `STATUS`. -/
theorem record_statusBit (s : State) (e : Err) (o : BitVec 32) (j : Nat) (hj : j < 13) :
    (s.record e o).status.getLsbD j = if j = e.bit then true else s.status.getLsbD j := by
  rw [record_status, Status.get_put _ _ _ _ hj]

/-- Recording an error is no business of `BUSY`, `DONE` and `OK`. -/
@[simp] theorem record_busy (s : State) (e : Err) (o : BitVec 32) : (s.record e o).busy = s.busy := by
  rw [State.busy, record_statusBit _ _ _ _ (by decide)]; cases e <;> rfl

@[simp] theorem record_done (s : State) (e : Err) (o : BitVec 32) : (s.record e o).done = s.done := by
  rw [State.done, record_statusBit _ _ _ _ (by decide)]; cases e <;> rfl

@[simp] theorem record_ok (s : State) (e : Err) (o : BitVec 32) : (s.record e o).ok = s.ok := by
  rw [State.ok, record_statusBit _ _ _ _ (by decide)]; cases e <;> rfl

/-- A sticky bit after an error: set if it is that error's, else as before. -/
@[simp] theorem record_sticky (s : State) (e e' : Err) (o : BitVec 32) :
    (s.record e o).sticky e' = (decide (e' = e) || s.sticky e') := by
  rw [State.sticky, record_statusBit _ _ _ _ e'.bit_lt, State.sticky]
  cases e <;> cases e' <;> simp [Err.bit]

/-- Recording an error is what `State.Recorded` says. -/
theorem recorded_record (s : State) (e : Err) (o : BitVec 32) : s.Recorded (s.record e o) e.bit e.code o := by
  refine ⟨rfl, fun j hj => ?_⟩
  rw [record_statusBit _ _ _ _ hj]
  by_cases h : j = e.bit <;> simp [h]

/-- The return to the scan loop is what `State.ScanGoesOn` says. -/
theorem scanGoesOn_nalReturn (s : State) : s.ScanGoesOn s.nalReturn := by
  unfold State.ScanGoesOn State.nalReturn
  split
  · exact ⟨rfl, fun _ => rfl, fun h => absurd ‹_› h⟩
  · exact ⟨rfl, fun h => absurd h ‹_›, fun _ => rfl⟩

/-- The start of a call is what `State.CallBegun` says. -/
theorem callBegun_beginCall (s : State) (p : Phase) : s.CallBegun (s.beginCall.goto p) p := by
  refine ⟨rfl, fun j hj => ?_⟩
  change (Status.started s.status).getLsbD j = _
  rw [Status.get_started _ _ hj]

@[simp] theorem nalReturn_busy (s : State) : s.nalReturn.busy = s.busy := by simp [State.busy]
@[simp] theorem nalReturn_done (s : State) : s.nalReturn.done = s.done := by simp [State.done]
@[simp] theorem nalReturn_ok (s : State) : s.nalReturn.ok = s.ok := by simp [State.ok]
@[simp] theorem nalReturn_sticky (s : State) (e : Err) : s.nalReturn.sticky e = s.sticky e := by simp [State.sticky]

/-! ## The fields of `STATUS` under the named updates -/

@[simp] theorem goto_busy (s : State) (p : Phase) : (s.goto p).busy = s.busy := rfl
@[simp] theorem goto_done (s : State) (p : Phase) : (s.goto p).done = s.done := rfl
@[simp] theorem goto_ok (s : State) (p : Phase) : (s.goto p).ok = s.ok := rfl
@[simp] theorem goto_sticky (s : State) (p : Phase) (k : Err) : (s.goto p).sticky k = s.sticky k := rfl
@[simp] theorem openNal_busy (s : State) (a e : Nat) : (s.openNal a e).busy = s.busy := rfl
@[simp] theorem openNal_done (s : State) (a e : Nat) : (s.openNal a e).done = s.done := rfl
@[simp] theorem openNal_ok (s : State) (a e : Nat) : (s.openNal a e).ok = s.ok := rfl
@[simp] theorem openNal_sticky (s : State) (a e : Nat) (k : Err) : (s.openNal a e).sticky k = s.sticky k := rfl
@[simp] theorem scrWrite_busy (s : State) (i : Nat) (b : Byte) : (s.scrWrite i b).busy = s.busy := rfl
@[simp] theorem scrWrite_done (s : State) (i : Nat) (b : Byte) : (s.scrWrite i b).done = s.done := rfl
@[simp] theorem scrWrite_ok (s : State) (i : Nat) (b : Byte) : (s.scrWrite i b).ok = s.ok := rfl
@[simp] theorem scrWrite_sticky (s : State) (i : Nat) (b : Byte) (k : Err) : (s.scrWrite i b).sticky k = s.sticky k := rfl
@[simp] theorem advance_busy (s : State) (n : Nat) : (s.advance n).busy = s.busy := rfl
@[simp] theorem advance_done (s : State) (n : Nat) : (s.advance n).done = s.done := rfl
@[simp] theorem advance_ok (s : State) (n : Nat) : (s.advance n).ok = s.ok := rfl
@[simp] theorem advance_sticky (s : State) (n : Nat) (k : Err) : (s.advance n).sticky k = s.sticky k := rfl
@[simp] theorem bind_busy (s : State) (v : View) : (s.bind v).busy = s.busy := rfl
@[simp] theorem bind_done (s : State) (v : View) : (s.bind v).done = s.done := rfl
@[simp] theorem bind_ok (s : State) (v : View) : (s.bind v).ok = s.ok := rfl
@[simp] theorem bind_sticky (s : State) (v : View) (k : Err) : (s.bind v).sticky k = s.sticky k := rfl
@[simp] theorem answer_busy (s : State) (r : BrReply) : (s.answer r).busy = s.busy := rfl
@[simp] theorem answer_done (s : State) (r : BrReply) : (s.answer r).done = s.done := rfl
@[simp] theorem answer_ok (s : State) (r : BrReply) : (s.answer r).ok = s.ok := rfl
@[simp] theorem answer_sticky (s : State) (r : BrReply) (k : Err) : (s.answer r).sticky k = s.sticky k := rfl
@[simp] theorem commit_busy (s : State) : (s.commit).busy = s.busy := rfl
@[simp] theorem commit_done (s : State) : (s.commit).done = s.done := rfl
@[simp] theorem commit_ok (s : State) : (s.commit).ok = s.ok := rfl
@[simp] theorem commit_sticky (s : State) (k : Err) : (s.commit).sticky k = s.sticky k := rfl
@[simp] theorem gotoSubLayer_busy (s : State) (i : Nat) : (s.gotoSubLayer i).busy = s.busy := by simp [State.busy]
@[simp] theorem gotoSubLayer_done (s : State) (i : Nat) : (s.gotoSubLayer i).done = s.done := by simp [State.done]
@[simp] theorem gotoSubLayer_ok (s : State) (i : Nat) : (s.gotoSubLayer i).ok = s.ok := by simp [State.ok]
@[simp] theorem gotoSubLayer_sticky (s : State) (i : Nat) (k : Err) : (s.gotoSubLayer i).sticky k = s.sticky k := by simp [State.sticky]
@[simp] theorem afterPresentFlags_busy (s : State) : (s.afterPresentFlags).busy = s.busy := by simp [State.busy]
@[simp] theorem afterPresentFlags_done (s : State) : (s.afterPresentFlags).done = s.done := by simp [State.done]
@[simp] theorem afterPresentFlags_ok (s : State) : (s.afterPresentFlags).ok = s.ok := by simp [State.ok]
@[simp] theorem afterPresentFlags_sticky (s : State) (k : Err) : (s.afterPresentFlags).sticky k = s.sticky k := by simp [State.sticky]

/-- A call begins with `BUSY` set, and `DONE`, `OK` and every sticky bit cleared (41_nal_scanner.md R160). -/
@[simp] theorem beginCall_busy (s : State) : s.beginCall.busy = true := by
  rw [State.busy, beginCall_status, Status.get_started _ _ (by decide)]; rfl

@[simp] theorem beginCall_done (s : State) : s.beginCall.done = false := by
  rw [State.done, beginCall_status, Status.get_started _ _ (by decide)]; rfl

@[simp] theorem beginCall_ok (s : State) : s.beginCall.ok = false := by
  rw [State.ok, beginCall_status, Status.get_started _ _ (by decide)]; rfl

@[simp] theorem beginCall_sticky (s : State) (k : Err) : s.beginCall.sticky k = false := by
  rw [State.sticky, beginCall_status, Status.get_started _ _ k.bit_lt]; cases k <;> rfl

end Sys2Proof.Machine
end

