-- ==== Sys2Proof/Laws/Memory.lean ====
section
/-! SUPPORT. The laws of memory: read after write, the canonical form, and what a read of `BUF` or `SCR` answers. -/

namespace Sys2Proof.Machine

open Sys2Proof

/-! ## Read after write -/

@[simp] theorem Memory.read_nil (a : Nat) : Memory.read? [] a = none := rfl

/-- A read of the address just written gives the byte written. -/
@[simp] theorem Memory.read_write_same (m : Memory) (a : Nat) (b : Byte) : (m.write a b).read? a = some b := by
  induction m with
  | nil => simp [Memory.write, Memory.read?]
  | cons c r ih =>
    obtain ⟨x, y⟩ := c
    unfold Memory.write
    split
    · simp [Memory.read?]
    · split
      · simp [Memory.read?]
      · rename_i h1 h2
        have : ¬ x = a := fun h => h2 h.symm
        simp [Memory.read?, this, ih]

/-- A write leaves every other address as it was. -/
theorem Memory.read_write_other (m : Memory) (a a' : Nat) (b : Byte) (h : a' ≠ a) :
    (m.write a b).read? a' = m.read? a' := by
  induction m with
  | nil => simp [Memory.write, Memory.read?, Ne.symm h]
  | cons c r ih =>
    obtain ⟨x, y⟩ := c
    unfold Memory.write
    split
    · simp [Memory.read?, Ne.symm h]
    · split
      · rename_i h1 h2
        subst h2
        simp [Memory.read?, Ne.symm h]
      · simp [Memory.read?, ih]

/-- Both together. -/
theorem Memory.read_write (m : Memory) (a a' : Nat) (b : Byte) :
    (m.write a b).read? a' = if a' = a then some b else m.read? a' := by
  split
  · rename_i h; subst h; simp
  · rename_i h; exact Memory.read_write_other m a a' b h

/-! ## The canonical form -/

/-- Every address of a canonical memory's tail is above its head's. -/
theorem Memory.wf_cons {a : Nat} {b : Byte} {r : Memory} :
    Memory.wf ((a, b) :: r) = true ↔ (∀ c ∈ r.head?, a < c.1) ∧ Memory.wf r = true := by
  cases r with
  | nil => simp [Memory.wf]
  | cons c r => obtain ⟨x, y⟩ := c; simp [Memory.wf]

/-- A write puts the lower of its address and the head's at the head. -/
theorem Memory.head_write (m : Memory) (a : Nat) (b : Byte) :
    ∀ c ∈ (m.write a b).head?, c.1 = a ∨ ∃ d ∈ m.head?, c.1 = d.1 := by
  cases m with
  | nil => simp [Memory.write]
  | cons c r =>
    obtain ⟨x, y⟩ := c
    unfold Memory.write
    split
    · simp
    · split <;> simp

/-- A write keeps the canonical form. -/
theorem Memory.write_wf (m : Memory) (a : Nat) (b : Byte) (h : m.wf = true) : (m.write a b).wf = true := by
  induction m with
  | nil => rfl
  | cons c r ih =>
    obtain ⟨x, y⟩ := c
    obtain ⟨hx, hr⟩ := Memory.wf_cons.1 h
    unfold Memory.write
    split
    · rename_i hlt
      exact Memory.wf_cons.2 ⟨by simpa using hlt, h⟩
    · split
      · rename_i heq
        subst heq
        exact Memory.wf_cons.2 ⟨hx, hr⟩
      · rename_i h1 h2
        refine Memory.wf_cons.2 ⟨?_, ih hr⟩
        intro c hc
        rcases Memory.head_write r a b c hc with hc | ⟨d, hd, hc⟩
        · omega
        · have := hx d hd; omega

/-- Writing a byte string keeps the canonical form. -/
theorem Memory.writeBytes_wf (m : Memory) (o : Nat) (bs : List Byte) (h : m.wf = true) :
    (m.writeBytes o bs).wf = true := by
  induction bs generalizing m o with
  | nil => exact h
  | cons b r ih => exact ih _ _ (Memory.write_wf m o b h)

/-- Addresses below a canonical memory's head are not listed. -/
theorem Memory.read_below (m : Memory) (a : Nat) (h : m.wf = true) (ha : ∀ c ∈ m.head?, a < c.1) :
    m.read? a = none := by
  induction m with
  | nil => rfl
  | cons c r ih =>
    obtain ⟨x, y⟩ := c
    obtain ⟨hx, hr⟩ := Memory.wf_cons.1 h
    have hax : a < x := ha (x, y) (by simp)
    have : ¬ x = a := by omega
    simp only [Memory.read?, this, if_false]
    refine ih hr fun c hc => ?_
    have := hx c hc
    omega

/-- Canonical memories that read the same everywhere are the same data. -/
theorem Memory.ext_of_wf {m n : Memory} (hm : m.wf = true) (hn : n.wf = true)
    (h : ∀ a, m.read? a = n.read? a) : m = n := by
  induction m generalizing n with
  | nil =>
    cases n with
    | nil => rfl
    | cons d r => obtain ⟨x, y⟩ := d; have := h x; simp [Memory.read?] at this
  | cons c r ih =>
    obtain ⟨x, y⟩ := c
    obtain ⟨hx, hr⟩ := Memory.wf_cons.1 hm
    cases n with
    | nil => have := h x; simp [Memory.read?] at this
    | cons d t =>
      obtain ⟨u, v⟩ := d
      obtain ⟨hu, ht⟩ := Memory.wf_cons.1 hn
      have hxu : x = u := by
        rcases Nat.lt_trichotomy x u with hlt | heq | hgt
        · have h1 := h x
          have h2 : Memory.read? ((u, v) :: t) x = none := Memory.read_below _ _ hn (by simpa using hlt)
          rw [h2] at h1; simp [Memory.read?] at h1
        · exact heq
        · have h1 := h u
          have h2 : Memory.read? ((x, y) :: r) u = none := Memory.read_below _ _ hm (by simpa using hgt)
          rw [h2] at h1; simp [Memory.read?] at h1
      subst hxu
      have hyv : y = v := by have := h x; simpa [Memory.read?] using this
      subst hyv
      have : r = t := by
        refine ih hr ht fun a => ?_
        by_cases hax : x = a
        · subst hax
          rw [Memory.read_below r x hr hx, Memory.read_below t x ht hu]
        · have := h a; simpa [Memory.read?, hax] using this
      rw [this]

/-! ## Reads of `BUF` and `SCR` -/

/-- `BUF[i]` answers a byte exactly when `i < LEN` and the byte was written. -/
theorem bufRead_ok_iff (s : State) (i : Nat) (b : Byte) :
    s.bufRead i = .ok b ↔ i < s.len.toNat ∧ s.buf.read? i = some b := by
  unfold State.bufRead
  split
  · rename_i h; cases hr : s.buf.read? i <;> simp [h]
  · rename_i h; simp [h]

/-- `SCR[i]` answers a byte exactly when `i < SCR_LEN` and the byte was written. -/
theorem scrRead_ok_iff (s : State) (i : Nat) (b : Byte) :
    s.scrRead i = .ok b ↔ i < s.scrLen.toNat ∧ s.scr.read? i = some b := by
  unfold State.scrRead
  split
  · rename_i h; cases hr : s.scr.read? i <;> simp [h]
  · rename_i h; simp [h]

/-- A buffer the host has filled can be read at every offset below `LEN`. -/
theorem bufRead_written {s : State} (h : s.BufWritten) {i : Nat} (hi : i < s.len.toNat) :
    ∃ b, s.bufRead i = .ok b ∧ s.buf.read? i = some b := by
  obtain ⟨b, hb⟩ := Option.isSome_iff_exists.1 (h i hi)
  exact ⟨b, (bufRead_ok_iff s i b).2 ⟨hi, hb⟩, hb⟩

/-- Written bytes of `SCR` can be read. -/
theorem scrRead_written {s : State} (h : s.ScrWritten s.scrLen.toNat) {i : Nat} (hi : i < s.scrLen.toNat) :
    ∃ b, s.scrRead i = .ok b ∧ s.scr.read? i = some b := by
  obtain ⟨b, hb⟩ := Option.isSome_iff_exists.1 (h i hi)
  exact ⟨b, (scrRead_ok_iff s i b).2 ⟨hi, hb⟩, hb⟩

/-- A run of bytes inside a filled buffer can be read; it has the length asked for and holds the bytes of `BUF`. -/
theorem bufBytes_written {s : State} (h : s.BufWritten) (n o : Nat) (hn : o + n ≤ s.len.toNat) :
    ∃ bs, s.bufBytes n o = .ok bs ∧ bs.length = n ∧ ∀ k (hk : k < bs.length), s.buf.read? (o + k) = some bs[k] := by
  induction n generalizing o with
  | zero => exact ⟨[], rfl, rfl, fun k hk => absurd hk (by simp)⟩
  | succ n ih =>
    obtain ⟨b, hb, hr⟩ := bufRead_written h (i := o) (by omega)
    obtain ⟨bs, hbs, hlen, hget⟩ := ih (o + 1) (by omega)
    refine ⟨b :: bs, by simp [State.bufBytes, hb, hbs], by simp [hlen], ?_⟩
    intro k hk
    cases k with
    | zero => simpa using hr
    | succ k =>
      have := hget k (by simpa using hk)
      simpa [Nat.add_assoc, Nat.add_comm 1 k] using this

/-- A read of `BUF` depends on `BUF` and `LEN` alone. -/
theorem bufRead_congr {s t : State} (hb : t.buf = s.buf) (hl : t.len = s.len) (i : Nat) : t.bufRead i = s.bufRead i := by
  simp [State.bufRead, hb, hl]

/-- So does a run of bytes. -/
theorem bufBytes_congr {s t : State} (hb : t.buf = s.buf) (hl : t.len = s.len) (n o : Nat) :
    t.bufBytes n o = s.bufBytes n o := by
  induction n generalizing o with
  | zero => rfl
  | succ n ih => simp only [State.bufBytes, bufRead_congr hb hl, ih]

/-- The bytes of a run, one by one. -/
theorem bufBytes_ok_iff (s : State) (n o : Nat) (bs : List Byte) :
    s.bufBytes n o = .ok bs ↔ bs.length = n ∧ ∀ k (hk : k < bs.length), s.bufRead (o + k) = .ok bs[k] := by
  induction n generalizing o bs with
  | zero =>
    rw [State.bufBytes]
    constructor
    · intro h; cases h; exact ⟨rfl, fun k hk => absurd hk (by simp)⟩
    · intro h; rw [List.length_eq_zero_iff.1 h.1]
  | succ n ih =>
    rw [State.bufBytes]
    cases bs with
    | nil =>
      refine ⟨fun h => ?_, fun h => by simp at h⟩
      split at h
      · cases h
      · split at h <;> cases h
    | cons b r =>
      have tail : (∀ k (hk : k < (b :: r).length), s.bufRead (o + k) = .ok (b :: r)[k]) ↔
          s.bufRead o = .ok b ∧ ∀ k (hk : k < r.length), s.bufRead (o + 1 + k) = .ok r[k] := by
        constructor
        · intro h
          refine ⟨h 0 (by simp), fun k hk => ?_⟩
          have := h (k + 1) (by simpa using hk)
          simpa [Nat.add_assoc, Nat.add_comm 1 k] using this
        · rintro ⟨h0, h⟩ k hk
          cases k with
          | zero => exact h0
          | succ k =>
            have := h k (by simpa using hk)
            simpa [Nat.add_assoc, Nat.add_comm 1 k] using this
      rw [tail, List.length_cons, Nat.add_right_cancel_iff]
      have ih' := ih (o + 1) r
      cases hb : s.bufRead o with
      | error f => simp
      | ok b' =>
        simp only [Except.ok.injEq]
        cases hbs : s.bufBytes n (o + 1) with
        | error f =>
          rw [hbs] at ih'
          simp only [reduceCtorEq, false_iff] at ih' ⊢
          exact fun h => ih' ⟨h.1, h.2.2⟩
        | ok r' =>
          rw [hbs] at ih'
          simp only [Except.ok.injEq, List.cons.injEq] at ih' ⊢
          rw [ih']
          tauto

end Sys2Proof.Machine
end

