-- ==== Sys2Proof/Laws/Operands.lean ====
section
/-! SUPPORT. What the operand forms answer: the start-code search, the bits of a view, and the code at the cursor. -/

namespace Sys2Proof.Machine

open Sys2Proof

/-! ## The start-code search (41_nal_scanner.md R165) -/

/-- The test at one offset inside the buffer answers whether a start code stands there. -/
theorem startCodeAt_ok {s : State} {j : Nat} {b : Bool} (hj : j + 2 < s.len.toNat) (h : s.startCodeAt j = .ok b) :
    b = true ↔ s.IsStartCode j := by
  unfold State.startCodeAt at h
  unfold State.IsStartCode
  cases h0 : s.bufRead j with
  | error f => simp [h0] at h
  | ok b0 =>
    have r0 := ((bufRead_ok_iff s j b0).1 h0).2
    simp only [h0] at h
    by_cases z0 : b0 = 0
    · subst z0
      simp only [ne_eq, not_true_eq_false, if_false] at h
      cases h1 : s.bufRead (j + 1) with
      | error f => simp [h1] at h
      | ok b1 =>
        have r1 := ((bufRead_ok_iff s (j + 1) b1).1 h1).2
        simp only [h1] at h
        by_cases z1 : b1 = 0
        · subst z1
          simp only [not_true_eq_false, if_false] at h
          cases h2 : s.bufRead (j + 2) with
          | error f => simp [h2] at h
          | ok b2 =>
            have r2 := ((bufRead_ok_iff s (j + 2) b2).1 h2).2
            simp only [h2, Except.ok.injEq] at h
            subst h
            simp [r0, r1, r2, hj]
        · simp only [z1, not_false_eq_true, if_true, Except.ok.injEq] at h
          subst h
          refine ⟨(fun h => nomatch h), fun ⟨_, _, h, _⟩ => ?_⟩
          rw [r1] at h
          exact absurd (Option.some.inj h) z1
    · simp only [ne_eq, z0, not_false_eq_true, if_true, Except.ok.injEq] at h
      subst h
      refine ⟨(fun h => nomatch h), fun ⟨_, h, _, _⟩ => ?_⟩
      rw [r0] at h
      exact absurd (Option.some.inj h) z0

/-- In a filled buffer the test is always answered. -/
theorem startCodeAt_written {s : State} (hw : s.BufWritten) {j : Nat} (hj : j + 2 < s.len.toNat) :
    ∃ b, s.startCodeAt j = .ok b := by
  obtain ⟨b0, h0, -⟩ := bufRead_written hw (i := j) (by omega)
  obtain ⟨b1, h1, -⟩ := bufRead_written hw (i := j + 1) (by omega)
  obtain ⟨b2, h2, -⟩ := bufRead_written hw (i := j + 2) hj
  unfold State.startCodeAt
  simp only [h0, h1, h2]
  split <;> [exact ⟨_, rfl⟩; split <;> exact ⟨_, rfl⟩]

/-- What a bounded search answers. -/
theorem findScFrom_spec (s : State) (fuel j : Nat) :
    (∃ f, s.findScFrom fuel j = .error f ∧ ¬ s.BufWritten) ∨
    (∃ i, s.findScFrom fuel j = .ok (some i) ∧ s.FirstStartCode j i) ∨
    (s.findScFrom fuel j = .ok none ∧ ∀ k, j ≤ k → k < j + fuel → ¬ s.IsStartCode k) := by
  induction fuel generalizing j with
  | zero => exact .inr (.inr ⟨rfl, fun k h1 h2 => by omega⟩)
  | succ fuel ih =>
    unfold State.findScFrom
    by_cases hj : j + 2 < s.len.toNat
    · simp only [hj, if_true]
      cases hs : s.startCodeAt j with
      | error f =>
        refine .inl ⟨f, rfl, fun hw => ?_⟩
        obtain ⟨b, hb⟩ := startCodeAt_written hw hj
        rw [hb] at hs; cases hs
      | ok b =>
        have hb := startCodeAt_ok hj hs
        cases b with
        | true => exact .inr (.inl ⟨j, rfl, by omega, hb.1 rfl, fun k h1 h2 => by omega⟩)
        | false =>
          have hn : ¬ s.IsStartCode j := fun h => by have := hb.2 h; cases this
          rcases ih (j + 1) with ⟨f, h, hw⟩ | ⟨i, h, h1, h2, h3⟩ | ⟨h, h1⟩
          · exact .inl ⟨f, h, hw⟩
          · refine .inr (.inl ⟨i, h, by omega, h2, fun k hk hki => ?_⟩)
            rcases Nat.lt_or_ge j k with hlt | hge
            · exact h3 k hlt hki
            · have : k = j := by omega
              subst this; exact hn
          · refine .inr (.inr ⟨h, fun k hk hkf => ?_⟩)
            rcases Nat.lt_or_ge j k with hlt | hge
            · exact h1 k hlt (by omega)
            · have : k = j := by omega
              subst this; exact hn
    · simp only [hj, if_false]
      refine .inr (.inr ⟨trivial, fun k hk _ hsc => hj ?_⟩)
      have := hsc.1
      omega

/-- `find_sc` answers the first start code, or that there is none; it can fault only where the host has not filled the
buffer. -/
theorem findSc_spec (s : State) (j : Nat) :
    (∃ f, s.findSc j = .error f ∧ ¬ s.BufWritten) ∨
    (∃ i, s.findSc j = .ok (some i) ∧ s.FirstStartCode j i) ∨
    (s.findSc j = .ok none ∧ ∀ k, j ≤ k → ¬ s.IsStartCode k) := by
  rcases findScFrom_spec s s.len.toNat j with h | h | ⟨h, hn⟩
  · exact .inl h
  · exact .inr (.inl h)
  · refine .inr (.inr ⟨h, fun k hk hsc => hn k hk ?_ hsc⟩)
    have := hsc.1
    omega

/-- A start code that is found lies inside the buffer, at or after the place the search began. -/
theorem findSc_some {s : State} {j i : Nat} (h : s.findSc j = .ok (some i)) :
    s.FirstStartCode j i := by
  rcases findSc_spec s j with ⟨f, h', -⟩ | ⟨k, h', hk⟩ | ⟨h', -⟩
  · rw [h] at h'; cases h'
  · rw [h] at h'; cases h'; exact hk
  · rw [h] at h'; cases h'

theorem findSc_none {s : State} {j : Nat} (h : s.findSc j = .ok none) : ∀ k, j ≤ k → ¬ s.IsStartCode k := by
  rcases findSc_spec s j with ⟨f, h', -⟩ | ⟨k, h', -⟩ | ⟨h', hn⟩
  · rw [h] at h'; cases h'
  · rw [h] at h'; cases h'
  · exact hn

/-- In a filled buffer the search is always answered. -/
theorem findSc_written {s : State} (hw : s.BufWritten) (j : Nat) : ∃ r, s.findSc j = .ok r := by
  rcases findSc_spec s j with ⟨f, -, h⟩ | ⟨i, h, -⟩ | ⟨h, -⟩
  · exact absurd hw h
  · exact ⟨_, h⟩
  · exact ⟨_, h⟩

/-- Between the place a search began and the start code it found, a search finds the same one. -/
theorem findSc_between {s : State} (hw : s.BufWritten) {j k i : Nat} (h : s.findSc j = .ok (some i)) (hjk : j ≤ k)
    (hki : k ≤ i) : s.findSc k = .ok (some i) := by
  obtain ⟨h1, h2, h3⟩ := findSc_some h
  rcases findSc_spec s k with ⟨f, -, h'⟩ | ⟨i', h', hi1, hi2, hi3⟩ | ⟨h', hn⟩
  · exact absurd hw h'
  · have : i' = i := by
      rcases Nat.lt_trichotomy i' i with hlt | heq | hgt
      · exact absurd hi2 (h3 i' (by omega) hlt)
      · exact heq
      · exact absurd h2 (hi3 i hki hgt)
    subst this; exact h'
  · exact absurd h2 (hn i hki)

/-- `find_sc` looks at nothing but `BUF` and `LEN`. -/
theorem findSc_congr {s t : State} (hb : t.buf = s.buf) (hl : t.len = s.len) (j : Nat) : t.findSc j = s.findSc j := by
  have hr : ∀ i, t.bufRead i = s.bufRead i := fun i => by simp [State.bufRead, hb, hl]
  have hs : ∀ i, t.startCodeAt i = s.startCodeAt i := fun i => by simp [State.startCodeAt, hr]
  have : ∀ fuel i, t.findScFrom fuel i = s.findScFrom fuel i := by
    intro fuel
    induction fuel with
    | zero => intro i; rfl
    | succ fuel ih => intro i; simp [State.findScFrom, hl, hs, ih]
  simp [State.findSc, hl, this]

/-- In a filled buffer the search finds the least start code. -/
theorem findSc_first {s : State} (hw : s.BufWritten) {f j : Nat} (h : s.FirstStartCode f j) :
    s.findSc f = .ok (some j) := by
  obtain ⟨a1, a2, a3⟩ := h
  rcases findSc_spec s f with ⟨g, -, hn⟩ | ⟨i, hi, h1, h2, h3⟩ | ⟨-, hn⟩
  · exact absurd hw hn
  · rw [hi]
    rcases Nat.lt_trichotomy i j with hlt | heq | hgt
    · exact absurd h2 (a3 i h1 hlt)
    · rw [heq]
    · exact absurd a2 (h3 j a1 hgt)
  · exact absurd a2 (hn j a1)

/-- In a filled buffer without a start code from `f` on the search finds none. -/
theorem findSc_absent {s : State} (hw : s.BufWritten) {f : Nat} (h : ∀ k, f ≤ k → ¬ s.IsStartCode k) :
    s.findSc f = .ok none := by
  rcases findSc_spec s f with ⟨g, -, hn⟩ | ⟨i, -, h1, h2, -⟩ | ⟨h, -⟩
  · exact absurd hw hn
  · exact absurd h2 (h i h1)
  · exact h

/-! ## Bits of a view -/

/-- One bit more. -/
theorem viewBits_succ (s : State) (n p : Nat) : s.viewBits (n + 1) p =
    match s.viewBit p with
    | .error f => ([], some f)
    | .ok b => (b :: (s.viewBits n (p + 1)).1, (s.viewBits n (p + 1)).2) := rfl

/-- Bits known one by one, and what follows them. -/
theorem viewBits_known {s : State} {p : Nat} {bs : Bits}
    (h : ∀ k (hk : k < bs.length), s.viewBit (p + k) = .ok bs[k]) (m : Nat) :
    s.viewBits (bs.length + m) p = (bs ++ (s.viewBits m (p + bs.length)).1, (s.viewBits m (p + bs.length)).2) := by
  induction bs generalizing p with
  | nil => simp
  | cons b r ih =>
    have h0 : s.viewBit p = .ok b := h 0 (by simp)
    rw [List.length_cons, show r.length + 1 + m = (r.length + m) + 1 by omega, viewBits_succ, h0, ih (p := p + 1)]
    · simp [show p + 1 + r.length = p + (r.length + 1) by omega]
    · intro k hk
      have := h (k + 1) (by simpa using hk)
      simpa [show p + 1 + k = p + (k + 1) by omega] using this

/-- The bits at the cursor head every window that has room for them. -/
theorem window_known {s : State} {bs : Bits} (h : s.CursorAt bs) {n : Nat} (hn : bs.length ≤ n) :
    ∃ r, (s.window n).1 = bs ++ r := by
  obtain ⟨m, hm⟩ : ∃ m, min n s.remain = bs.length + m := ⟨min n s.remain - bs.length, by have := h.1; omega⟩
  rw [State.window, hm, viewBits_known h.2]
  exact ⟨_, rfl⟩

/-- A window of just the bits at the cursor. -/
theorem window_exact {s : State} {bs : Bits} (h : s.CursorAt bs) : s.window bs.length = (bs, none) := by
  have := viewBits_known h.2 0
  simpa [State.window, Nat.min_eq_left h.1, State.viewBits] using this

/-- The bits of a view are as many as asked for, unless a byte cannot be read. -/
theorem viewBits_length (s : State) (n p : Nat) (h : (s.viewBits n p).2 = none) : (s.viewBits n p).1.length = n := by
  induction n generalizing p with
  | zero => rfl
  | succ n ih =>
    unfold State.viewBits at h ⊢
    cases hb : s.viewBit p with
    | error f => simp [hb] at h
    | ok b => simp only [hb] at h ⊢; simp [ih (p + 1) h]

/-- A view over written bytes of `SCR` can be read throughout. -/
theorem viewBits_scr {s : State} (hb : s.view.base = 0) (hw : s.ScrWritten s.scrLen.toNat)
    (n p : Nat) (h : p + n ≤ 8 * s.scrLen.toNat) : (s.viewBits n p).2 = none := by
  induction n generalizing p with
  | zero => rfl
  | succ n ih =>
    obtain ⟨b, hrd, -⟩ := scrRead_written hw (i := p / 8) (by omega)
    have hv : s.viewBit p = .ok (b.getLsbD (7 - p % 8)) := by
      simp [State.viewBit, State.viewByte, hb, hrd]
    unfold State.viewBits
    rw [hv]
    exact ih (p + 1) (by omega)

/-- The bits at the cursor of a view over written bytes of `SCR`: as many as are wanted and left. -/
theorem window_scr {s : State} (hv : s.view = { base := 0, len := s.scrLen })
    (hw : s.ScrWritten s.scrLen.toNat) (hc : s.pos.toNat ≤ s.total.toNat) (ht : s.total.toNat = 8 * s.view.len.toNat)
    (n : Nat) : (s.window n).2 = none ∧ (s.window n).1.length = min n s.remain := by
  have h2 : (s.window n).2 = none := by
    refine viewBits_scr (by rw [hv]) hw _ _ ?_
    rw [hv] at ht
    simp only [State.remain] at *
    omega
  exact ⟨h2, viewBits_length s _ _ h2⟩

/-! ## The code at the cursor -/

/-- What an SPS element decodes to: an instruction of that element, or one of the bit reader's two errors. -/
theorem decodeSps_cases (c : Cfg) (e : SpsElem) (bs : Bits) :
    (∃ m, decodeSps e bs = .error (.exhausted m)) ∨ decodeSps e bs = .error .malformedCode ∨
    ∃ i rest, decodeSps e bs = .ok (i, rest) ∧ i.fmt = .sps e ∧ i.wf c = true := by
  cases e
  case generalConstraintBlock =>
    simp only [decodeSps]
    rcases withU_cases 32 bs _ with ⟨-, h⟩ | ⟨-, h⟩
    · left; exact ⟨_, h⟩
    · rw [h]
      rcases withU_cases 12 (bs.drop 32) _ with ⟨-, h⟩ | ⟨-, h⟩
      · left; exact ⟨_, h⟩
      · rw [h]; exact .inr (.inr ⟨_, _, rfl, rfl, rfl⟩)
  case subLayerPresentFlags =>
    simp only [decodeSps]
    rcases withU_cases 1 bs _ with ⟨-, h⟩ | ⟨-, h⟩
    · left; exact ⟨_, h⟩
    · rw [h]
      rcases withU_cases 1 (bs.drop 1) _ with ⟨-, h⟩ | ⟨-, h⟩
      · left; exact ⟨_, h⟩
      · rw [h]; exact .inr (.inr ⟨_, _, rfl, rfl, rfl⟩)
  case conformanceWindowOffsets =>
    simp only [decodeSps]
    rcases withUe_cases bs _ with h | h | ⟨e1, r1, h, -, h1⟩
    · left; exact h
    · right; left; exact h
    · rw [h]
      rcases withUe_cases r1 _ with h | h | ⟨e2, r2, h, -, h2⟩
      · left; exact h
      · right; left; exact h
      · rw [h]
        rcases withUe_cases r2 _ with h | h | ⟨e3, r3, h, -, h3⟩
        · left; exact h
        · right; left; exact h
        · rw [h]
          rcases withUe_cases r3 _ with h | h | ⟨e4, r4, h, -, h4⟩
          · left; exact h
          · right; left; exact h
          · rw [h]; exact .inr (.inr ⟨_, _, rfl, rfl, by simp [Instr.wf, h1, h2, h3, h4]⟩)
  all_goals simp only [decodeSps]
  all_goals
    first
    | (rcases withU_cases _ bs _ with ⟨-, h⟩ | ⟨-, h⟩
       · left; exact ⟨_, h⟩
       · rw [h]; exact .inr (.inr ⟨_, _, rfl, rfl, rfl⟩))
    | (rcases withUe_cases bs _ with h | h | ⟨e1, r1, h, -, h1⟩
       · left; exact h
       · right; left; exact h
       · rw [h]; exact .inr (.inr ⟨_, _, rfl, rfl, h1⟩))

/-- What the engine meets at an SPS element of written bytes: an instruction of that element, or an error of the bit
reader; never a fault and never anything undecodable. -/
theorem codeAt_sps {s : State} (hv : s.view = { base := 0, len := s.scrLen })
    (hw : s.ScrWritten s.scrLen.toNat) (hc : s.pos.toNat ≤ s.total.toNat) (ht : s.total.toNat = 8 * s.view.len.toNat)
    (e : SpsElem) :
    (s.codeAt e = .raises .bitstreamExhausted) ∨ (s.codeAt e = .raises .malformedCode) ∨
    ∃ i, s.codeAt e = .found i ∧ i.fmt = .sps e ∧ i.wf s.cfg = true := by
  obtain ⟨h2, -⟩ := window_scr hv hw hc ht (maxBits e)
  unfold State.codeAt
  simp only [decode]
  rcases decodeSps_cases s.cfg e (s.elementBits e) with ⟨m, h⟩ | h | ⟨i, rest, h, hf, hwf⟩
  · left; simp only [h, h2]
  · right; left; simp only [h]
  · right; right; exact ⟨i, by simp only [h], hf, hwf⟩

/-! ## The requests of an unfinished element -/

/-- No more bits of complete codes than there are bits. -/
theorem completeCodes_le (n : Nat) (bs : Bits) : completeCodes n bs ≤ bs.length := by
  induction n generalizing bs with
  | zero => exact Nat.zero_le _
  | succ n ih =>
    unfold completeCodes
    rcases takeUe_cases bs with ⟨m, h⟩ | h | ⟨c, r, h, hb, -⟩
    · rw [h]; exact Nat.zero_le _
    · rw [h]; exact Nat.zero_le _
    · have := ih r
      rw [h, hb]
      simp only [List.length_append, UeCode.bits_length, ueLength]
      omega

/-- The codes that are complete are the leading ones. -/
theorem completeCodes_codes (cs : List UeCode) (rest : Bits) (n : Nat) (hn : cs.length ≤ n) (hw : ∀ c ∈ cs, c.wf = true)
    (hr : ∀ c r, takeUe rest ≠ .ok (c, r)) :
    completeCodes n ((cs.map UeCode.bits).flatten ++ rest) = ((cs.map UeCode.bits).flatten).length := by
  induction cs generalizing n with
  | nil =>
    cases n with
    | zero => rfl
    | succ n =>
      simp only [List.map_nil, List.flatten_nil, List.nil_append, List.length_nil, completeCodes]
      cases h : takeUe rest with
      | ok p => exact absurd h (hr p.1 p.2)
      | error r => rfl
  | cons c cs ih =>
    cases n with
    | zero => simp at hn
    | succ n =>
      have hc : c.wf = true := hw c (by simp)
      have := ih n (by simpa using hn) (fun d hd => hw d (by simp [hd]))
      simp only [List.map_cons, List.flatten_cons, List.append_assoc, List.length_append]
      rw [completeCodes, takeUe_bits c _ hc]
      simp only [this, UeCode.bits_length, ueLength]

/-- The cursor moves over known bits only, so it stays where it can be, and never back. -/
theorem passed_pos {s : State} (e : SpsElem) {bs : Bits} (h : bs.length ≤ s.remain) :
    s.pos.toNat ≤ (s.passed e bs).pos.toNat ∧ (s.passed e bs).pos.toNat ≤ s.pos.toNat + bs.length := by
  have ht : s.total.toNat < 2 ^ 36 := s.total.isLt
  have adv : ∀ n ≤ bs.length, s.pos.toNat ≤ (s.advance n).pos.toNat ∧ (s.advance n).pos.toNat ≤ s.pos.toNat + bs.length := by
    intro n hn
    have hp : s.pos.toNat < 2 ^ 36 := s.pos.isLt
    simp only [State.advance, State.remain, BitVec.toNat_ofNat] at *
    by_cases hz : n = 0
    · subst hz; simp only [Nat.add_zero, Nat.mod_eq_of_lt hp]; omega
    · rw [Nat.mod_eq_of_lt (by omega)]; omega
  have same : s.pos.toNat ≤ s.pos.toNat ∧ s.pos.toNat ≤ s.pos.toNat + bs.length := by omega
  unfold State.passed
  split
  · split
    · exact same
    · exact adv 32 (by omega)
  · split
    · exact same
    · exact adv 1 (by simp)
  · exact adv _ (completeCodes_le 3 bs)
  · exact same

/-! ## One request after another -/

/-- Two requests with room for both advance the cursor by both. -/
theorem advance_advance {s : State} {a b : Nat} (h : a + b ≤ s.remain) : (s.advance a).advance b = s.advance (a + b) := by
  have ht : s.total.toNat < 2 ^ 36 := s.total.isLt
  have hp : s.pos.toNat < 2 ^ 36 := s.pos.isLt
  simp only [State.advance, State.remain, BitVec.toNat_ofNat] at *
  have : (s.pos.toNat + a) % 2 ^ 36 = s.pos.toNat + a := Nat.mod_eq_of_lt (by omega)
  rw [this, Nat.add_assoc]

/-- What is left after a request. -/
theorem remain_advance {s : State} {a : Nat} (h : a ≤ s.remain) : (s.advance a).remain = s.remain - a := by
  have ht : s.total.toNat < 2 ^ 36 := s.total.isLt
  have hp : s.pos.toNat < 2 ^ 36 := s.pos.isLt
  simp only [State.advance, State.remain, BitVec.toNat_ofNat] at *
  by_cases hz : a = 0
  · subst hz; rw [Nat.add_zero, Nat.mod_eq_of_lt hp]; omega
  · rw [Nat.mod_eq_of_lt (by omega)]; omega

/-- Each flag of `PP` and `LP` is written alone. -/
theorem getLsbD_putFlag (f : BitVec 7) (i k : Nat) (b : BitVec 1) (hk : k < 7) :
    (putFlag f i b).getLsbD k = if k = i then decide (b = 1) else f.getLsbD k := by
  unfold putFlag
  by_cases hb : b = 1 <;> by_cases hki : k = i
  · subst hki; simp [hb, hk]
  · simp only [hb, if_true, hki, if_false, BitVec.getLsbD_or, BitVec.getLsbD_shiftLeft, hk]
    rcases Nat.lt_or_ge k i with h | h
    · simp [h]
    · have : (1#7).getLsbD (k - i) = false := by
        rw [BitVec.getLsbD_one]; simp; omega
      simp [this]
  · subst hki; rw [if_neg hb, if_pos rfl]; simp [hk]; simpa using hb
  · simp only [hb, if_false, hki, BitVec.getLsbD_and, BitVec.getLsbD_not, BitVec.getLsbD_shiftLeft, hk]
    rcases Nat.lt_or_ge k i with h | h
    · simp [h]
    · have : (1#7).getLsbD (k - i) = false := by
        rw [BitVec.getLsbD_one]; simp; omega
      simp [this]

end Sys2Proof.Machine
end

