-- ==== Sys2Proof/Laws/Engine.lean ====
section
/-! SUPPORT. What one step of the engine can do, said once: every next state of a step without a host access is one of the
cases of `EngineStep`. -/

namespace Sys2Proof.Machine

open Sys2Proof

/-- The cases of an engine step: the place it starts from, the guards, and the state after it. -/
inductive EngineStep (s : State) : State → Prop where
  | idle (h : s.phase = .idle) : EngineStep s s
  | parsenals (h : s.phase = .parsenals) (hn : s.nsw.toNat ≤ 4) : EngineStep s (s.beginCall.goto .scan)
  | scNone (h : s.phase = .scan ∧ s.nsw = 0 ∨ s.phase = .delim) (hf : s.findSc s.off.toNat = .ok none) :
      EngineStep s (s.goto .endcall)
  | scLast (h : s.phase = .scan) (hm : s.nsw = 0) (i : Nat) (hf : s.findSc s.off.toNat = .ok (some i))
      (hn : s.findSc (i + 3) = .ok none) :
      EngineStep s ({ s with off := BitVec.ofNat 33 (i + 3) }.openNal (i + 3) s.len.toNat)
  | scNext (h : s.phase = .scan) (hm : s.nsw = 0) (i j : Nat) (hf : s.findSc s.off.toNat = .ok (some i))
      (hn : s.findSc (i + 3) = .ok (some j)) :
      EngineStep s ({ s with off := BitVec.ofNat 33 (i + 3) }.goto .delim)
  | close (h : s.phase = .delim) (j e : Nat) (hf : s.findSc s.off.toNat = .ok (some j))
      (he : e = j ∨ s.off.toNat < j ∧ s.buf.read? (j - 1) = some 0 ∧ e = j - 1) : EngineStep s (s.openNal s.off.toNat e)
  | lpEnd (h : s.phase = .scan) (hm : s.nsw ≠ 0) (hm4 : s.nsw.toNat ≤ 4) (ho : s.len.toNat ≤ s.off.toNat) :
      EngineStep s (s.goto .endcall)
  | lpShort (h : s.phase = .scan) (hm : s.nsw ≠ 0) (hm4 : s.nsw.toNat ≤ 4) (ho : s.off.toNat < s.len.toNat)
      (hs : s.len.toNat < s.off.toNat + s.nsw.toNat) :
      EngineStep s (s.raiseScan .truncatedNal (BitVec.ofNat 32 s.off.toNat))
  | lpHead (h : s.phase = .scan) (hm : s.nsw ≠ 0) (hm4 : s.nsw.toNat ≤ 4) (ho : s.off.toNat < s.len.toNat)
      (hs : s.off.toNat + s.nsw.toNat ≤ s.len.toNat) : EngineStep s (s.goto .lpField)
  | lpOver (h : s.phase = .lpField) (n : Nat) (hn : s.len.toNat < s.off.toNat + s.nsw.toNat + n) :
      EngineStep s (s.raiseScan .truncatedNal (BitVec.ofNat 32 s.off.toNat))
  | lpUnit (h : s.phase = .lpField) (hm : s.nsw ≠ 0) (n : Nat) (hn : s.off.toNat + s.nsw.toNat + n ≤ s.len.toNat) :
      EngineStep s (s.openNal (s.off.toNat + s.nsw.toNat) (s.off.toNat + s.nsw.toNat + n))
  | nalunit (h : s.phase = .nalunit) : EngineStep s { s with nalCount := s.nalCount + 1, phase := .header }
  | malformed (h : s.phase = .header) : EngineStep s (s.record .malformedNal s.nalOff).nalReturn
  | typed (h : s.phase = .header) (hl : 2 ≤ s.nalLen.toNat) (ty : BitVec 6) :
      EngineStep s { s with nalType := ty, phase := .dispatch }
  | skip (h : s.phase = .dispatch) (ht : s.nalType ≠ s.cfg.spsNut) : EngineStep s s.nalReturn
  | sps (h : s.phase = .dispatch) (ht : s.nalType = s.cfg.spsNut) :
      EngineStep s { s with spsSeen := s.spsSeen + 1, epbI := 0, epbK := 0, phase := .epb }
  | keep (h : s.phase = .epb) (hi : s.epbI.toNat < s.payloadLen) (b : Byte)
      (hb : s.bufRead (s.payloadOff + s.epbI.toNat) = .ok b) :
      EngineStep s { s.scrWrite s.epbK.toNat b with epbI := s.epbI + 1, epbK := s.epbK + 1, phase := .epb }
  | drop (h : s.phase = .epb) (h2 : 2 ≤ s.epbI.toNat) (hi : s.epbI.toNat < s.payloadLen) :
      EngineStep s { s with epbI := s.epbI + 1, phase := .epb }
  | epbEnd (h : s.phase = .epb) (hi : s.payloadLen ≤ s.epbI.toNat) :
      EngineStep s { s with scrLen := s.epbK, phase := .parsesps }
  | parsesps (h : s.phase = .parsesps) :
      EngineStep s (({ s with valid := false }.bind { base := 0, len := s.scrLen }).goto
        (.sps .videoParameterSetId))
  | abort (e : SpsElem) (h : s.phase = .sps e) (err : Err) (hr : s.codeAt e = .raises err) :
      EngineStep s ((s.passed e (s.elementBits e)).raiseSps err)
  | element (e : SpsElem) (h : s.phase = .sps e) (i : Instr) (hf : s.codeAt e = .found i) (t : State)
      (ht : exec i s = .next t) : EngineStep s t
  | endcall (h : s.phase = .endcall) :
      EngineStep s { s with status := Status.ended s.status (decide (s.spsOk.toNat > 0)), phase := .idle }

/-! ## The shared operations, inverted -/

theorem ofRead_next {α : Type} {r : Except Fault α} {k : α → Out} {t : State} (h : ofRead r k = .next t) :
    ∃ a, r = .ok a ∧ k a = .next t := by
  cases r with
  | ok a => exact ⟨a, rfl, h⟩
  | error f => cases h

theorem fetchRead_run {α : Type} {r : Except Fault α} {k : α → Fetched} {i : Instr} {s t : State}
    (h : fetchRead r k = .run i t ∨ fetchRead r k = .answer (.next s)) :
    ∃ a, r = .ok a ∧ (k a = .run i t ∨ k a = .answer (.next s)) := by
  cases r with
  | ok a => exact ⟨a, rfl, h⟩
  | error f => rcases h with h | h <;> cases h

/-- The `n` of `NSW` as the mode instruction of R94. -/
theorem decode_nsw (c : Cfg) (v : BitVec 3) : decode c .nsw (bitsOfBv v) = .ok (decodeNsw v.toNat, []) := by
  rw [decode, withU_exact 3 _ _ (bitsOfBv_length v), natOfBits_bitsOfBv, accept]

/-- The value of the bits of a byte string is its big-endian value: one byte more multiplies by 256. -/
theorem natOfBits_bytes_cons (b : Byte) (r : List Byte) :
    natOfBits (bitsOfBytes (b :: r)) = b.toNat * 256 ^ r.length + natOfBits (bitsOfBytes r) := by
  rw [bitsOfBytes, natOfBits_append, natOfBits_bitsOfBv, bitsOfBytes_length, pow_mul]
  norm_num

/-- A length field of `w` bytes, `w` in 1 to 4, decodes to `LP` of that width. -/
theorem decode_lp (c : Cfg) (w : Nat) (bs : List Byte) (h : bs.length = w) :
    decode c (.lp w) (bitsOfBytes bs) =
      match decodeLp w (natOfBits (bitsOfBytes bs)) with
      | .ok i => .ok (i, [])
      | .error e => .error e := by
  have hl : (bitsOfBytes bs).length = 8 * w := by rw [bitsOfBytes_length, h]
  rw [decode, withU_exact (8 * w) _ _ hl]
  cases decodeLp w (natOfBits (bitsOfBytes bs)) <;> rfl

/-- A span is closed at the start code ahead, or one byte before it. -/
theorem closeSpan_next {trim : Bool} {s t : State} {j : Nat} (hf : s.findSc s.off.toNat = .ok (some j))
    (h : closeSpan trim s = .next t) :
    t = s.openNal s.off.toNat (if trim = true ∧ j > s.off.toNat then j - 1 else j) := by
  simp only [closeSpan, hf, ofRead, Host.Outcome.next.injEq] at h
  exact h.symm

/-- What a step works out to, once it is known what it works on. -/
def runFetched : Fetched → Out
  | .run i t => exec i t
  | .answer o => o

theorem step_eq (s : State) : step s = runFetched (fetch s) := by
  unfold step runFetched; rfl

/-- Without a host access a step is the engine's. -/
theorem step_engine {s : State} (h : s.host = []) : step s = runFetched (fetchEngine s) := by
  rw [step_eq, fetch, h]

/-- A run of `n + 1` steps is a step and a run of `n`. -/
theorem run_succ {s u : State} (n : Nat) (h : step s = .next u) :
    Sys2Proof.core.run (n + 1) s = Sys2Proof.core.run n u := by
  have h' : Sys2Proof.core.step s = .next u := h
  simp only [Host.Core.run, h']

/-- Reading on past a read that succeeds. -/
theorem runFetched_read {α : Type} {r : Except Fault α} {k : α → Fetched} {t : State}
    (h : runFetched (fetchRead r k) = .next t) : ∃ a, r = .ok a ∧ runFetched (k a) = .next t := by
  cases r with
  | ok a => exact ⟨a, rfl, h⟩
  | error f => cases h

theorem runFetched_decoded {s t : State} {r : Except Reject (Instr × Bits)}
    (h : runFetched (runDecoded s r) = .next t) : ∃ i rest, r = .ok (i, rest) ∧ exec i s = .next t := by
  cases r with
  | ok p => exact ⟨p.1, p.2, rfl, h⟩
  | error f => cases h

/-- The bytes of a run, as they stand in `BUF`. -/
theorem bufBytes_ok {s : State} {n o : Nat} {bs : List Byte} (h : s.bufBytes n o = .ok bs) :
    bs.length = n ∧ ∀ k (hk : k < bs.length), s.buf.read? (o + k) = some bs[k] := by
  obtain ⟨hl, hg⟩ := (bufBytes_ok_iff s n o bs).1 h
  exact ⟨hl, fun k hk => ((bufRead_ok_iff s _ _).1 (hg k hk)).2⟩

/-- `00 00 01` read as a start code is `SC3`. -/
theorem decode_sc3 (c : Cfg) : decode c .sc (bitsOfBytes [0, 0, 1]) = .ok (.sc3, []) := rfl

/-- `00 00 00 01` read as a start code is `SC4`. -/
theorem decode_sc4 (c : Cfg) : decode c .sc (bitsOfBytes [0, 0, 0, 1]) = .ok (.sc4, []) := rfl

/-- Three bytes known one by one. -/
theorem list_three {α : Type} {l : List α} {a b c : α} (h : l.length = 3) (h0 : l[0]? = some a) (h1 : l[1]? = some b)
    (h2 : l[2]? = some c) : l = [a, b, c] := by
  match l, h with
  | [x, y, z], _ => simp_all

theorem list_four {α : Type} {l : List α} {a b c d : α} (h : l.length = 4) (h0 : l[0]? = some a) (h1 : l[1]? = some b)
    (h2 : l[2]? = some c) (h3 : l[3]? = some d) : l = [a, b, c, d] := by
  match l, h with
  | [w, x, y, z], _ => simp_all

/-- The three bytes at a start code. -/
theorem bufBytes_startCode {s : State} {j : Nat} {bs : List Byte} (hs : s.IsStartCode j) (h : s.bufBytes 3 j = .ok bs) :
    bs = [0, 0, 1] := by
  obtain ⟨hl, hg⟩ := bufBytes_ok h
  obtain ⟨-, h0, h1, h2⟩ := hs
  have g : ∀ k, k < 3 → bs[k]? = s.buf.read? (j + k) := fun k hk => by
    rw [hg k (by omega)]; simp [hl, hk]
  exact list_three hl (by rw [g 0 (by omega)]; exact h0) (by rw [g 1 (by omega)]; exact h1)
    (by rw [g 2 (by omega)]; exact h2)

/-- The four bytes at a start code with a zero before it. -/
theorem bufBytes_startCode4 {s : State} {j : Nat} {bs : List Byte} (hj : 0 < j) (hz : s.buf.read? (j - 1) = some 0)
    (hs : s.IsStartCode j) (h : s.bufBytes 4 (j - 1) = .ok bs) : bs = [0, 0, 0, 1] := by
  obtain ⟨hl, hg⟩ := bufBytes_ok h
  obtain ⟨-, h0, h1, h2⟩ := hs
  have g : ∀ k, k < 4 → bs[k]? = s.buf.read? (j - 1 + k) := fun k hk => by
    rw [hg k (by omega)]; simp [hl, hk]
  refine list_four hl (by rw [g 0 (by omega)]; exact hz) ?_ ?_ ?_
  · rw [g 1 (by omega)]; simpa [show j - 1 + 1 = j by omega] using h0
  · rw [g 2 (by omega)]; simpa [show j - 1 + 2 = j + 1 by omega] using h1
  · rw [g 3 (by omega)]; simpa [show j - 1 + 3 = j + 2 by omega] using h2

/-- What the scanner meets at the end of a span: `SC4` when the byte before `00 00 01` is `00` and lies in the span, else
`SC3`. -/
theorem fetchDelimiter_next {s t : State} (h : runFetched (fetchDelimiter s) = .next t) :
    (s.findSc s.off.toNat = .ok none ∧ exec .scanSc s = .next t) ∨
    ∃ j, s.findSc s.off.toNat = .ok (some j) ∧
      ((s.off.toNat < j ∧ s.buf.read? (j - 1) = some 0 ∧ exec .sc4 s = .next t) ∨ exec .sc3 s = .next t) := by
  obtain ⟨r, hf, h⟩ := runFetched_read h
  cases r with
  | none => exact .inl ⟨hf, h⟩
  | some j =>
    refine .inr ⟨j, hf, ?_⟩
    have hsc := (findSc_some hf).2.1
    have three : ∀ {t}, runFetched (fetchRead (s.bufBytes 3 j) fun bs =>
        runDecoded s (decode s.cfg .sc (bitsOfBytes bs))) = .next t → exec .sc3 s = .next t := by
      intro t h
      obtain ⟨bs, hbs, h⟩ := runFetched_read h
      rw [bufBytes_startCode hsc hbs, decode_sc3] at h
      exact h
    by_cases hj : j > s.off.toNat
    · simp only [hj, if_true] at h
      obtain ⟨b, hb, h⟩ := runFetched_read h
      by_cases hz : b = 0
      · subst hz
        simp only [if_true] at h
        obtain ⟨bs, hbs, h⟩ := runFetched_read h
        have hz := ((bufRead_ok_iff s (j - 1) 0).1 hb).2
        rw [bufBytes_startCode4 (by omega) hz hsc hbs, decode_sc4] at h
        exact .inl ⟨hj, hz, h⟩
      · simp only [hz, if_false] at h
        exact .inr (three h)
    · simp only [hj, if_false] at h
      exact .inr (three h)

/-- What the scanner meets at a length field. -/
theorem fetchLengthField_next {s t : State} (h : runFetched (fetchLengthField s) = .next t) :
    ∃ n, s.nsw ≠ 0 ∧ lengthField s.nsw.toNat n s = .next t := by
  obtain ⟨bs, hbs, h⟩ := runFetched_read h
  obtain ⟨hl, -⟩ := bufBytes_ok hbs
  rw [decode_lp s.cfg s.nsw.toNat bs hl] at h
  obtain ⟨i, rest, hi, h⟩ := runFetched_decoded h
  have hw : s.nsw.toNat < 8 := s.nsw.isLt
  have hne : ∀ w, s.nsw.toNat = w → w ≠ 0 → s.nsw ≠ 0 := fun w hw h0 hz => h0 (by rw [← hw, hz]; rfl)
  generalize hv : natOfBits (bitsOfBytes bs) = v at hi
  have hcase : s.nsw.toNat = 0 ∨ s.nsw.toNat = 1 ∨ s.nsw.toNat = 2 ∨ s.nsw.toNat = 3 ∨ s.nsw.toNat = 4 ∨
      s.nsw.toNat = 5 ∨ s.nsw.toNat = 6 ∨ s.nsw.toNat = 7 := by omega
  rcases hcase with hk | hk | hk | hk | hk | hk | hk | hk <;> simp only [hk, decodeLp] at hi <;> cases hi
  · exact ⟨_, hne 1 hk (by omega), by rw [hk]; exact h⟩
  · exact ⟨_, hne 2 hk (by omega), by rw [hk]; exact h⟩
  · exact ⟨_, hne 3 hk (by omega), by rw [hk]; exact h⟩
  · exact ⟨_, hne 4 hk (by omega), by rw [hk]; exact h⟩

/-- What the scanner meets at a header. -/
theorem fetchHeader_next {s t : State} (h : runFetched (fetchHeader s) = .next t) :
    t = (s.record .malformedNal s.nalOff).nalReturn ∨
    (2 ≤ s.nalLen.toNat ∧ ∃ ty, t = { s with nalType := ty, phase := .dispatch }) := by
  unfold fetchHeader at h
  split at h
  · left
    have : runFetched (runDecoded s (decode s.cfg .nh [])) = exec .nalShort s := rfl
    rw [this] at h
    simpa [exec, execNalShort, malformedNalUnit] using h.symm
  · rename_i hl
    obtain ⟨bs, hbs, h⟩ := runFetched_read h
    obtain ⟨hlen, -⟩ := bufBytes_ok hbs
    have hb : (bitsOfBytes bs).length = 16 := by rw [bitsOfBytes_length, hlen]
    have hd : decode s.cfg .nh (bitsOfBytes bs) = .ok (decodeNh s.cfg (natOfBits (bitsOfBytes bs)), []) := by
      simp only [decode, hb, Nat.lt_irrefl, if_false]
      rw [withU_exact 16 _ _ hb, accept]
    rw [hd] at h
    change exec (decodeNh s.cfg _) s = .next t at h
    unfold decodeNh at h
    split at h
    · left; simpa [exec, execNalMalformed, malformedNalUnit] using h.symm
    · right
      refine ⟨by omega, ?_⟩
      split at h
      · exact ⟨_, by simpa [exec, execNalSps] using h.symm⟩
      · exact ⟨_, by simpa [exec, execNalOther] using h.symm⟩

/-- Every next state of the engine is one of the cases of `EngineStep`. -/
theorem engineStep_of_next {s t : State} (h : runFetched (fetchEngine s) = .next t) : EngineStep s t := by
  unfold fetchEngine at h
  cases hp : s.phase with
  | idle => simp only [hp] at h; cases h; exact .idle hp
  | parsenals =>
    simp only [hp] at h
    change execParsenals s = .next t at h
    unfold execParsenals at h
    split at h
    · cases h
    · cases h; exact .parsenals hp (by omega)
  | scan =>
    simp only [hp, decode_nsw] at h
    change exec (decodeNsw s.nsw.toNat) s = .next t at h
    have hw : s.nsw.toNat < 8 := s.nsw.isLt
    have lp : ∀ w, s.nsw.toNat = w → 1 ≤ w → w ≤ 4 → scanPrefixed w s = .next t → EngineStep s t := by
      intro w hk h1 h4 h
      have hne : s.nsw ≠ 0 := fun hz => by rw [hz] at hk; simp at hk; omega
      unfold scanPrefixed at h
      subst hk
      split at h
      · split at h
        · cases h; exact .lpShort hp hne h4 (by omega) (by omega)
        · cases h; exact .lpHead hp hne h4 (by omega) (by omega)
      · cases h; exact .lpEnd hp hne h4 (by omega)
    have hcase : s.nsw.toNat = 0 ∨ s.nsw.toNat = 1 ∨ s.nsw.toNat = 2 ∨ s.nsw.toNat = 3 ∨ s.nsw.toNat = 4 ∨
        s.nsw.toNat = 5 ∨ s.nsw.toNat = 6 ∨ s.nsw.toNat = 7 := by omega
    rcases hcase with hk | hk | hk | hk | hk | hk | hk | hk <;> simp only [hk, decodeNsw] at h
    · have hz : s.nsw = 0 := BitVec.eq_of_toNat_eq hk
      change scanStartCode s = .next t at h
      obtain ⟨r, hf, h⟩ := ofRead_next h
      cases r with
      | none => cases h; exact .scNone (.inl ⟨hp, hz⟩) hf
      | some i =>
        obtain ⟨r, hn, h⟩ := ofRead_next h
        cases r with
        | none => cases h; exact .scLast hp hz i hf hn
        | some j => cases h; exact .scNext hp hz i j hf hn
    · exact lp 1 hk (by omega) (by omega) h
    · exact lp 2 hk (by omega) (by omega) h
    · exact lp 3 hk (by omega) (by omega) h
    · exact lp 4 hk (by omega) (by omega) h
    · cases h
    · cases h
    · cases h
  | lpField =>
    simp only [hp] at h
    obtain ⟨n, hne, h⟩ := fetchLengthField_next h
    unfold lengthField at h
    split at h
    · cases h; exact .lpOver hp n (by omega)
    · cases h; exact .lpUnit hp hne n (by omega)
  | delim =>
    simp only [hp] at h
    rcases fetchDelimiter_next h with ⟨hf, h⟩ | ⟨j, hf, ⟨hj, hz, h⟩ | h⟩
    · change scanStartCode s = .next t at h
      simp only [scanStartCode, hf, ofRead] at h
      cases h
      exact .scNone (.inr hp) hf
    · have := closeSpan_next hf h
      rw [this]
      exact .close hp j _ hf (.inr ⟨hj, hz, by simp [hj]⟩)
    · have := closeSpan_next hf h
      rw [this]
      exact .close hp j _ hf (.inl (by simp))
  | nalunit => simp only [hp] at h; cases h; exact .nalunit hp
  | header =>
    simp only [hp] at h
    rcases fetchHeader_next h with h | ⟨hl, ty, h⟩
    · rw [h]; exact .malformed hp
    · rw [h]; exact .typed hp hl ty
  | dispatch =>
    simp only [hp] at h
    change execDispatch s = .next t at h
    unfold execDispatch at h
    split at h
    · cases h; exact .skip hp ‹_›
    · rename_i hne; cases h; exact .sps hp (by simpa using hne)
  | epb =>
    simp only [hp] at h
    have keep : execEpbremove s = .next t → EngineStep s t := by
      intro h
      unfold execEpbremove at h
      split at h
      · obtain ⟨b, hb, h⟩ := ofRead_next h
        cases h; exact .keep hp ‹_› b hb
      · cases h; exact .epbEnd hp (by omega)
    unfold fetchEpb at h
    split at h
    · rename_i hi
      obtain ⟨bs, hbs, h⟩ := runFetched_read h
      split at h
      · rename_i i rest hd
        have hi' : i = .epb := by
          simp only [decode] at hd
          rcases withU_cases 24 (bitsOfBytes bs) (fun v r => if v = 0x000003 then accept .epb r else .error .notEpb) with
            ⟨-, hu⟩ | ⟨-, hu⟩ <;> rw [hu] at hd
          · cases hd
          · split at hd <;> cases hd; rfl
        subst hi'
        cases h
        exact .drop hp hi.1 hi.2
      · exact keep h
    · exact keep h
  | parsesps => simp only [hp] at h; cases h; exact .parsesps hp
  | sps e =>
    simp only [hp, fetchElement] at h
    cases hc : s.codeAt e with
    | found i => simp only [hc] at h; exact .element e hp i hc t h
    | raises err => simp only [hc] at h; cases h; exact .abort e hp err hc
    | faults f => simp only [hc] at h; cases h
    | rejected r => simp only [hc] at h; cases h
  | endcall => simp only [hp] at h; cases h; exact .endcall hp

end Sys2Proof.Machine
end

