-- ==== Sys2Proof/Laws/Measure.lean ====
section
/-! SUPPORT. A measure for the call: how many steps it may still take (41_nal_scanner.md R171).  Every step of the engine inside
a call makes it smaller. -/

namespace Sys2Proof.Machine

open Sys2Proof

/-- The steps before the scan goes on, once the engine is at an element (R171: a constant bound for every `PARSESPS`); the
loops of R211 to R213 count their index. -/
def State.elementSteps (s : State) (e : SpsElem) : Nat :=
  match e with
  | .videoParameterSetId => 47
  | .maxSubLayersMinus1 => 46
  | .temporalIdNestingFlag => 45
  | .generalProfileSpace => 44
  | .generalTierFlag => 43
  | .generalProfileIdc => 42
  | .generalCompatibilityFlags => 41
  | .generalSourceFlags => 40
  | .generalConstraintBlock => 39
  | .generalLevelIdc => 38
  | .subLayerPresentFlags => 37 - s.subI.toNat
  | .subLayerPadding => 31 - s.subI.toNat
  | .subLayerProfile => 23 - 2 * s.subI.toNat
  | .subLayerLevelIdc => 22 - 2 * s.subI.toNat
  | .seqParameterSetId => 9
  | .chromaFormatIdc => 8
  | .separateColourPlaneFlag => 7
  | .picWidth => 6
  | .picHeight => 5
  | .conformanceWindowFlag => 4
  | .conformanceWindowOffsets => 3
  | .bitDepthLuma => 2
  | .bitDepthChroma => 1

/-- The steps of the scan from its loop head on: at most 60 for each byte not yet passed, 2 to end it.  In start-code mode
the bytes before the next start code cost nothing. -/
def State.scanSteps (s : State) (off : Nat) : Nat :=
  if s.nsw = 0 then
    match s.findSc off with
    | .ok (some i) => 60 * (s.len.toNat - i) + 2
    | _ => 2
  else 60 * (s.len.toNat - off) + 2

/-- The bytes from `OFF` to the next start code, or to the end of the buffer. -/
def State.spanLen (s : State) : Nat :=
  match s.findSc s.off.toNat with
  | .ok (some j) => j - s.off.toNat
  | _ => s.len.toNat - s.off.toNat

/-- The steps of the scan after the NAL unit in hand. -/
def State.returnSteps (s : State) : Nat :=
  if s.nsw = 0 then s.scanSteps s.off.toNat else s.scanSteps (s.off.toNat + s.nsw.toNat + s.nalLen.toNat)

/-- A bound on the steps until the call in progress has ended. -/
def State.stepsLeft (s : State) : Nat :=
  match s.phase with
  | .idle => 0
  | .endcall => 1
  | .parsenals => 60 * s.len.toNat + 3
  | .scan => s.scanSteps s.off.toNat
  | .lpField => 60 * (s.len.toNat - s.off.toNat) + 1
  | .delim => 55 + s.spanLen + s.scanSteps s.off.toNat
  | .nalunit => 54 + s.nalLen.toNat + s.returnSteps
  | .header => 53 + s.nalLen.toNat + s.returnSteps
  | .dispatch => 52 + s.nalLen.toNat + s.returnSteps
  | .epb => 49 + (s.payloadLen - s.epbI.toNat) + s.returnSteps
  | .parsesps => 48 + s.returnSteps
  | .sps e => s.elementSteps e + s.returnSteps

end Sys2Proof.Machine
end

