-- ==== Sys2Proof/Laws/PerInstr.lean ====
section
/-! SUPPORT. Laws of every instruction, one lemma per constructor: a well-formed instruction is no wider than its format, so the
bits a format lets the engine look at always hold it (30_encoding.md R90 to R106). -/

namespace Sys2Proof

/-- The most bits an instruction of a format has. -/
def Fmt.width : Fmt → Nat
  | .ctrl | .call => 1
  | .nsw => 3
  | .sc => 32
  | .lp w => 8 * w
  | .nh => 16
  | .epb => 24
  | .br => 39
  | .op _ => 0
  | .u n => n
  | .ue => 65
  | .se => 65
  | .sps e => Machine.maxBits e

/-- A bit-reader request has 39 bits (30_encoding.md R111). -/
theorem encodeBr_length (op : Nat) (n : BitVec 36) : (encodeBr op n).length = 39 := by simp [encodeBr]

/-- A well-formed code has at most 65 bits (30_encoding.md R102). -/
theorem UeCode.bits_length_le (e : UeCode) (h : e.wf = true) : e.bits.length ≤ 65 := by
  have hk : e.k.toNat ≤ Config.ueMaxLz := by
    simp only [UeCode.wf, Bool.and_eq_true, decide_eq_true_eq] at h
    exact h.1
  simp only [UeCode.bits_length]
  simp only [Config.ueMaxLz] at hk
  omega

namespace Laws.EncodedWidth

/-- A well-formed instruction is no wider than its format. -/
def Statement (i : Instr) : Prop :=
  ∀ c : Cfg, i.wf c = true → (encode c i).length ≤ i.fmt.width

theorem start : Statement .start := fun _ _ => Nat.le_of_ble_eq_true rfl
theorem parsenals : Statement .parsenals := fun _ _ => Nat.le_of_ble_eq_true rfl
theorem scanSc : Statement .scanSc := fun _ _ => Nat.le_of_ble_eq_true rfl
theorem scanLp1 : Statement .scanLp1 := fun _ _ => Nat.le_of_ble_eq_true rfl
theorem scanLp2 : Statement .scanLp2 := fun _ _ => Nat.le_of_ble_eq_true rfl
theorem scanLp3 : Statement .scanLp3 := fun _ _ => Nat.le_of_ble_eq_true rfl
theorem scanLp4 : Statement .scanLp4 := fun _ _ => Nat.le_of_ble_eq_true rfl
theorem nswReserved5 : Statement .nswReserved5 := fun _ _ => Nat.le_of_ble_eq_true rfl
theorem nswReserved6 : Statement .nswReserved6 := fun _ _ => Nat.le_of_ble_eq_true rfl
theorem nswReserved7 : Statement .nswReserved7 := fun _ _ => Nat.le_of_ble_eq_true rfl
theorem sc3 : Statement .sc3 := fun _ _ => Nat.le_of_ble_eq_true rfl
theorem sc4 : Statement .sc4 := fun _ _ => Nat.le_of_ble_eq_true rfl
theorem lp1 (length : BitVec 8) : Statement (.lp1 length) := fun _ _ => (bitsOfBv_length length).le
theorem lp2 (length : BitVec 16) : Statement (.lp2 length) := fun _ _ => (bitsOfBv_length length).le
theorem lp3 (length : BitVec 24) : Statement (.lp3 length) := fun _ _ => (bitsOfBv_length length).le
theorem lp4 (length : BitVec 32) : Statement (.lp4 length) := fun _ _ => (bitsOfBv_length length).le
theorem nalMalformed (rest : BitVec 15) : Statement (.nalMalformed rest) :=
  fun _ _ => Nat.succ_le_succ (bitsOfBv_length rest).le
theorem nalSps (ignored : BitVec 9) : Statement (.nalSps ignored) := fun c _ => by
  simp [encode, Instr.fmt, Fmt.width]
theorem nalOther (nalType : BitVec 6) (ignored : BitVec 9) : Statement (.nalOther nalType ignored) := fun c _ => by
  simp [encode, Instr.fmt, Fmt.width]
theorem nalShort : Statement .nalShort := fun _ _ => Nat.le_of_ble_eq_true rfl
theorem epb : Statement .epb := fun _ _ => Nat.le_of_ble_eq_true rfl
theorem epbremove : Statement .epbremove := fun _ _ => Nat.le_of_ble_eq_true rfl
theorem u (n : BitVec 6) (v : BitVec 32) : Statement (.u n v) := fun _ _ => (bitsOfNat_length n.toNat v.toNat).le
theorem ue (c : UeCode) : Statement (.ue c) := fun _ h => c.bits_length_le h
theorem se (c : UeCode) : Statement (.se c) := fun _ h => c.bits_length_le h
theorem brInit (n : BitVec 36) : Statement (.brInit n) := fun _ _ => (encodeBr_length _ n).le
theorem readbits (n : BitVec 36) : Statement (.readbits n) := fun _ _ => (encodeBr_length _ n).le
theorem readflag (n : BitVec 36) : Statement (.readflag n) := fun _ _ => (encodeBr_length _ n).le
theorem readue (n : BitVec 36) : Statement (.readue n) := fun _ _ => (encodeBr_length _ n).le
theorem readse (n : BitVec 36) : Statement (.readse n) := fun _ _ => (encodeBr_length _ n).le
theorem skipbits (n : BitVec 36) : Statement (.skipbits n) := fun _ _ => (encodeBr_length _ n).le
theorem bytealign (n : BitVec 36) : Statement (.bytealign n) := fun _ _ => (encodeBr_length _ n).le
theorem brReserved (n : BitVec 36) : Statement (.brReserved n) := fun _ _ => (encodeBr_length _ n).le
theorem nalunit : Statement .nalunit := fun _ _ => Nat.le_of_ble_eq_true rfl
theorem dispatch : Statement .dispatch := fun _ _ => Nat.le_of_ble_eq_true rfl
theorem endcall : Statement .endcall := fun _ _ => Nat.le_of_ble_eq_true rfl
theorem parsesps : Statement .parsesps := fun _ _ => Nat.le_of_ble_eq_true rfl
theorem spsVideoParameterSetId (v : BitVec 4) : Statement (.spsVideoParameterSetId v) := fun _ _ => (bitsOfBv_length v).le
theorem spsMaxSubLayersMinus1 (v : BitVec 3) : Statement (.spsMaxSubLayersMinus1 v) := fun _ _ => (bitsOfBv_length v).le
theorem spsTemporalIdNestingFlag (v : BitVec 1) : Statement (.spsTemporalIdNestingFlag v) :=
  fun _ _ => (bitsOfBv_length v).le
theorem spsGeneralProfileSpace (v : BitVec 2) : Statement (.spsGeneralProfileSpace v) := fun _ _ => (bitsOfBv_length v).le
theorem spsGeneralTierFlag (v : BitVec 1) : Statement (.spsGeneralTierFlag v) := fun _ _ => (bitsOfBv_length v).le
theorem spsGeneralProfileIdc (v : BitVec 5) : Statement (.spsGeneralProfileIdc v) := fun _ _ => (bitsOfBv_length v).le
theorem spsGeneralCompatibilityFlags (v : BitVec 32) : Statement (.spsGeneralCompatibilityFlags v) :=
  fun _ _ => (bitsOfBv_length v).le
theorem spsGeneralSourceFlags (v : BitVec 4) : Statement (.spsGeneralSourceFlags v) := fun _ _ => (bitsOfBv_length v).le
theorem spsGeneralConstraintBlock (v : BitVec 44) : Statement (.spsGeneralConstraintBlock v) :=
  fun _ _ => (bitsOfBv_length v).le
theorem spsGeneralLevelIdc (v : BitVec 8) : Statement (.spsGeneralLevelIdc v) := fun _ _ => (bitsOfBv_length v).le
theorem spsSubLayerPresentFlags (p l : BitVec 1) : Statement (.spsSubLayerPresentFlags p l) := fun _ _ => Nat.le_of_eq rfl
theorem spsSubLayerPadding (v : BitVec 2) : Statement (.spsSubLayerPadding v) := fun _ _ => (bitsOfBv_length v).le
theorem spsSubLayerProfile (v : BitVec 88) : Statement (.spsSubLayerProfile v) := fun _ _ => (bitsOfBv_length v).le
theorem spsSubLayerLevelIdc (v : BitVec 8) : Statement (.spsSubLayerLevelIdc v) := fun _ _ => (bitsOfBv_length v).le
theorem spsSeqParameterSetId (c : UeCode) : Statement (.spsSeqParameterSetId c) := fun _ h => c.bits_length_le h
theorem spsChromaFormatIdc (c : UeCode) : Statement (.spsChromaFormatIdc c) := fun _ h => c.bits_length_le h
theorem spsSeparateColourPlaneFlag (v : BitVec 1) : Statement (.spsSeparateColourPlaneFlag v) :=
  fun _ _ => (bitsOfBv_length v).le
theorem spsPicWidth (c : UeCode) : Statement (.spsPicWidth c) := fun _ h => c.bits_length_le h
theorem spsPicHeight (c : UeCode) : Statement (.spsPicHeight c) := fun _ h => c.bits_length_le h
theorem spsConformanceWindowFlag (v : BitVec 1) : Statement (.spsConformanceWindowFlag v) :=
  fun _ _ => (bitsOfBv_length v).le
theorem spsConformanceWindowOffsets (c1 c2 c3 c4 : UeCode) : Statement (.spsConformanceWindowOffsets c1 c2 c3 c4) := by
  intro c h
  simp only [Instr.wf, Bool.and_eq_true] at h
  have h1 := c1.bits_length_le h.1.1.1
  have h2 := c2.bits_length_le h.1.1.2
  have h3 := c3.bits_length_le h.1.2
  have h4 := c4.bits_length_le h.2
  simp only [encode, List.length_append, Instr.fmt, Fmt.width, Machine.maxBits]
  omega
theorem spsBitDepthLuma (c : UeCode) : Statement (.spsBitDepthLuma c) := fun _ h => c.bits_length_le h
theorem spsBitDepthChroma (c : UeCode) : Statement (.spsBitDepthChroma c) := fun _ h => c.bits_length_le h

end Laws.EncodedWidth

end Sys2Proof
end

