-- ==== Sys2Proof/Laws/Reader.lean ====
section
/-! SUPPORT. What the bit reader used on its own answers: its bits, the answer to a request with and without room, and the code
at its cursor. -/

namespace Sys2Proof.Machine

open Sys2Proof

/-- There are as many bits ahead as `TOTAL - POS` says. -/
@[simp] theorem Reader.bits_length (r : Reader) : r.bits.length = r.remain := by
  have := Nat.mod_le (8 * r.view.length) (2 ^ 36)
  simp only [Reader.bits, List.length_take, List.length_drop, bitsOfBytes_length, Reader.remain, Reader.total,
    BitVec.toNat_ofNat]
  omega

/-- Bits at the cursor lie inside the view. -/
theorem readerAt_le {s : State} {bs : Bits} (h : s.ReaderAt bs) : bs.length ≤ s.reader.remain := by
  rw [← Reader.bits_length]; exact h.length_le

/-- A request with room for its bits. -/
theorem answerBits_room {n : Nat} {s : State} (h : n ≤ s.reader.remain) (r : BrReply) :
    answerBits n r s = .next ((s.advanceReader n).answer r) := by
  unfold answerBits
  rw [if_neg (by omega)]

/-- A request without. -/
theorem answerBits_short {n : Nat} {s : State} (h : s.reader.remain < n) (r : BrReply) :
    answerBits n r s = .next (s.answer (.error .bitstreamExhausted)) := by
  unfold answerBits
  rw [if_pos h]

/-- A field at the cursor is read as its value. -/
theorem readFixed_at {s : State} {bs : Bits} (h : s.ReaderAt bs) :
    readFixed bs.length s = .next ((s.advanceReader bs.length).answer (.value (BitVec.ofNat 33 (natOfBits bs)))) := by
  have hl := readerAt_le h
  obtain ⟨r, hr⟩ := h
  rw [readFixed, answerBits_room hl, ← hr, List.take_left]

/-- A code at the cursor is the one that is read. -/
theorem takeUe_at {s : State} {c : UeCode} (hc : c.wf = true) (h : s.ReaderAt c.bits) :
    ∃ r, takeUe s.reader.bits = .ok (c, r) := by
  obtain ⟨r, hr⟩ := h
  exact ⟨r, by rw [← hr, takeUe_bits c r hc]⟩

/-- And it is answered with its value. -/
theorem readGolomb_at {s : State} {c : UeCode} (hc : c.wf = true) (h : s.ReaderAt c.bits) (v : UeCode → BitVec 33) :
    readGolomb v s = .next ((s.advanceReader (ueLength c)).answer (.value (v c))) := by
  obtain ⟨r, hr⟩ := takeUe_at hc h
  have hl : ueLength c ≤ s.reader.remain := by
    have := readerAt_le h
    rwa [UeCode.bits_length] at this
  simp only [readGolomb, hr, answerBits_room hl]

end Sys2Proof.Machine
end

