-- ==== Sys2Proof/Laws/Sps.lean ====
section
/-! SUPPORT. What one element of the SPS can do, said once (43_sps_decoder.md R201 to R231). -/

namespace Sys2Proof.Machine

open Sys2Proof

/-- A request with room for its bits goes on. -/
theorem request_room {n : Nat} {s : State} (h : n ≤ s.remain) (k : State → Out) : request n s k = k (s.advance n) := by
  unfold request
  rw [if_neg (by omega)]

/-- A request without room aborts the decode and reads nothing. -/
theorem request_short {n : Nat} {s : State} (h : s.remain < n) (k : State → Out) :
    request n s k = .next (s.raiseSps .bitstreamExhausted) := by
  unfold request
  rw [if_pos h]

/-- A request answers a next state where what follows it does. -/
theorem request_next {n : Nat} {s : State} {k : State → Out} (h : ∀ t, ∃ u, k t = .next u) : ∃ t, request n s k = .next t := by
  unfold request
  split
  · exact ⟨_, rfl⟩
  · exact h _

/-- Consuming an element answers a next state on every path. -/
theorem element_next (n : Nat) (s : State) (k : State → State) : ∃ t, element n s k = .next t :=
  request_next fun _ => ⟨_, rfl⟩

/-- An element of one request consumes its own bits, and goes on with a continuation of its own. -/
theorem exec_element {i : Instr} {e : SpsElem} (hf : i.fmt = .sps e) (h1 : e ≠ .generalConstraintBlock)
    (h2 : e ≠ .subLayerPresentFlags) (h3 : e ≠ .conformanceWindowOffsets) (s : State) :
    ∃ k, exec i s = element (encode s.cfg i).length s k := by
  cases i
  case spsGeneralConstraintBlock => simp [Instr.fmt] at hf; exact absurd hf.symm h1
  case spsSubLayerPresentFlags => simp [Instr.fmt] at hf; exact absurd hf.symm h2
  case spsConformanceWindowOffsets => simp [Instr.fmt] at hf; exact absurd hf.symm h3
  all_goals
    first
    | (exfalso; simp [Instr.fmt] at hf; done)
    | (apply Exists.intro
       simp only [exec, execSpsVideoParameterSetId, execSpsMaxSubLayersMinus1, execSpsTemporalIdNestingFlag,
         execSpsGeneralProfileSpace, execSpsGeneralTierFlag, execSpsGeneralProfileIdc, execSpsGeneralCompatibilityFlags,
         execSpsGeneralSourceFlags, execSpsGeneralLevelIdc,
         execSpsSubLayerPadding, execSpsSubLayerProfile, execSpsSubLayerLevelIdc, execSpsSeqParameterSetId,
         execSpsChromaFormatIdc, execSpsSeparateColourPlaneFlag, execSpsPicWidth, execSpsPicHeight,
         execSpsConformanceWindowFlag, execSpsBitDepthLuma, execSpsBitDepthChroma]
       refine congrArg (fun n => element n s _) ?_
       simp only [encode, UeCode.bits_length, bitsOfBv_length, ueLength])

/-- Every element instruction answers a next state, whatever the state. -/
theorem exec_element_next {i : Instr} {e : SpsElem} (hf : i.fmt = .sps e) (s : State) : ∃ t, exec i s = .next t := by
  by_cases h1 : e = .generalConstraintBlock
  · subst h1
    cases i <;> first
      | (exfalso; simp [Instr.fmt] at hf; done)
      | exact request_next fun t => element_next 12 t _
  by_cases h2 : e = .subLayerPresentFlags
  · subst h2
    cases i <;> first
      | (exfalso; simp [Instr.fmt] at hf; done)
      | exact request_next fun t => element_next 1 _ _
  by_cases h3 : e = .conformanceWindowOffsets
  · subst h3
    cases i <;> first
      | (exfalso; simp [Instr.fmt] at hf; done)
      | exact request_next fun t => request_next fun t => request_next fun t => element_next _ t _
  obtain ⟨k, hk⟩ := exec_element hf h1 h2 h3 s
  rw [hk]
  exact element_next _ s k

/-- An element instruction found at the cursor is one of the element the engine is at. -/
theorem codeAt_found_fmt {s : State} {e : SpsElem} {i : Instr} (h : s.codeAt e = .found i) :
    i.fmt = .sps e := by
  unfold State.codeAt at h
  simp only [decode] at h
  rcases decodeSps_cases s.cfg e (s.elementBits e) with ⟨m, hd⟩ | hd | ⟨j, rest, hd, hf, -⟩
  · rw [hd] at h; simp only at h; split at h <;> [split at h; skip] <;> cases h
  · rw [hd] at h; cases h
  · rw [hd] at h; cases h; exact hf

end Sys2Proof.Machine
end

