-- ==== Sys2Proof/Tests/Slice0.lean ====
section
/-! SUPPORT. Tests: well-formedness, decoding, one step of each instruction, and a witness for every statement with hypotheses.
Every expected value comes from spec/: the words from 30_encoding.md, the results from 95_test_vectors.md or by hand from the
rule named. -/

namespace Sys2Proof.Machine.Tests

open Sys2Proof Sys2Proof.Machine

/-! ## Small states -/

/-- Between calls: `BUF` holds `bs`, `LEN` and `NSW` are set up. -/
def filled (w : BitVec 3) (bs : List Byte) : State :=
  { State.reset with
    buf := Memory.writeBytes [] 0 bs
    len := BitVec.ofNat 32 bs.length
    nsw := w
    lenWritten := true
    nswWritten := true }

/-- Inside a call: as `filled`, `OFF` and the place given. -/
def inCall (w : BitVec 3) (bs : List Byte) (off : BitVec 33) (p : Phase) : State :=
  { filled w bs with status := 1, off := off, phase := p }

/-- Inside a call at a NAL unit `(NAL_OFF, NAL_LEN)`. -/
def inUnit (w : BitVec 3) (bs : List Byte) (off : BitVec 33) (o n : BitVec 32) (p : Phase) : State :=
  { inCall w bs off p with nalOff := o, nalLen := n }

/-- At an element of an SPS whose payload is `bs`, the cursor at `pos`; the NAL unit began at offset 3. -/
def atElement (e : SpsElem) (bs : List Byte) (pos : BitVec 36) : State :=
  { State.reset with
    status := 1
    nalOff := 3
    scr := Memory.writeBytes [] 0 bs
    scrLen := BitVec.ofNat 32 bs.length
    view := { base := 0, len := BitVec.ofNat 32 bs.length }
    pos := pos
    total := BitVec.ofNat 36 (8 * bs.length)
    phase := .sps e }

/-- The bit reader used on its own, bound to the bytes `bs`, the cursor at `pos`. -/
def reader (bs : List Byte) (pos : BitVec 36) : State := { State.reset with reader := { view := bs, pos := pos } }

/-- What is asked of the state after a step. -/
def after {α : Type} (o : Out) (f : State → α) : Option α := (nextOf o).map f

/-! ## Well-formedness: an ill-formed term for each check -/

theorem test_wf_u : (Instr.u 0 0).wf Cfg.nalp = false ∧ (Instr.u 33 0).wf Cfg.nalp = false ∧
    (Instr.u 3 8).wf Cfg.nalp = false ∧ (Instr.u 32 0xFFFFFFFF).wf Cfg.nalp = true := by decide

theorem test_wf_code : (Instr.ue { k := 33, s := 0 }).wf Cfg.nalp = false ∧ (Instr.ue { k := 2, s := 4 }).wf Cfg.nalp = false ∧
    (Instr.se { k := 33, s := 0 }).wf Cfg.nalp = false ∧ (Instr.se { k := 0, s := 1 }).wf Cfg.nalp = false ∧
    (Instr.ue { k := 32, s := 0xFFFFFFFF }).wf Cfg.nalp = true := by decide

theorem test_wf_other : (Instr.nalOther 33 0).wf Cfg.nalp = false ∧ (Instr.nalOther 32 0).wf Cfg.nalp = true := by decide

theorem test_wf_sps : (Instr.spsSeqParameterSetId { k := 1, s := 2 }).wf Cfg.nalp = false ∧
    (Instr.spsChromaFormatIdc { k := 1, s := 2 }).wf Cfg.nalp = false ∧
    (Instr.spsPicWidth { k := 33, s := 0 }).wf Cfg.nalp = false ∧ (Instr.spsPicHeight { k := 33, s := 0 }).wf Cfg.nalp = false ∧
    (Instr.spsBitDepthLuma { k := 0, s := 1 }).wf Cfg.nalp = false ∧
    (Instr.spsBitDepthChroma { k := 0, s := 1 }).wf Cfg.nalp = false := by decide

/-- Four zero-length codes but for one of them, for each of the four. -/
theorem test_wf_offsets : ∀ j < 4, (Instr.spsConformanceWindowOffsets { k := 0, s := if j = 0 then 1 else 0 }
    { k := 0, s := if j = 1 then 1 else 0 } { k := 0, s := if j = 2 then 1 else 0 }
    { k := 0, s := if j = 3 then 1 else 0 }).wf Cfg.nalp = false := by decide

/-! ## Decoding: words written out bit by bit -/

/-- A bit string written as 0s and 1s, first bit leftmost (30_encoding.md R113). -/
def bits (l : List Nat) : Bits := l.map (· == 1)

/-- `n` zeros. -/
def zeros (n : Nat) : List Nat := List.replicate n 0

/-- R112. -/
theorem test_decode_ctrl : decode Cfg.nalp .ctrl (bits [1]) = .ok (.start, []) ∧
    decode Cfg.nalp .ctrl (bits [0]) = .error .ctrlZero ∧ decode Cfg.nalp .call (bits [1]) = .ok (.parsenals, []) := by
  decide

/-- R94. -/
theorem test_decode_nsw :
    decode Cfg.nalp .nsw (bits [0, 0, 0]) = .ok (.scanSc, []) ∧ decode Cfg.nalp .nsw (bits [0, 0, 1]) = .ok (.scanLp1, []) ∧
    decode Cfg.nalp .nsw (bits [0, 1, 0]) = .ok (.scanLp2, []) ∧ decode Cfg.nalp .nsw (bits [0, 1, 1]) = .ok (.scanLp3, []) ∧
    decode Cfg.nalp .nsw (bits [1, 0, 0]) = .ok (.scanLp4, []) ∧
    decode Cfg.nalp .nsw (bits [1, 0, 1]) = .ok (.nswReserved5, []) ∧
    decode Cfg.nalp .nsw (bits [1, 1, 0]) = .ok (.nswReserved6, []) ∧
    decode Cfg.nalp .nsw (bits [1, 1, 1]) = .ok (.nswReserved7, []) := by decide

/-- R91, R92; `00 00 02` is no start code. -/
theorem test_decode_sc : decode Cfg.nalp .sc (bits (zeros 23 ++ [1])) = .ok (.sc3, []) ∧
    decode Cfg.nalp .sc (bits (zeros 31 ++ [1])) = .ok (.sc4, []) ∧
    decode Cfg.nalp .sc (bits (zeros 22 ++ [1, 0] ++ zeros 8)) = .error .notStartCode := by decide

/-- R93, first byte most significant: `18`, `00 18`, `01 00 00`, `ff ff ff ff`. -/
theorem test_decode_lp : decode Cfg.nalp (.lp 1) (bits [0, 0, 0, 1, 1, 0, 0, 0]) = .ok (.lp1 24, []) ∧
    decode Cfg.nalp (.lp 2) (bits (zeros 8 ++ [0, 0, 0, 1, 1, 0, 0, 0])) = .ok (.lp2 24, []) ∧
    decode Cfg.nalp (.lp 3) (bits (zeros 7 ++ [1] ++ zeros 16)) = .ok (.lp3 65536, []) ∧
    decode Cfg.nalp (.lp 4) (bits (List.replicate 32 1)) = .ok (.lp4 4294967295, []) ∧
    decode Cfg.nalp (.lp 5) (bits (zeros 40)) = .error .badWidth := by decide

/-- R96, R97: `42 01`, `c2 01` (the forbidden bit wins over type 33), `44 01` (type 34), and no header at all. -/
theorem test_decode_nh :
    decode Cfg.nalp .nh (bits [0, 1, 0, 0, 0, 0, 1, 0, 0, 0, 0, 0, 0, 0, 0, 1]) = .ok (.nalSps 1, []) ∧
    decode Cfg.nalp .nh (bits [1, 1, 0, 0, 0, 0, 1, 0, 0, 0, 0, 0, 0, 0, 0, 1]) = .ok (.nalMalformed 0x4201, []) ∧
    decode Cfg.nalp .nh (bits [0, 1, 0, 0, 0, 1, 0, 0, 0, 0, 0, 0, 0, 0, 0, 1]) = .ok (.nalOther 34 1, []) ∧
    decode Cfg.nalp .nh [] = .ok (.nalShort, []) := by decide

/-- R99, and the internal operations, which have no bits. -/
theorem test_decode_epb : decode Cfg.nalp .epb (bits (zeros 22 ++ [1, 1])) = .ok (.epb, []) ∧
    decode Cfg.nalp .epb (bits (zeros 21 ++ [1, 0, 0])) = .error .notEpb ∧
    decode Cfg.nalp (.op .epbremove) [] = .ok (.epbremove, []) ∧ decode Cfg.nalp (.op .nalunit) [] = .ok (.nalunit, []) ∧
    decode Cfg.nalp (.op .dispatch) [] = .ok (.dispatch, []) ∧ decode Cfg.nalp (.op .endcall) [] = .ok (.endcall, []) ∧
    decode Cfg.nalp (.op .parsesps) [] = .ok (.parsesps, []) := by decide

/-- R104, R100, R103: `u(3)` of '010'; '00101' is `k = 2`, `s = 1`, and what follows it is left. -/
theorem test_decode_codes : decode Cfg.nalp (.u 3) (bits [0, 1, 0, 1]) = .ok (.u 3 2, [true]) ∧
    decode Cfg.nalp .ue (bits [0, 0, 1, 0, 1, 1]) = .ok (.ue { k := 2, s := 1 }, [true]) ∧
    decode Cfg.nalp .se (bits [1]) = .ok (.se { k := 0, s := 0 }, []) ∧
    decode Cfg.nalp (.u 33) (bits (zeros 40)) = .error .badWidth := by decide

/-- R102, R108: 32 zeros and the end, the 33rd zero, and a suffix cut short. -/
theorem test_decode_bad_codes : decode Cfg.nalp .ue (bits (zeros 32)) = .error (.exhausted 1) ∧
    decode Cfg.nalp .ue (bits (zeros 33)) = .error .malformedCode ∧
    decode Cfg.nalp .se (bits [0, 0, 0, 0, 1, 0, 0, 0]) = .error (.exhausted 1) := by decide

/-- R111: `OP` in the three first bits, then `N` = 5. -/
theorem test_decode_br :
    decode Cfg.nalp .br (bits ([0, 0, 0] ++ zeros 33 ++ [1, 0, 1])) = .ok (.brInit 5, []) ∧
    decode Cfg.nalp .br (bits ([0, 0, 1] ++ zeros 33 ++ [1, 0, 1])) = .ok (.readbits 5, []) ∧
    decode Cfg.nalp .br (bits ([0, 1, 0] ++ zeros 33 ++ [1, 0, 1])) = .ok (.readflag 5, []) ∧
    decode Cfg.nalp .br (bits ([0, 1, 1] ++ zeros 33 ++ [1, 0, 1])) = .ok (.readue 5, []) ∧
    decode Cfg.nalp .br (bits ([1, 0, 0] ++ zeros 33 ++ [1, 0, 1])) = .ok (.readse 5, []) ∧
    decode Cfg.nalp .br (bits ([1, 0, 1] ++ zeros 33 ++ [1, 0, 1])) = .ok (.skipbits 5, []) ∧
    decode Cfg.nalp .br (bits ([1, 1, 0] ++ zeros 33 ++ [1, 0, 1])) = .ok (.bytealign 5, []) ∧
    decode Cfg.nalp .br (bits ([1, 1, 1] ++ zeros 33 ++ [1, 0, 1])) = .ok (.brReserved 5, []) := by decide

/-- The fixed elements of R105 and R106, the bits of V4.1 where it has the element. -/
theorem test_decode_sps_fixed :
    decode Cfg.nalp (.sps .videoParameterSetId) (bits [0, 1, 0, 0]) = .ok (.spsVideoParameterSetId 4, []) ∧
    decode Cfg.nalp (.sps .maxSubLayersMinus1) (bits [0, 0, 1]) = .ok (.spsMaxSubLayersMinus1 1, []) ∧
    decode Cfg.nalp (.sps .temporalIdNestingFlag) (bits [1]) = .ok (.spsTemporalIdNestingFlag 1, []) ∧
    decode Cfg.nalp (.sps .generalProfileSpace) (bits [1, 0]) = .ok (.spsGeneralProfileSpace 2, []) ∧
    decode Cfg.nalp (.sps .generalTierFlag) (bits [1]) = .ok (.spsGeneralTierFlag 1, []) ∧
    decode Cfg.nalp (.sps .generalProfileIdc) (bits [0, 0, 0, 0, 1]) = .ok (.spsGeneralProfileIdc 1, []) ∧
    decode Cfg.nalp (.sps .generalCompatibilityFlags) (bits ([0, 1, 1] ++ zeros 29)) =
      .ok (.spsGeneralCompatibilityFlags 0x60000000, []) ∧
    decode Cfg.nalp (.sps .generalSourceFlags) (bits [1, 0, 0, 1]) = .ok (.spsGeneralSourceFlags 9, []) ∧
    decode Cfg.nalp (.sps .generalConstraintBlock) (bits ([1] ++ zeros 42 ++ [1])) =
      .ok (.spsGeneralConstraintBlock 0x80000000001, []) ∧
    decode Cfg.nalp (.sps .generalLevelIdc) (bits [0, 1, 0, 1, 1, 1, 0, 1]) = .ok (.spsGeneralLevelIdc 93, []) := by
  decide

set_option maxRecDepth 2000 in
theorem test_decode_sps_sublayers :
    decode Cfg.nalp (.sps .subLayerPresentFlags) (bits [1, 0]) = .ok (.spsSubLayerPresentFlags 1 0, []) ∧
    decode Cfg.nalp (.sps .subLayerPadding) (bits [0, 1]) = .ok (.spsSubLayerPadding 1, []) ∧
    decode Cfg.nalp (.sps .subLayerProfile) (bits ([1] ++ zeros 86 ++ [1])) =
      .ok (.spsSubLayerProfile (BitVec.ofNat 88 (2 ^ 87 + 1)), []) ∧
    decode Cfg.nalp (.sps .subLayerLevelIdc) (bits [1, 0, 0, 0, 0, 0, 0, 0]) = .ok (.spsSubLayerLevelIdc 128, []) := by
  decide

theorem test_decode_sps_codes :
    decode Cfg.nalp (.sps .seqParameterSetId) (bits [1]) = .ok (.spsSeqParameterSetId { k := 0, s := 0 }, []) ∧
    decode Cfg.nalp (.sps .chromaFormatIdc) (bits [0, 1, 0]) = .ok (.spsChromaFormatIdc { k := 1, s := 0 }, []) ∧
    decode Cfg.nalp (.sps .separateColourPlaneFlag) (bits [1]) = .ok (.spsSeparateColourPlaneFlag 1, []) ∧
    decode Cfg.nalp (.sps .picWidth) (bits (zeros 10 ++ [1, 0, 1, 0, 0, 0, 0, 0, 0, 0, 1])) =
      .ok (.spsPicWidth { k := 10, s := 257 }, []) ∧
    decode Cfg.nalp (.sps .picHeight) (bits (zeros 9 ++ [1, 0, 1, 1, 0, 1, 0, 0, 0, 1])) =
      .ok (.spsPicHeight { k := 9, s := 209 }, []) ∧
    decode Cfg.nalp (.sps .conformanceWindowFlag) (bits [0]) = .ok (.spsConformanceWindowFlag 0, []) ∧
    decode Cfg.nalp (.sps .conformanceWindowOffsets) (bits [1, 0, 1, 0, 0, 1, 1, 1]) =
      .ok (.spsConformanceWindowOffsets { k := 0, s := 0 } { k := 1, s := 0 } { k := 1, s := 1 } { k := 0, s := 0 }, []) ∧
    decode Cfg.nalp (.sps .bitDepthLuma) (bits [0, 0, 0, 1, 0, 0, 1]) = .ok (.spsBitDepthLuma { k := 3, s := 1 }, []) ∧
    decode Cfg.nalp (.sps .bitDepthChroma) (bits [1]) = .ok (.spsBitDepthChroma { k := 0, s := 0 }, []) := by decide

/-- Words of spec/opcode_table.json as the host numbers them (log entry 6). -/
theorem test_table_words : decodeTableWord 8 0x1 = some .start ∧ decodeTableWord 24 0x000001 = some .sc3 ∧
    decodeTableWord 32 0x00000001 = some .sc4 ∧ decodeTableWord 16 0x8000 = some (.nalMalformed 0) ∧
    decodeTableWord 16 0x4200 = some (.nalSps 0) ∧ decodeTableWord 16 0x0000 = some (.nalOther 0 0) ∧
    decodeTableWord 24 0x000003 = some .epb ∧ decodeTableWord 40 0x1000000005 = some (.readbits 5) := by decide

/-- And the next step runs one of them as the first instruction after reset. -/
theorem test_fetch_word : after (step (State.reset.withFetchWord 16 0x4200)) State.nalType = some 33 ∧
    after (step (State.reset.withFetchWord 8 1)) State.phase = some .parsenals := by decide

/-! ## One step of each instruction -/

/-- 41_nal_scanner.md R160; 70_reset_and_hazards.md R281. -/
theorem test_start : after (exec .start (filled 4 [1, 2])) (fun t => (t.status, t.valid, t.phase)) = some (1, false, .parsenals) ∧
    after (exec .start { filled 4 [1, 2] with status := 0x1001 }) (fun t => (t.status, t.phase)) = some (0x1001, .idle) := by
  decide

/-- 60_exceptions.md R260, R161. -/
theorem test_start_refused : exec .start State.reset = .refused .startBeforeSetup ∧
    exec .start (filled 5 []) = .refused .reservedNsw ∧ exec .parsenals (filled 7 []) = .refused .reservedNsw ∧
    exec .nswReserved5 (filled 5 []) = .refused .reservedNsw ∧ exec .nswReserved6 (filled 6 []) = .refused .reservedNsw ∧
    exec .nswReserved7 (filled 7 []) = .refused .reservedNsw := ⟨rfl, rfl, rfl, rfl, rfl, rfl⟩

/-- R160: the sticky bits and counters of the call before are cleared. -/
theorem test_parsenals : after (exec .parsenals { inCall 0 [] 9 .parsenals with status := 0x1F01, nalCount := 7, lastErr := 4 })
    (fun t => (t.status, t.off, t.nalCount, t.lastErr, t.phase)) = some (1, 0, 0, 0, .scan) := by decide

/-- R168. -/
theorem test_endcall : after (exec .endcall { inCall 0 [] 0 .endcall with spsOk := 1 }) State.status = some 6 ∧
    after (exec .endcall (inCall 0 [] 0 .endcall)) State.status = some 2 := by decide

/-- The buffer of the example of R164. -/
def example164 : List Byte :=
  [0x00, 0x00, 0x00, 0x01, 0x46, 0x01, 0x50, 0x00, 0x00, 0x00, 0x01, 0x40, 0x01, 0x0C, 0x01]

/-- R164: the first start code is at 1, so the first NAL unit begins at 4; the last one begins at 11 and runs to `LEN`. -/
theorem test_scan_sc : after (exec .scanSc (inCall 0 example164 0 .scan)) (fun t => (t.off, t.phase)) = some (4, .delim) ∧
    after (exec .scanSc (inCall 0 example164 4 .scan)) (fun t => (t.off, t.nalOff, t.nalLen, t.phase)) =
      some (11, 11, 4, .nalunit) := by decide

/-- R164: offset 4, length 3; the step meets the 4-byte form there. -/
theorem test_sc4 : after (step (inCall 0 example164 4 .delim)) (fun t => (t.nalOff, t.nalLen, t.phase)) = some (4, 3, .nalunit) := by
  decide

/-- R91, R164: `00 00 01 42 01 aa 00 00 01`: the unit `42 01 aa`; and `00 00 01 00 00 01`: an empty unit. -/
theorem test_sc3 : after (step (inCall 0 [0, 0, 1, 0x42, 1, 0xAA, 0, 0, 1] 3 .delim)) State.nalLen = some 3 ∧
    after (exec .sc3 (inCall 0 [0, 0, 1, 0, 0, 1] 3 .delim)) State.nalLen = some 0 := by decide

/-- R162: at the end, without room for the field, and with room. -/
theorem test_scan_lp1 : after (exec .scanLp1 (inCall 1 [5] 1 .scan)) State.phase = some .endcall ∧
    after (exec .scanLp1 (inCall 1 [5] 0 .scan)) State.phase = some .lpField := by decide

theorem test_scan_lp2 : after (exec .scanLp2 (inCall 2 [0, 5, 9] 2 .scan)) (fun t => (t.status, t.lastErr, t.errOff, t.phase)) =
    some (0x401, 3, 2, .endcall) := by decide

theorem test_scan_lp3 : after (exec .scanLp3 (inCall 3 [0, 0, 0] 0 .scan)) State.phase = some .lpField := by decide

/-- V5: `00 00 00` with `w = 4` has no room for the field. -/
theorem test_scan_lp4 : after (exec .scanLp4 (inCall 4 [0, 0, 0] 0 .scan)) (fun t => (t.status, t.errOff)) =
    some (0x401, 0) := by decide

/-- R162: a NAL unit of no bytes, and one that ends the buffer. -/
theorem test_lp1 : after (step (inCall 1 [0, 0, 2, 0x42, 1] 0 .lpField)) (fun t => (t.nalOff, t.nalLen)) = some (1, 0) ∧
    after (step (inCall 1 [0, 0, 2, 0x42, 1] 2 .lpField)) (fun t => (t.nalOff, t.nalLen)) = some (3, 2) := by decide

/-- Big-endian (20_memory.md R64). -/
theorem test_lp2 : after (step (inCall 2 [1, 0] 0 .lpField)) (fun t => (t.status, t.phase)) = some (0x401, .endcall) ∧
    after (step (inCall 2 [0, 1, 9] 0 .lpField)) State.nalLen = some 1 := by decide

theorem test_lp3 : after (exec (.lp3 2) (inCall 3 [0, 0, 2, 0x42, 1] 0 .lpField)) (fun t => (t.nalOff, t.nalLen, t.phase)) =
    some (3, 2, .nalunit) := by decide

/-- The example of R162: the length `ff ff ff ff` does not wrap. -/
theorem test_lp4 : after (step (inCall 4 [0xFF, 0xFF, 0xFF, 0xFF, 0x42, 0x01] 0 .lpField))
    (fun t => (t.status, t.lastErr, t.errOff, t.nalCount, t.phase)) = some (0x401, 3, 0, 0, .endcall) := by decide

/-- R166. -/
theorem test_nalunit : after (exec .nalunit (inUnit 0 [0, 0, 1] 3 3 0 .nalunit)) (fun t => (t.nalCount, t.phase)) =
    some (1, .header) := by decide

/-- The example of R166: `c2 01 aa`. -/
theorem test_nal_malformed : after (step (inUnit 0 [0, 0, 1, 0xC2, 1, 0xAA] 3 3 3 .header))
    (fun t => (t.status, t.lastErr, t.errOff, t.phase)) = some (0x801, 4, 3, .scan) := by decide

/-- R166: one byte is no header; in length-prefixed mode the scan goes on at `OFF + w + n`. -/
theorem test_nal_short : after (step (inUnit 1 [1, 0x42, 0] 0 1 1 .header)) (fun t => (t.lastErr, t.errOff, t.off)) =
    some (4, 1, 2) := by decide

/-- R97: `42 01` is type 33, `44 01` type 34. -/
theorem test_nal_sps : after (step (inUnit 0 [0, 0, 1, 0x42, 1] 3 3 2 .header)) (fun t => (t.nalType, t.phase)) =
    some (33, .dispatch) := by decide

theorem test_nal_other : after (step (inUnit 0 [0, 0, 1, 0x44, 1] 3 3 2 .header)) (fun t => (t.nalType, t.status)) =
    some (34, 1) := by decide

/-- R167. -/
theorem test_dispatch : after (exec .dispatch { inUnit 0 [0, 0, 1, 0x42, 1] 3 3 2 .dispatch with nalType := 33 })
      (fun t => (t.spsSeen, t.phase)) = some (1, .epb) ∧
    after (exec .dispatch { inUnit 0 [0, 0, 1, 0x44, 1] 3 3 2 .dispatch with nalType := 34 })
      (fun t => (t.spsSeen, t.phase)) = some (0, .scan) := by decide

/-- In the loop of R190 on the payload `00 00 03 03` of V3.1 row 11. -/
def inLoop (i k : BitVec 32) : State :=
  { inUnit 1 [6, 0x42, 1, 0, 0, 3, 3] 0 1 6 .epb with epbI := i, epbK := k }

/-- V3.1 row 11: the first `03` is dropped. -/
theorem test_epb : after (step (inLoop 2 2)) (fun t => (t.epbI, t.epbK, t.scr)) = some (3, 2, []) := by decide

/-- The second `03` is kept (R191); past the last byte `SCR_LEN` is set. -/
theorem test_epbremove : after (step (inLoop 3 2)) (fun t => (t.epbK, t.scr)) = some (3, [(2, 3)]) ∧
    after (step (inLoop 4 3)) (fun t => (t.scrLen, t.phase)) = some (3, .parsesps) := by decide

/-- 40_bitreader.md R130. -/
theorem test_br_init : after (exec (.brInit 9) { reader [1, 2] 7 with viewArg := [3] })
    (fun t => (t.reader.pos, t.reader.total, t.reply)) = some (0, 8, .done) := by decide

/-- V2.1: 32 bits that span five bytes, and 4 bits left of 5. -/
theorem test_readbits : after (exec (.readbits 32) (reader [0x12, 0x34, 0x56, 0x78, 0x80] 4)) (fun t => (t.reply, t.reader.pos)) =
      some (.value 0x23456788, 36) ∧
    after (exec (.readbits 5) (reader [0x12, 0x34, 0x56, 0x78, 0x80] 36)) (fun t => (t.reply, t.reader.pos)) =
      some (.error .bitstreamExhausted, 36) := by decide

/-- R131: outside 1 to 32. -/
theorem test_readbits_range : exec (.readbits 0) (reader [0xA5] 0) = .refused .readBitsRange ∧
    exec (.readbits 33) (reader [0xA5] 0) = .refused .readBitsRange ∧
    exec (.brReserved 0) (reader [0xA5] 0) = .refused .reservedOp := ⟨rfl, rfl, rfl⟩

/-- V2.1: `80`, and the empty view. -/
theorem test_readflag : after (exec (.readflag 0) (reader [0x80] 0)) (fun t => (t.reply, t.reader.pos)) = some (.value 1, 1) ∧
    after (exec (.readflag 0) (reader [] 0)) (fun t => (t.reply, t.reader.pos)) = some (.error .bitstreamExhausted, 0) := by decide

/-- V2.2: the largest value, and the 33rd zero. -/
theorem test_readue : after (exec (.readue 0) (reader [0, 0, 0, 0, 0xFF, 0xFF, 0xFF, 0xFF, 0x80] 0)) (fun t => (t.reply, t.reader.pos)) =
      some (.value 8589934590, 65) ∧
    after (exec (.readue 0) (reader [0, 0, 0, 0, 0x40] 0)) (fun t => (t.reply, t.reader.pos)) = some (.error .malformedCode, 0) := by
  decide

/-- V2.3: `28` is -2; the most negative value is -(2^32 - 1) in 33 bits. -/
theorem test_readse : after (exec (.readse 0) (reader [0x28] 0)) (fun t => (t.reply, t.reader.pos)) = some (.value (-2), 5) ∧
    after (exec (.readse 0) (reader [0, 0, 0, 0, 0xFF, 0xFF, 0xFF, 0xFF, 0x80] 0)) State.reply =
      some (.value (-4294967295)) := by decide

/-- V2.1: 88 bits from 8, then 17 where 16 remain. -/
theorem test_skipbits : after (exec (.skipbits 88) (reader (List.replicate 14 0) 8)) (fun t => t.reader.pos) = some 96 ∧
    after (exec (.skipbits 17) (reader (List.replicate 14 0) 96)) (fun t => (t.reply, t.reader.pos)) =
      some (.error .bitstreamExhausted, 96) := by decide

/-- V2.1: 13 becomes 16, 16 stays. -/
theorem test_bytealign : after (exec (.bytealign 0) (reader [0, 0] 13)) (fun t => t.reader.pos) = some 16 ∧
    after (exec (.bytealign 0) (reader [0, 0] 16)) (fun t => t.reader.pos) = some 16 := by decide

/-- R104, R114: `u(3)` at position 1 of `a5` is '010'. -/
theorem test_u : after (step { reader [0xA5] 1 with host := [.code (.u 3)] }) (fun t => (t.reply, t.reader.pos)) =
    some (.value 2, 4) := by decide

/-- V2.2, `38`: 6 in 5 bits. -/
theorem test_ue : after (step { reader [0x38] 0 with host := [.code .ue] }) (fun t => (t.reply, t.reader.pos)) =
    some (.value 6, 5) := by decide

/-- V2.3, `38`: -3. -/
theorem test_se : after (step { reader [0x38] 0 with host := [.code .se] }) (fun t => (t.reply, t.reader.pos)) =
    some (.value (-3), 5) := by decide

/-- 20_memory.md R61, 60_exceptions.md R255: during a call and after one, a request reads the reader's own bytes, not `SCR`, and
leaves the engine's cursor. -/
theorem test_reader_apart : after (step { atElement .maxSubLayersMinus1 [0x01] 4 with host := [.request 0x1000000004], reader := ⟨[0xA5], 0⟩ })
    (fun t => (t.reply, t.pos, t.scr)) = some (.value 10, 4, [(0, 1)]) := by decide

/-- 43_sps_decoder.md R200. -/
theorem test_parsesps : after (exec .parsesps { inCall 0 [] 0 .parsesps with valid := true, scrLen := 19, pos := 5 })
    (fun t => (t.valid, t.pos, t.total, t.phase)) = some (false, 0, 152, .sps .videoParameterSetId) := by decide

/-- The payload of V4.1. -/
def v41 : List Byte :=
  [0x01, 0x01, 0x60, 0x00, 0x00, 0x00, 0x90, 0x00, 0x00, 0x00, 0x00, 0x00, 0x5D, 0xA0, 0x02, 0x80, 0x80, 0x2D, 0x17]

/-- V4.1, element by element: the position after it and what is kept. -/
theorem test_sps_leading :
    after (step (atElement .videoParameterSetId v41 0)) State.pos = some 4 ∧
    after (step (atElement .maxSubLayersMinus1 v41 4)) (fun t => (t.pos, t.nSub)) = some (7, 0) ∧
    after (step (atElement .temporalIdNestingFlag v41 7)) State.pos = some 8 ∧
    after (step (atElement .generalProfileSpace v41 8)) State.pos = some 10 ∧
    after (step (atElement .generalTierFlag v41 10)) State.pos = some 11 ∧
    after (step (atElement .generalProfileIdc v41 11)) (fun t => (t.pos, t.tProfile)) = some (16, 1) := by decide

theorem test_sps_general :
    after (step (atElement .generalCompatibilityFlags v41 16)) State.pos = some 48 ∧
    after (step (atElement .generalSourceFlags v41 48)) State.pos = some 52 ∧
    after (step (atElement .generalConstraintBlock v41 52)) (fun t => (t.pos, t.c44, t.tRext)) = some (96, 0, 0) ∧
    after (step (atElement .generalLevelIdc v41 96)) (fun t => (t.pos, t.tLevel, t.phase)) =
      some (104, 93, .sps .seqParameterSetId) := by decide

theorem test_sps_codes :
    after (step (atElement .seqParameterSetId v41 104)) State.pos = some 105 ∧
    after (step (atElement .chromaFormatIdc v41 105)) (fun t => (t.pos, t.tChroma, t.phase)) =
      some (108, 1, .sps .picWidth) ∧
    after (step (atElement .picWidth v41 108)) State.pos = some 129 ∧
    after (step (atElement .picHeight v41 129)) State.pos = some 148 ∧
    after (step (atElement .conformanceWindowFlag v41 148)) (fun t => (t.pos, t.phase)) = some (149, .sps .bitDepthLuma) ∧
    after (step (atElement .bitDepthLuma v41 149)) (fun t => (t.pos, t.tDepth)) = some (150, 8) := by decide

/-- V4.1 at its last element, with what the elements before it staged. -/
def v41Last : State := { atElement .bitDepthChroma v41 150 with tProfile := 1, tLevel := 93, tChroma := 1, tDepth := 8 }

/-- The commit at 151 (R231). -/
theorem test_sps_commit :
    after (step v41Last) (fun t => (t.valid, t.profile, t.level, t.chromaFormat, t.bitDepth)) = some (true, 1, 93, 1, 8) ∧
    after (step v41Last) (fun t => (t.pos, t.spsOk, t.phase)) = some (151, 1, .scan) := by decide

/-- V4.4: the first 13 bytes of V4.3 fail at position 104 with `BitstreamExhausted`, recorded with `NAL_OFF`. -/
theorem test_sps_exhausted : after (step (atElement .seqParameterSetId (v41.take 13) 104))
    (fun t => (t.status, t.lastErr, t.errOff, t.valid, t.phase)) = some (0x101, 1, 3, false, .scan) := by decide

/-- R208, 60_exceptions.md R249: an 11-byte payload ends between the two requests, at position 84. -/
theorem test_sps_between_requests :
    after (step (atElement .generalConstraintBlock (v41.take 11) 52)) (fun t => (t.status, t.pos, t.c44)) = some (0x101, 84, 0) ∧
    after (exec (.spsGeneralConstraintBlock 0) (atElement .generalConstraintBlock (v41.take 11) 52)) (fun t => (t.status, t.pos)) =
      some (0x101, 84) := by decide

/-- R211, R226, R249: the first of two flags is written; two offsets of four are passed ('1', '010', '0000'). -/
theorem test_sps_between_codes :
    after (step { atElement .subLayerPresentFlags [0x01] 7 with nSub := 2, subI := 1 }) (fun t => (t.status, t.pos, t.pp)) =
      some (0x101, 8, 2) ∧
    after (step (atElement .conformanceWindowOffsets [0xA0] 0)) (fun t => (t.status, t.pos)) = some (0x101, 4) := by decide

/-- R133 in `SCR` no byte of which is written (no run meets it): with a marker and no room for the suffix nothing is read. -/
theorem test_sps_room_first :
    after (step { atElement .picWidth [0x00, 0x01] 0 with scrLen := 3, total := 24 }) (fun t => (t.status, t.pos)) = some (0x101, 0) := by
  decide

/-- V4.5: 40 zeros at position 104 (the third row), `chroma_format_idc` 4 at 105 (the fourth). -/
theorem test_sps_bad_codes :
    after (step (atElement .seqParameterSetId (v41.take 13 ++ [0, 0, 0, 0, 0]) 104)) (fun t => (t.status, t.lastErr)) =
      some (0x201, 2) ∧
    after (step (atElement .chromaFormatIdc (v41.take 13 ++ [0x94, 0x00]) 105)) (fun t => (t.status, t.lastErr)) =
      some (0x1001, 5) := by decide

/-- V4.5, the last row: `bit_depth_luma_minus8` 9 at 149. -/
theorem test_sps_depth : after (step (atElement .bitDepthLuma (v41.take 18 ++ [0x10, 0xAC]) 149)) (fun t => (t.status, t.lastErr)) =
    some (0x1001, 5) := by decide

/-- V4.6: the colour-plane flag at 110, and `bit_depth_luma_minus8` 8 at 138. -/
theorem test_sps_colour_plane :
    after (step (atElement .chromaFormatIdc (v41.take 13 ++ [0x90, 0x04, 0x10, 0x20, 0x84, 0x89, 0x80]) 105))
      (fun t => (t.pos, t.tChroma, t.phase)) = some (110, 3, .sps .separateColourPlaneFlag) ∧
    after (step (atElement .separateColourPlaneFlag (v41.take 13 ++ [0x90, 0x04]) 110)) (fun t => (t.pos, t.phase)) =
      some (111, .sps .picWidth) ∧
    after (step (atElement .bitDepthLuma (v41.take 13 ++ [0x90, 0x04, 0x10, 0x20, 0x84, 0x89, 0x80]) 138)) State.tDepth =
      some 16 := by decide

/-- R211: the pair '10' of sub-layer 1 of 2, then the padding from index 2 (R212). -/
theorem test_sps_present_flags : after (step { atElement .subLayerPresentFlags [0x80] 0 with nSub := 2, subI := 1 })
    (fun t => (t.pp, t.lp, t.subI, t.phase)) = some (2, 0, 2, .sps .subLayerPadding) := by decide

/-- R212, R213: after index 7 the data of the first sub-layer that has any; none has a profile, sub-layer 1 has a level. -/
theorem test_sps_padding : after (step { atElement .subLayerPadding [0x00] 0 with nSub := 2, subI := 7, lp := 2 })
    (fun t => (t.pos, t.subI, t.phase)) = some (2, 1, .sps .subLayerLevelIdc) := by decide

/-- R213: 88 bits, then the level of the same sub-layer. -/
theorem test_sps_sub_profile :
    after (step { atElement .subLayerProfile (List.replicate 12 0) 0 with nSub := 1, pp := 1, lp := 1 })
      (fun t => (t.pos, t.phase)) = some (88, .sps .subLayerLevelIdc) := by decide

theorem test_sps_sub_level : after (step { atElement .subLayerLevelIdc [0x5D] 0 with nSub := 1, lp := 1 })
    (fun t => (t.pos, t.phase)) = some (8, .sps .seqParameterSetId) := by decide

/-- R226: '1', '010', '011', '1'. -/
theorem test_sps_offsets : after (step (atElement .conformanceWindowOffsets [0xA7] 0)) (fun t => (t.pos, t.phase)) =
    some (8, .sps .bitDepthLuma) := by decide

/-! ## Witnesses: states and operands that meet the hypotheses of the statements, at the edges of their ranges -/

/-- The bits at the cursor, from the bits read there. -/
theorem known_of_viewBits {s : State} {bs : Bits} {p : Nat} (h : s.viewBits bs.length p = (bs, none)) :
    ∀ k (hk : k < bs.length), s.viewBit (p + k) = .ok bs[k] := by
  induction bs generalizing p with
  | nil => intro k hk; exact absurd hk (Nat.not_lt_zero k)
  | cons b r ih =>
    rw [List.length_cons, viewBits_succ] at h
    cases hb : s.viewBit p with
    | error f => rw [hb] at h; cases h
    | ok c =>
      rw [hb] at h
      simp only [Prod.mk.injEq, List.cons.injEq] at h
      obtain ⟨⟨rfl, h1⟩, h2⟩ := h
      intro k hk
      cases k with
      | zero => simpa using hb
      | succ k =>
        have := ih (p := p + 1) (Prod.ext h1 h2) k (by simpa using hk)
        simpa [show p + 1 + k = p + (k + 1) by omega] using this

theorem cursorAt_of {s : State} {bs : Bits} (hl : bs.length ≤ s.remain)
    (h : s.viewBits bs.length s.pos.toNat = (bs, none)) : s.CursorAt bs := ⟨hl, known_of_viewBits h⟩

/-- The first bits of the payload, from the bits of its bytes. -/
theorem payloadBegins_of {s : State} {bs : Bits} (hl : bs.length ≤ 8 * s.scrLen.toNat)
    (h : ∀ k < bs.length, (s.scr.read? (k / 8)).map (fun b => b.getLsbD (7 - k % 8)) = bs[k]?) : s.PayloadBegins bs := by
  refine ⟨hl, fun k hk => ?_⟩
  have := h k hk
  rw [List.getElem?_eq_getElem hk] at this
  exact Option.map_eq_some_iff.1 this

/-- A busy state with the host about to do something. -/
def busyHost (l : List HostAct) : State := { inCall 1 [5] 0 .scan with host := l }

/-- An idle state with the host about to do something. -/
def idleHost (l : List HostAct) : State := { filled 1 [5] with host := l }

theorem witness_ResetInputAbandonsCall : (busyHost [.reset, .pass]).host = .reset :: [.pass] := rfl

theorem witness_StartBeginsCall : ∀ w ∈ [0, 4], (filled w [5]).nsw.toNat ≤ 4 ∧ (filled w [5]).busy = false ∧
    (filled w [5]).lenWritten = true ∧ (filled w [5]).nswWritten = true := by decide

theorem witness_StartIgnoredWhileBusy : (busyHost [.write 0 0xFFFFFFFF]).busy = true ∧
    (busyHost [.write 0 0xFFFFFFFF]).host = .write 0 0xFFFFFFFF :: [] ∧ (0xFFFFFFFF : BitVec 32).getLsbD 0 = true := by decide

theorem witness_ReservedWidthRefused : ∀ w ∈ [5, 7], 4 < (filled w []).nsw.toNat ∧ (filled w []).busy = false ∧
    (filled w []).lenWritten = true ∧ (filled w []).nswWritten = true := by decide

theorem witness_CtrlWriteIsTheCommand :
    ((idleHost [.write 0 1]).host = .write 0 1 :: [] ∧ (1 : BitVec 32).getLsbD 0 = true) ∧
    (idleHost [.write 0 0xFFFFFFFE]).host = .write 0 0xFFFFFFFE :: [] ∧ (0xFFFFFFFE : BitVec 32).getLsbD 0 = false := by
  decide

theorem witness_HostSetUpWrites :
    ((idleHost [.write 2 9]).busy = false ∧ (idleHost [.write 2 9]).host = .write 2 9 :: []) ∧
    ((idleHost [.write 3 9]).busy = false ∧ (idleHost [.write 3 9]).host = .write 3 9 :: []) ∧
    ((idleHost [.writeBuf 7 1]).busy = false ∧ (idleHost [.writeBuf 7 1]).host = .writeBuf 7 1 :: []) ∧
    ∀ reg ∈ [1, 4, 14], (reg = 1 ∨ 4 ≤ reg ∧ reg ≤ 14) ∧ (busyHost [.write reg 1]).host = .write reg 1 :: [] := by decide

theorem witness_HostHazardsRefused :
    (State.reset.busy = false ∧ (State.reset.lenWritten = false ∨ State.reset.nswWritten = false)) ∧
    (∀ reg ∈ [2, 3], (busyHost [.write reg 1]).busy = true ∧ (busyHost [.write reg 1]).host = .write reg 1 :: []) ∧
    ((busyHost [.writeBuf 0 1]).busy = true ∧ (busyHost [.writeBuf 0 1]).host = .writeBuf 0 1 :: []) ∧
    (∀ reg ∈ [0, 2, 14], (busyHost [.read reg]).busy = true ∧ (busyHost [.read reg]).host = .read reg :: []) ∧
    ∀ reg ∈ [5, 9], (idleHost [.read reg]).busy = false ∧ (idleHost [.read reg]).valid = false ∧
      (idleHost [.read reg]).host = .read reg :: [] := by decide

theorem witness_HostReadsRegisters :
    (∀ reg ∈ [0, 4, 10, 14], (idleHost [.read reg]).busy = false ∧ (idleHost [.read reg]).host = .read reg :: []) ∧
    (∀ reg ∈ [5, 9], (idleHost [.read reg]).busy = false ∧ ({ idleHost [.read reg] with valid := true }).valid = true) ∧
    (busyHost [.read 1]).busy = true ∧ (busyHost [.read 1]).host = .read 1 :: [] := by decide

/-- The three cases for each width: at the end, one byte short of a field, a field that ends the buffer. -/
theorem witness_ScanPrefixedHead : ∀ w ∈ [1, 2, 3, 4],
    (inCall (BitVec.ofNat 3 w) [1, 2, 3, 4] 4 .scan).len.toNat ≤ (inCall (BitVec.ofNat 3 w) [1, 2, 3, 4] 4 .scan).off.toNat ∧
    (1 < w → (inCall (BitVec.ofNat 3 w) [1, 2, 3, 4] (BitVec.ofNat 33 (5 - w)) .scan).off.toNat < 4 ∧
      4 < (inCall (BitVec.ofNat 3 w) [1, 2, 3, 4] (BitVec.ofNat 33 (5 - w)) .scan).off.toNat + w) ∧
    (inCall (BitVec.ofNat 3 w) [1, 2, 3, 4] (BitVec.ofNat 33 (4 - w)) .scan).off.toNat + w ≤ 4 := by decide

/-- One byte too many, and exactly to the end. -/
theorem witness_LengthPrefixBoundsUnit :
    (inCall 1 [2, 9] 0 .lpField).len.toNat < (inCall 1 [2, 9] 0 .lpField).off.toNat + 1 + (2 : BitVec 8).toNat ∧
    (inCall 1 [1, 9] 0 .lpField).off.toNat + 1 + (1 : BitVec 8).toNat ≤ (inCall 1 [1, 9] 0 .lpField).len.toNat ∧
    (inCall 4 [0, 0, 0, 2, 9] 0 .lpField).len.toNat < 0 + 4 + (2 : BitVec 32).toNat ∧
    0 + 4 + (0 : BitVec 32).toNat ≤ (inCall 4 [0, 0, 0, 0] 0 .lpField).len.toNat := by decide

theorem filled_example164 : (inCall 0 example164 0 .scan).BufWritten ∧ (inCall 0 example164 4 .scan).BufWritten := by
  unfold State.BufWritten; decide

/-- No start code (the last two bytes of one alone), one that the buffer ends with, and the two of R164's example. -/
theorem witness_ScanStartCodeHead :
    ((inCall 0 [0, 1] 0 .scan).BufWritten ∧ ∀ k, (inCall 0 [0, 1] 0 .scan).off.toNat ≤ k → ¬ (inCall 0 [0, 1] 0 .scan).IsStartCode k) ∧
    ((inCall 0 [0, 0, 1] 0 .scan).BufWritten ∧ (inCall 0 [0, 0, 1] 0 .scan).FirstStartCode 0 0 ∧
      ∀ k, 0 + 3 ≤ k → ¬ (inCall 0 [0, 0, 1] 0 .scan).IsStartCode k) ∧
    (inCall 0 example164 0 .scan).BufWritten ∧ (inCall 0 example164 0 .scan).FirstStartCode 0 1 ∧
      (inCall 0 example164 0 .scan).FirstStartCode (1 + 3) 8 :=
  ⟨⟨by unfold State.BufWritten; decide, findSc_none rfl⟩,
    ⟨by unfold State.BufWritten; decide, findSc_some rfl, findSc_none rfl⟩,
    filled_example164.1, findSc_some rfl, findSc_some rfl⟩

/-- A start code right at `OFF` (an empty unit), one with a zero before it, and none. -/
theorem witness_StartCodeEndsUnit :
    ((inCall 0 [0, 0, 1, 0, 0, 1] 3 .delim).BufWritten ∧ (inCall 0 [0, 0, 1, 0, 0, 1] 3 .delim).FirstStartCode 3 3) ∧
    (inCall 0 example164 4 .scan).FirstStartCode 4 8 ∧
    (inCall 0 [0, 0, 1] 3 .delim).BufWritten ∧ ∀ k, 3 ≤ k → ¬ (inCall 0 [0, 0, 1] 3 .delim).IsStartCode k :=
  ⟨⟨by unfold State.BufWritten; decide, findSc_some rfl⟩, findSc_some rfl, by unfold State.BufWritten; decide,
    findSc_none rfl⟩

/-- A start code that ends the buffer, a buffer of two bytes, and a search that begins at `LEN - 2`. -/
theorem witness_FindScIsLeast : (inCall 0 [9, 0, 0, 1] 0 .scan).BufWritten ∧ (inCall 0 [9, 0, 0, 1] 0 .scan).FirstStartCode 0 1 ∧
    (inCall 0 [0, 0] 0 .scan).len.toNat < 3 ∧ (inCall 0 [9, 0, 0, 1] 0 .scan).len.toNat - 3 < 2 :=
  ⟨by unfold State.BufWritten; decide, findSc_some rfl, by decide, by decide⟩

theorem witness_UnitCountedAndDispatched :
    { inUnit 0 [0, 0, 1, 0x44, 1] 3 3 2 .dispatch with nalType := 34 }.nalType ≠ Cfg.nalp.spsNut ∧
    { inUnit 0 [0, 0, 1, 0x42, 1] 3 3 2 .dispatch with nalType := 33 }.nalType = Cfg.nalp.spsNut := by decide

theorem witness_MalformedUnitSkipped : (Instr.nalShort = .nalShort ∨ ∃ rest, Instr.nalShort = .nalMalformed rest) ∧
    (Instr.nalMalformed 0 = .nalShort ∨ ∃ rest, Instr.nalMalformed 0 = .nalMalformed rest) :=
  ⟨.inl rfl, .inr ⟨0, rfl⟩⟩

/-- The last payload byte, which is the last byte of the buffer, and the line after the loop. -/
theorem witness_EpbLoopIteration :
    ((inLoop 3 2).epbI.toNat < (inLoop 3 2).nalLen.toNat - 2 ∧
      (inLoop 3 2).nalOff.toNat + 2 + (inLoop 3 2).epbI.toNat < (inLoop 3 2).len.toNat ∧
      (inLoop 3 2).buf.read? ((inLoop 3 2).nalOff.toNat + 2 + (inLoop 3 2).epbI.toNat) = some 3) ∧
    (inLoop 4 3).nalLen.toNat - 2 ≤ (inLoop 4 3).epbI.toNat := by decide

theorem witness_EpbremoveRefinesRule : (inLoop 0 0).host = [] ∧ (inLoop 0 0).phase = .epb ∧ (inLoop 0 0).epbI = 0 ∧
    (inLoop 0 0).epbK = 0 ∧
    (inLoop 0 0).bufBytes ((inLoop 0 0).nalLen.toNat - 2) ((inLoop 0 0).nalOff.toNat + 2) = .ok [0, 0, 3, 3] :=
  ⟨rfl, rfl, rfl, rfl, rfl⟩

/-- A payload with an emulation-prevention byte, and one without (V3.1 row 3). -/
def inLoop3 : State := inUnit 1 [5, 0x42, 1, 0, 0, 4] 0 1 5 .epb

theorem witness_RemovalNeverGrows : (inLoop 0 0).bufBytes ((inLoop 0 0).nalLen.toNat - 2) ((inLoop 0 0).nalOff.toNat + 2) =
      .ok [0, 0, 3, 3] ∧
    (inLoop3.host = [] ∧ inLoop3.phase = .epb ∧ inLoop3.epbI = 0 ∧ inLoop3.epbK = 0) ∧
    inLoop3.bufBytes (inLoop3.nalLen.toNat - 2) (inLoop3.nalOff.toNat + 2) = .ok [0, 0, 4] ∧
    ∀ i : Nat, ¬ (([0x00, 0x00, 0x04] : List Byte)[i]? = some 0x00 ∧ ([0x00, 0x00, 0x04] : List Byte)[i + 1]? = some 0x00 ∧
      ([0x00, 0x00, 0x04] : List Byte)[i + 2]? = some 0x03) := by
  refine ⟨rfl, ⟨rfl, rfl, rfl, rfl⟩, rfl, fun i => ?_⟩
  match i with
  | 0 | 1 | 2 => decide
  | i + 3 => simp

/-- Each element with exactly its bits left. -/
theorem witness_DiscardedFieldsAdvance :
    4 ≤ (atElement .videoParameterSetId [0] 4).remain ∧ 32 ≤ (atElement .generalCompatibilityFlags [0, 0, 0, 0] 0).remain ∧
    1 ≤ (atElement .separateColourPlaneFlag [0] 7).remain := by decide

theorem witness_KeptFieldsStaged : 3 ≤ (atElement .maxSubLayersMinus1 [0] 5).remain ∧
    5 ≤ (atElement .generalProfileIdc [0] 3).remain ∧ 44 ≤ (atElement .generalConstraintBlock [0, 0, 0, 0, 0, 0] 4).remain ∧
    8 ≤ (atElement .generalLevelIdc [0] 0).remain := by decide

/-- At sub-layer `i` of `N_SUB` with `n` payload bytes and the padding rule `p`. -/
def atSub (e : SpsElem) (n : Nat) (pos : BitVec 36) (i : BitVec 4) (nSub : BitVec 3) (lp : BitVec 7) (p : PtlPad) : State :=
  { atElement e (List.replicate n 0) pos with subI := i, nSub := nSub, lp := lp, cfg := { Cfg.nalp with ptlPad := p } }

/-- Another pair to come, the last pair under each padding rule, padding before and at index 7, a profile with and without a
level, a level. -/
theorem witness_SubLayerElements :
    (2 ≤ (atSub .subLayerPresentFlags 1 6 0 2 0 .hevc).remain ∧ 0 + 1 < (atSub .subLayerPresentFlags 1 6 0 2 0 .hevc).nSub.toNat) ∧
    ((atSub .subLayerPresentFlags 1 6 1 2 0 .hevc).nSub.toNat ≤ 1 + 1 ∧ (atSub .subLayerPresentFlags 1 6 1 2 0 .hevc).cfg.ptlPad = .hevc) ∧
    ((atSub .subLayerPresentFlags 1 6 6 7 0 .none).nSub.toNat ≤ 6 + 1 ∧ (atSub .subLayerPresentFlags 1 6 6 7 0 .none).cfg.ptlPad = .none) ∧
    (2 ≤ (atSub .subLayerPadding 1 6 6 1 0 .hevc).remain ∧ (atSub .subLayerPadding 1 6 6 1 0 .hevc).subI.toNat < 7) ∧
    7 ≤ (atSub .subLayerPadding 1 6 7 1 0 .hevc).subI.toNat ∧
    (88 ≤ (atSub .subLayerProfile 11 0 0 1 1 .hevc).remain ∧ (atSub .subLayerProfile 11 0 0 1 1 .hevc).lp.getLsbD 0 = true) ∧
    (atSub .subLayerProfile 11 0 0 1 0 .hevc).lp.getLsbD 0 = false ∧
    8 ≤ (atSub .subLayerLevelIdc 1 0 0 1 1 .hevc).remain := by decide

/-- A one-bit code at the last bit, a code of 65 bits, and four codes of 8 bits in all. -/
theorem witness_DiscardedCodesAdvance : 2 * ({ k := 0, s := 0 } : UeCode).k.toNat + 1 ≤ (atElement .picWidth [0] 7).remain ∧
    2 * ({ k := 32, s := 0 } : UeCode).k.toNat + 1 ≤ (atElement .picWidth (List.replicate 9 0) 7).remain ∧
    1 ≤ (atElement .conformanceWindowFlag [0] 7).remain ∧ 8 ≤ (atElement .conformanceWindowOffsets [0xA7] 0).remain := by
  decide

/-- Values 3 and 4 ('00100' and '00101'), 8 and 9 ('0001001' and '0001010'), each with exactly its bits left. -/
theorem witness_RangeCheckedFieldsStaged :
    (3 = 2 ^ (2 : BitVec 6).toNat - 1 + (0 : BitVec 32).toNat ∧ 4 = 2 ^ (2 : BitVec 6).toNat - 1 + (1 : BitVec 32).toNat ∧
      2 * (2 : BitVec 6).toNat + 1 ≤ (atElement .chromaFormatIdc [0] 3).remain) ∧
    8 = 2 ^ (3 : BitVec 6).toNat - 1 + (1 : BitVec 32).toNat ∧ 9 = 2 ^ (3 : BitVec 6).toNat - 1 + (2 : BitVec 32).toNat ∧
      2 * (3 : BitVec 6).toNat + 1 ≤ (atElement .bitDepthLuma [0] 1).remain := by decide

theorem witness_CommitWritesRecord : 2 * (0 : BitVec 6).toNat + 1 ≤ (atElement .bitDepthChroma [0x80] 7).remain := by decide

/-- A level cut short, and a constraint block cut short before, and at, its second request. -/
theorem witness_ShortElementAborts : (Instr.spsGeneralLevelIdc 93).fmt = .sps .generalLevelIdc ∧
    (atElement .generalLevelIdc [0] 1).remain < (encode Cfg.nalp (.spsGeneralLevelIdc 93)).length ∧
    (Instr.spsGeneralConstraintBlock 0).fmt = .sps .generalConstraintBlock ∧
    ∀ v : BitVec 44,
      (atElement .generalConstraintBlock [0, 0, 0, 0] 1).remain < (encode Cfg.nalp (.spsGeneralConstraintBlock v)).length ∧
      (atElement .generalConstraintBlock [0, 0, 0, 0] 0).remain < (encode Cfg.nalp (.spsGeneralConstraintBlock v)).length := by
  refine ⟨rfl, by decide, rfl, fun v => ?_⟩
  have h : (encode Cfg.nalp (.spsGeneralConstraintBlock v)).length = 44 := bitsOfBv_length v
  rw [h]
  exact ⟨by decide, by decide⟩

/-- 1 bit and 32 bits to the end of the view, one bit too many, the edges of the domain, and a flag. -/
theorem witness_ReadbitsReadsField :
    (reader [1] 7).ReaderAt (bits [1]) ∧ (reader [0, 0, 0, 9] 0).ReaderAt (bits (zeros 28 ++ [1, 0, 0, 1])) ∧
    (reader [1] 0).reader.remain < (9 : BitVec 36).toNat ∧ ((0 : BitVec 36).toNat = 0 ∨ 32 < (33 : BitVec 36).toNat) ∧
    (reader [] 0).reader.remain = 0 := by decide

/-- The shortest code and the longest. -/
theorem witness_ReadueReadsCode : (UeCode.mk 0 0).wf = true ∧ (reader [0x80] 0).ReaderAt (UeCode.mk 0 0).bits ∧
    (UeCode.mk 32 0).wf = true ∧ (reader [0, 0, 0, 0, 0x80, 0, 0, 0, 0] 0).ReaderAt (UeCode.mk 32 0).bits := by decide

/-- No bits at all, 32 zeros and the end, 33 zeros, and a suffix one bit short (`08` of V2.2). -/
theorem witness_ReadueErrorsInOrder : Instr.readue 0 ∈ [Instr.readue 0, Instr.readse 0] ∧
    (reader [] 0).reader.bits = List.replicate 0 false ∧
    (reader [0, 0, 0, 0] 0).reader.bits = List.replicate 32 false ∧
    (reader [0, 0, 0, 0, 0x40] 0).ReaderAt (List.replicate 33 false) ∧
    (bits [0, 0, 0]).length < 4 ∧ (reader [0x08] 0).reader.bits = List.replicate 4 false ++ true :: bits [0, 0, 0] := by decide

theorem witness_CursorRequests : (reader [1] 0).viewArg.length < 2 ^ 32 ∧
    (88 : BitVec 36).toNat ≤ (reader (List.replicate 11 0) 0).reader.remain ∧
    (reader (List.replicate 11 0) 0).reader.remain < (89 : BitVec 36).toNat := by decide

theorem witness_CodesAtCursor : (1 ≤ (1 : BitVec 6).toNat ∧ (1 : BitVec 6).toNat ≤ (reader [0] 7).reader.remain) ∧
    (1 ≤ (32 : BitVec 6).toNat ∧ (32 : BitVec 6).toNat ≤ 32 ∧ (32 : BitVec 6).toNat ≤ (reader [0, 0, 0, 0] 0).reader.remain) ∧
    ((0 : BitVec 6).toNat = 0 ∨ 32 < (33 : BitVec 6).toNat) ∧ 2 * (0 : BitVec 6).toNat + 1 ≤ (reader [0x80] 7).reader.remain := by
  decide

theorem witness_FailureIsAtomic : (Instr.readue 0).fmt = .br ∧
    ∃ t, exec (.readue 0) (reader [0] 0) = .next t ∧ t.reply = .error .bitstreamExhausted := ⟨rfl, _, rfl, rfl⟩

/-- The same reader beside another instance, in the middle of a call. -/
theorem witness_ReaderIsPure : (Instr.readflag 0).fmt = .br ∧
    { atElement .picWidth [9] 0 with reader := ⟨[0x80], 7⟩ }.reader = (reader [0x80] 7).reader ∧
    { atElement .picWidth [9] 0 with reader := ⟨[0x80], 7⟩ }.viewArg = (reader [0x80] 7).viewArg ∧
    ∃ t, exec (.readflag 0) (reader [0x80] 7) = .next t := ⟨rfl, rfl, rfl, _, rfl⟩

/-- Law (d) of R140 on V2.1's first view. -/
theorem witness_ReadbitsConcatenate : ∃ t u, exec (.readbits 4) (reader [0xA5, 0xC3, 0xFF, 0x00] 0) = .next t ∧
    t.reply = .value 10 ∧ exec (.readbits 28) t = .next u ∧ u.reply = .value 0x5C3FF00 ∧
    (4 : BitVec 36).toNat + (28 : BitVec 36).toNat ≤ 32 := ⟨_, _, rfl, rfl, rfl, rfl, by decide⟩

/-- The three classes of a header, and length fields of 1 to 4 bytes. -/
theorem witness_HeaderClassAndLengthOrder :
    (0xC201 : BitVec 16).getLsbD 15 = true ∧
    ((0x4201 : BitVec 16).getLsbD 15 = false ∧ (0x4201 : BitVec 16).extractLsb' 9 6 = Cfg.nalp.spsNut) ∧
    ((0x4401 : BitVec 16).getLsbD 15 = false ∧ (0x4401 : BitVec 16).extractLsb' 9 6 ≠ Cfg.nalp.spsNut) ∧
    ∀ w ∈ [1, 2, 3, 4], ([0xFF, 0xFF, 0xFF, 0xFF].take w : List Byte).length = w := by decide

theorem witness_DecodeEncodeRoundTrip : (Instr.u 32 0xFFFFFFFF).wf Cfg.nalp = true ∧ Instr.u 32 0xFFFFFFFF ≠ .nalShort ∧
    (Instr.spsPicWidth { k := 32, s := 0 }).wf Cfg.nalp = true ∧ Instr.nalShort.wf Cfg.nalp = true := by decide

theorem witness_DecodedBitsAreTheEncoding :
    decode Cfg.nalp .ue (bits [0, 0, 1, 0, 1, 1]) = .ok (.ue { k := 2, s := 1 }, [true]) := by decide

/-- Each place of the engine, with what stands there. -/
theorem witness_StepRunsStreamStructure :
    ((inCall 0 [] 0 .scan).host = [] ∧ (inCall 0 [] 0 .scan).phase = .scan ∧
      decode Cfg.nalp .nsw (bitsOfBv (inCall 0 [] 0 .scan).nsw) = .ok (.scanSc, [])) ∧
    ((inCall 1 [5] 0 .lpField).phase = .lpField ∧
      (inCall 1 [5] 0 .lpField).bufBytes (inCall 1 [5] 0 .lpField).nsw.toNat (inCall 1 [5] 0 .lpField).off.toNat = .ok [5] ∧
      decode Cfg.nalp (.lp 1) (bitsOfBytes [5]) = .ok (.lp1 5, [])) ∧
    ((inCall 0 example164 4 .delim).phase = .delim ∧ (inCall 0 example164 4 .delim).BufWritten ∧
      (inCall 0 example164 4 .delim).FirstStartCode 4 8 ∧ (inCall 0 example164 4 .delim).buf.read? (8 - 1) = some 0x00) ∧
    ((inCall 0 [0, 0, 1, 0, 0, 1] 3 .delim).FirstStartCode 3 3 ∧ ¬ (3 < 3 ∧ (inCall 0 [0, 0, 1, 0, 0, 1] 3 .delim).buf.read? (3 - 1) = some 0x00)) ∧
    ((inUnit 0 [0, 0, 1, 0x42, 1] 3 3 2 .header).phase = .header ∧ 2 ≤ (inUnit 0 [0, 0, 1, 0x42, 1] 3 3 2 .header).nalLen.toNat ∧
      (inUnit 0 [0, 0, 1, 0x42, 1] 3 3 2 .header).bufBytes 2 3 = .ok [0x42, 1] ∧
      decode Cfg.nalp .nh (bitsOfBytes [0x42, 1]) = .ok (.nalSps 1, [])) ∧
    (inUnit 0 [0, 0, 1, 0x42] 3 3 1 .header).nalLen.toNat < 2 ∧
    ((inLoop 2 2).phase = .epb ∧ 2 ≤ (inLoop 2 2).epbI.toNat ∧ (inLoop 2 2).epbI.toNat < (inLoop 2 2).nalLen.toNat - 2 ∧
      (inLoop 2 2).bufBytes 3 ((inLoop 2 2).nalOff.toNat + (inLoop 2 2).epbI.toNat) = .ok [0, 0, 3]) ∧
    ((inLoop 3 2).bufBytes 3 ((inLoop 3 2).nalOff.toNat + (inLoop 3 2).epbI.toNat) = .ok [0, 3, 3]) ∧
    (inLoop 1 1).epbI.toNat < 2 ∧ (inLoop 4 3).nalLen.toNat - 2 ≤ (inLoop 4 3).epbI.toNat :=
  ⟨⟨rfl, rfl, by decide⟩, ⟨rfl, by decide, by decide⟩,
    ⟨rfl, by unfold State.BufWritten; decide, findSc_some rfl, by decide⟩, ⟨findSc_some rfl, by decide⟩,
    ⟨rfl, by decide, by decide, by decide⟩, by decide, ⟨rfl, by decide, by decide, by decide⟩, by decide, by decide, by decide⟩

theorem witness_StepRunsOperation : ∀ p ∈ [Phase.parsenals, .nalunit, .dispatch, .parsesps, .endcall, .idle],
    (inCall 0 [] 0 p).host = [] ∧ (inCall 0 [] 0 p).phase = p := by decide

theorem witness_StepRunsElement : (atElement .generalLevelIdc [0x5D] 0).host = [] ∧
    (atElement .generalLevelIdc [0x5D] 0).phase = .sps .generalLevelIdc ∧
    (Instr.spsGeneralLevelIdc 93).fmt = .sps .generalLevelIdc ∧ (Instr.spsGeneralLevelIdc 93).wf Cfg.nalp = true ∧
    (atElement .generalLevelIdc [0x5D] 0).CursorAt (encode Cfg.nalp (.spsGeneralLevelIdc 93)) :=
  ⟨rfl, rfl, rfl, by decide, cursorAt_of (by decide) (by decide)⟩

/-- Nothing left, and 33 zeros; a block at both sides of its first request; no flag and one; no code, and two and a rest. -/
theorem witness_StepAbortsElement :
    ((atElement .seqParameterSetId [] 0).host = [] ∧ (atElement .seqParameterSetId [] 0).CursorAt [] ∧
      (atElement .seqParameterSetId [] 0).remain = ([] : Bits).length ∧
      decode Cfg.nalp (.sps .seqParameterSetId) [] = .error (.exhausted 1)) ∧
    ((atElement .seqParameterSetId [0, 0, 0, 0, 0] 7).CursorAt (bits (zeros 33)) ∧
      (atElement .seqParameterSetId [0, 0, 0, 0, 0] 7).remain = (bits (zeros 33)).length ∧
      decode Cfg.nalp (.sps .seqParameterSetId) (bits (zeros 33)) = .error .malformedCode) ∧
    ((atElement .generalConstraintBlock [0, 0, 0, 0] 1).CursorAt (bits (zeros 31)) ∧
      (atElement .generalConstraintBlock [0, 0, 0, 0] 0).CursorAt (bits (zeros 32))) ∧
    ((atElement .subLayerPresentFlags [1] 8).CursorAt [] ∧ (atElement .subLayerPresentFlags [1] 7).CursorAt [true] ∧
      (atElement .subLayerPresentFlags [1] 7).remain = [true].length) ∧
    (atElement .conformanceWindowOffsets [0xA0] 0).CursorAt
      (([UeCode.mk 0 0, UeCode.mk 1 0].map UeCode.bits).flatten ++ bits (zeros 4)) ∧
    decode Cfg.nalp .ue (bits (zeros 4)) = .error (.exhausted 1) ∧ decode Cfg.nalp .ue (bits (zeros 33)) = .error .malformedCode :=
  ⟨⟨rfl, cursorAt_of (by decide) (by decide), by decide, by decide⟩,
    ⟨cursorAt_of (by decide) (by decide), by decide, by decide⟩,
    ⟨cursorAt_of (by decide) (by decide), cursorAt_of (by decide) (by decide)⟩,
    ⟨cursorAt_of (by decide) (by decide), cursorAt_of (by decide) (by decide), by decide⟩,
    cursorAt_of (by decide) (by decide), by decide, by decide⟩

/-- A request word, a code by each name, during a call too, and bytes to bind. -/
theorem witness_StepRunsRequest :
    ((busyHost [.request 0x1000000005]).host = .request 0x1000000005 :: [] ∧
      decode Cfg.nalp .br (bitsOfBv (0x1000000005 : BitVec 39)) = .ok (.readbits 5, [])) ∧
    ((Instr.u 3 5).wf Cfg.nalp = true ∧ (reader [0xA5] 5).ReaderAt (encode Cfg.nalp (.u 3 5))) ∧
    ((UeCode.mk 2 3).wf = true ∧ (reader [0x38] 0).ReaderAt (UeCode.mk 2 3).bits) ∧
    ([] : List Byte).length < 2 ^ 32 ∧ 2 ^ 32 ≤ (List.replicate (2 ^ 32) (0 : Byte)).length :=
  ⟨by decide, by decide, by decide, by decide, by rw [List.length_replicate]⟩

/-- S2, S3: the edges of the ranges, and the code of 65535, 16 zeros, a one, 16 zeros. -/
theorem witness_GolombRoundTrip : 65535 ≤ 65535 ∧ ueEncode 65535 = bits (zeros 16 ++ [1] ++ zeros 16) ∧
    (reader [0, 0, 0x80, 0, 0] 0).ReaderAt (ueEncode 65535) ∧
    (-1000 ≤ (-1000 : Int) ∧ (-1000 : Int) ≤ 1000) ∧ seEncode (-1000) = bits (zeros 10 ++ [1, 1, 1, 1, 1, 0, 1, 0, 0, 0, 1]) ∧
    (reader [0x00, 0x3E, 0x88] 0).ReaderAt (seEncode (-1000)) ∧
    (-1000 ≤ (1000 : Int) ∧ (1000 : Int) ≤ 1000) ∧ seEncode 1000 = bits (zeros 10 ++ [1, 1, 1, 1, 1, 0, 1, 0, 0, 0, 0]) ∧
    (reader [0x00, 0x3E, 0x80] 0).ReaderAt (seEncode 1000) := by
  decide

/-- V3.1 rows 1, 9, 11 and 13. -/
theorem test_keptBytes : keptBytes [0, 0, 3, 0, 0, 3, 1] = [0, 0, 0, 0, 1] ∧ keptBytes [0, 0, 0, 3] = [0, 0, 0] ∧
    keptBytes [0, 0, 3, 3] = [0, 0, 3] ∧ keptBytes [3, 0, 0, 3, 0] = [3, 0, 0, 0] := by decide

/-- A filled buffer between calls meets the invariant. -/
theorem inv_filled : (filled 0 [0, 0, 1]).Inv where
  bufWf := by decide
  scrWf := by decide
  reserved := fun i _ _ => by change (0 : BitVec 13).getLsbD i = false; simp
  lastErrCode := by decide
  cursor := by decide
  totalBytes := by decide
  readerCursor := by decide
  readerView := by decide
  busyPhase := by decide
  busyDone := by decide
  depth := by decide
  validOk := by decide
  okIdle := by decide
  mode := by decide
  offLen := by decide
  lpRoom := by decide
  delimMode := by decide
  unitOff := by decide
  unitLen := by decide
  header := by decide
  epbLoop := fun h => nomatch h
  scrReady := fun h => nomatch h
  spsView := fun _ h => nomatch h
  staged := by decide
  subIndex := by decide
  padIndex := by decide
  okSeen := by decide
  seenCount := by decide
  countOff := by decide
  countDelim := by decide
  countUnit := by decide

/-- A call at its first line. -/
def begun : State := inCall 0 [0, 0, 1] 0 .parsenals

theorem inv_begun : begun.Inv where
  bufWf := by decide
  scrWf := by decide
  reserved := fun i h3 h7 => by
    change (1 : BitVec 13).getLsbD i = false
    match i, h3, h7 with
    | 3, _, _ | 4, _, _ | 5, _, _ | 6, _, _ | 7, _, _ => decide
  lastErrCode := by decide
  cursor := by decide
  totalBytes := by decide
  readerCursor := by decide
  readerView := by decide
  busyPhase := by decide
  busyDone := by decide
  depth := by decide
  validOk := by decide
  okIdle := by decide
  mode := by decide
  offLen := by decide
  lpRoom := by decide
  delimMode := by decide
  unitOff := by decide
  unitLen := by decide
  header := by decide
  epbLoop := fun h => nomatch h
  scrReady := fun h => nomatch h
  spsView := fun _ h => nomatch h
  staged := by decide
  subIndex := by decide
  padIndex := by decide
  okSeen := by decide
  seenCount := by decide
  countOff := by decide
  countDelim := by decide
  countUnit := by decide

/-- `NAL_OFF` matters to no call at its first line. -/
theorem inv_begun_nalOff (o : BitVec 32) : State.Inv { begun with nalOff := o } :=
  have h := inv_begun
  { bufWf := h.bufWf, scrWf := h.scrWf, reserved := h.reserved, lastErrCode := h.lastErrCode, cursor := h.cursor
    totalBytes := h.totalBytes, readerCursor := h.readerCursor, readerView := h.readerView, busyPhase := h.busyPhase, busyDone := h.busyDone, depth := h.depth, validOk := h.validOk
    okIdle := h.okIdle, mode := h.mode, offLen := h.offLen, lpRoom := h.lpRoom, delimMode := h.delimMode
    unitOff := fun h => (nomatch h), unitLen := fun h => (nomatch h), header := h.header, epbLoop := h.epbLoop
    scrReady := h.scrReady, spsView := h.spsView, staged := h.staged, subIndex := h.subIndex, padIndex := h.padIndex
    okSeen := h.okSeen, seenCount := h.seenCount, countOff := h.countOff, countDelim := h.countDelim
    countUnit := h.countUnit }

/-- At the decoder's entry, with a payload of 13 bytes. -/
def entry13 : State :=
  { inUnit 0 ([0, 0, 1, 0x42, 1] ++ v41.take 13) 3 3 15 .parsesps with
    scr := Memory.writeBytes [] 0 (v41.take 13), scrLen := 13, nalCount := 1, spsSeen := 1 }

theorem inv_entry13 : entry13.Inv where
  bufWf := by decide
  scrWf := by decide
  reserved := fun i h3 h7 => by
    change (1 : BitVec 13).getLsbD i = false
    match i, h3, h7 with
    | 3, _, _ | 4, _, _ | 5, _, _ | 6, _, _ | 7, _, _ => decide
  lastErrCode := by decide
  cursor := by decide
  totalBytes := by decide
  readerCursor := by decide
  readerView := by decide
  busyPhase := by decide
  busyDone := by decide
  depth := by decide
  validOk := by decide
  okIdle := by decide
  mode := by decide
  offLen := by decide
  lpRoom := by decide
  delimMode := by decide
  unitOff := by decide
  unitLen := by decide
  header := by decide
  epbLoop := fun h => nomatch h
  scrReady := fun _ => by unfold State.ScrWritten; decide
  spsView := fun _ h => nomatch h
  staged := by decide
  subIndex := by decide
  padIndex := by decide
  okSeen := by decide
  seenCount := by decide
  countOff := by decide
  countDelim := by decide
  countUnit := by decide

theorem witness_StepKeepsInvariant : entry13.Inv ∧ ∃ t, step entry13 = .next t := ⟨inv_entry13, _, rfl⟩

theorem witness_EngineNeverStops : entry13.Inv ∧ entry13.host = [] ∧ entry13.BufWritten :=
  ⟨inv_entry13, rfl, by unfold State.BufWritten; decide⟩

theorem witness_CallTerminates : (filled 0 [0, 0, 1]).Inv ∧ (filled 0 [0, 0, 1]).host = [] ∧ (filled 0 [0, 0, 1]).BufWritten ∧
    (filled 0 [0, 0, 1]).phase = .idle ∧ (filled 0 [0, 0, 1]).lenWritten = true ∧ (filled 0 [0, 0, 1]).nswWritten = true ∧
    (filled 0 [0, 0, 1]).nsw.toNat ≤ 4 :=
  ⟨inv_filled, rfl, by unfold State.BufWritten; decide, rfl, rfl, rfl, by decide⟩

theorem witness_OffsetOnlyIncreases : entry13.Inv ∧ entry13.host = [] ∧ entry13.phase ≠ .idle ∧ entry13.phase ≠ .parsenals ∧
    ∃ t, step entry13 = .next t := ⟨inv_entry13, rfl, by decide, by decide, _, rfl⟩

/-- A step that commits, and one that does not. -/
theorem witness_OnlyCommitWritesResults : v41Last.host = [] ∧ (∃ t, step v41Last = .next t) ∧
    entry13.host = [] ∧ ∃ t, step entry13 = .next t := ⟨rfl, ⟨_, rfl⟩, rfl, _, rfl⟩

theorem witness_EngineKeepsInputs : entry13.host = [] ∧ entry13.phase ≠ .epb ∧ ∃ t, step entry13 = .next t :=
  ⟨rfl, by decide, _, rfl⟩

/-- With a sticky bit that was set before the step. -/
theorem witness_StickyBitsStaySet : { entry13 with status := 0x801 }.host = [] ∧
    { entry13 with status := 0x801 }.phase ≠ .parsenals ∧ { entry13 with status := 0x801 }.sticky .malformedNal = true ∧
    ∃ t, step { entry13 with status := 0x801 } = .next t := ⟨rfl, by decide, by decide, _, rfl⟩

/-- A next state, a fault and a refusal, each with another byte written past `LEN`. -/
theorem witness_BytesPastLenIrrelevant :
    ((inCall 0 example164 0 .scan).host = [] ∧ (∀ i < (inCall 0 example164 0 .scan).len.toNat,
      ((inCall 0 example164 0 .scan).buf.write 15 9).read? i = (inCall 0 example164 0 .scan).buf.read? i) ∧
      ∃ t, step (inCall 0 example164 0 .scan) = .next t) ∧
    step { inCall 1 [] 0 .lpField with len := 1 } = .fault (.bufUnwritten 0) ∧
    step (inCall 5 [] 0 .scan) = .refused .reservedNsw := ⟨⟨rfl, by decide, _, rfl⟩, rfl, rfl⟩

/-- `LEN = 0` in either mode, and a start-code buffer without a start code. -/
theorem witness_EmptyCallEndsClean :
    ((inCall 4 [] 0 .parsenals).host = [] ∧ (inCall 4 [] 0 .parsenals).BufWritten ∧ (inCall 4 [] 0 .parsenals).phase = .parsenals ∧
      (inCall 4 [] 0 .parsenals).nsw.toNat ≤ 4 ∧ (inCall 4 [] 0 .parsenals).len = 0) ∧
    (inCall 0 [0, 0, 2] 0 .parsenals).BufWritten ∧ (inCall 0 [0, 0, 2] 0 .parsenals).nsw = 0 ∧
      ∀ k, ¬ (inCall 0 [0, 0, 2] 0 .parsenals).IsStartCode k :=
  ⟨⟨rfl, by unfold State.BufWritten; decide, rfl, by decide, rfl⟩, by unfold State.BufWritten; decide, rfl,
    fun k => findSc_none (j := 0) rfl k (Nat.zero_le k)⟩

theorem witness_ShortPayloadNeverCommits : entry13.Inv ∧ entry13.host = [] ∧ entry13.phase = .parsesps ∧
    entry13.scrLen.toNat ≤ 13 := ⟨inv_entry13, rfl, rfl, by decide⟩

/-- The elements of V4.3, the shortest payload that commits. -/
def v43Elements : List Instr :=
  [.spsVideoParameterSetId 0, .spsMaxSubLayersMinus1 0, .spsTemporalIdNestingFlag 1, .spsGeneralProfileSpace 0,
    .spsGeneralTierFlag 0, .spsGeneralProfileIdc 1, .spsGeneralCompatibilityFlags 0x60000000, .spsGeneralSourceFlags 9,
    .spsGeneralConstraintBlock 0, .spsGeneralLevelIdc 93, .spsSeqParameterSetId { k := 0, s := 0 },
    .spsChromaFormatIdc { k := 0, s := 0 }, .spsPicWidth { k := 0, s := 0 }, .spsPicHeight { k := 0, s := 0 },
    .spsConformanceWindowFlag 0, .spsBitDepthLuma { k := 0, s := 0 }, .spsBitDepthChroma { k := 0, s := 0 }]

/-- The decoder at the entry of V4.3. -/
def entryV43 : State :=
  { inCall 0 [] 0 .parsesps with scr := Memory.writeBytes [] 0 (v41.take 13 ++ [0xF6]), scrLen := 14 }

set_option maxRecDepth 4000 in
theorem witness_SpsWithoutSubLayersCommits : (∀ i ∈ v43Elements, i.wf entryV43.cfg = true) ∧
    2 ^ (0 : BitVec 6).toNat - 1 + (0 : BitVec 32).toNat ≤ 3 ∧ entryV43.host = [] ∧ entryV43.phase = .parsesps ∧
    entryV43.PayloadBegins (encodeAll entryV43.cfg v43Elements) :=
  ⟨by decide, by decide, rfl, rfl, payloadBegins_of (by decide) (by decide)⟩

/-- Two instances that differ in a working register, and the empty call in three steps. -/
theorem witness_CallDependsOnInputsAlone : begun.Inv ∧ State.Inv { begun with nalOff := 7 } ∧ begun.host = [] ∧
    begun.phase = .parsenals ∧ State.SameInputs begun { begun with nalOff := 7 } ∧
    State.SameInputs (inCall 0 [] 0 .parsenals) { inCall 0 [] 0 .parsenals with nalOff := 7 } ∧
    ∃ t, Sys2Proof.core.run 3 (inCall 0 [] 0 .parsenals) = .next t ∧ t.phase = .idle :=
  ⟨inv_begun, inv_begun_nalOff 7, rfl, rfl, ⟨rfl, rfl, rfl, fun _ _ => rfl⟩, ⟨rfl, rfl, rfl, fun _ _ => rfl⟩, _, rfl, rfl⟩

end Sys2Proof.Machine.Tests
end

section
/-! SUPPORT. What every request of the bit reader used on its own can do, said once (40_bitreader.md R130 to R139), and the
obligations that follow from it. -/

namespace Sys2Proof.Machine

open Sys2Proof

/-! ## The port of the reader -/

/-- The state with another reader and another reply: the only two fields a request reaches (20_memory.md R61). -/
def State.withPort (s : State) (rd : Reader) (rp : BrReply) : State := { s with reader := rd, reply := rp }

@[simp] theorem withPort_reply (s : State) (rd : Reader) (rp : BrReply) : (s.withPort rd rp).reply = rp := rfl

theorem answer_eq_withPort (s : State) (rp : BrReply) : s.answer rp = s.withPort s.reader rp := rfl

theorem advanceReader_answer_eq_withPort (s : State) (n : Nat) (rp : BrReply) :
    (s.advanceReader n).answer rp =
      s.withPort { s.reader with pos := BitVec.ofNat 36 (s.reader.pos.toNat + n) } rp := rfl

/-- What instruction `i` may make of the reader `r` with the bytes `arg` to bind, and what it then replies: an error with
the reader as it was (R138), a move of the cursor over the same bytes, or, by `BR.INIT` alone, the bytes bound (R130). -/
inductive ReaderStep (i : Instr) (r : Reader) (arg : List Byte) : Reader → BrReply → Prop where
  | fails (e : Err) : ReaderStep i r arg r (.error e)
  | moves (p : BitVec 36) (rp : BrReply) (h : ∀ e, rp ≠ .error e) : ReaderStep i r arg { r with pos := p } rp
  | binds (n : BitVec 36) (h : i = .brInit n) : ReaderStep i r arg { view := arg, pos := 0 } .done

/-- Beside the reader `r` and the bytes `arg` to bind, `f` is one `ReaderStep` of `i` at the port, the same one whatever
else the state holds (R139). -/
def ActsAtPort (i : Instr) (f : State → Out) (r : Reader) (arg : List Byte) : Prop :=
  ∃ rd rp, ReaderStep i r arg rd rp ∧ ∀ s : State, s.reader = r → s.viewArg = arg → f s = .next (s.withPort rd rp)

/-! ## The shared operations act at the port -/

section
variable {i : Instr} {f : State → Out} {r : Reader} {arg : List Byte}

/-- Consuming bits either fails with the reader as it was or moves the cursor. -/
theorem actsAtPort_of_answerBits {n : Nat} {rp : BrReply} (hf : ∀ s : State, s.reader = r → f s = answerBits n rp s)
    (hrp : ∀ e, rp ≠ .error e) : ActsAtPort i f r arg := by
  rcases Nat.lt_or_ge r.remain n with hn | hn
  · refine ⟨r, _, .fails .bitstreamExhausted, fun s hs _ => ?_⟩
    subst hs
    rw [hf s rfl, answerBits_short hn, answer_eq_withPort]
  · refine ⟨_, rp, .moves (BitVec.ofNat 36 (r.pos.toNat + n)) rp hrp, fun s hs _ => ?_⟩
    subst hs
    rw [hf s rfl, answerBits_room hn, advanceReader_answer_eq_withPort]

theorem readFixed_actsAtPort (n : Nat) : ActsAtPort i (readFixed n) r arg :=
  actsAtPort_of_answerBits (rp := .value (BitVec.ofNat 33 (natOfBits (r.bits.take n))))
    (fun s hs => by rw [readFixed, hs]) nofun

/-- The code ahead is a function of the reader, and so are its length and its value. -/
theorem readGolomb_actsAtPort (v : UeCode → BitVec 33) : ActsAtPort i (readGolomb v) r arg := by
  cases hc : takeUe r.bits with
  | error e =>
    refine ⟨r, _, .fails (readerError e), fun s hs _ => ?_⟩
    subst hs
    simp only [readGolomb, hc, answer_eq_withPort]
  | ok p =>
    refine actsAtPort_of_answerBits (n := ueLength p.1) (rp := .value (v p.1)) (fun s hs => ?_) nofun
    subst hs
    simp only [readGolomb, hc]

end

/-- A width outside 1 to 32 is refused in every state; any other goes on as `f` (R131, 30_encoding.md R104). -/
theorem refused_or_actsAtPort {i : Instr} {f g : State → Out} {n : Nat} {r : Reader} {arg : List Byte}
    (hf : ∀ s, f s = if n = 0 ∨ n > Config.brMaxN then .refused .readBitsRange else g s) (hg : ActsAtPort i g r arg) :
    (∃ why, ∀ s, f s = .refused why) ∨ ActsAtPort i f r arg := by
  by_cases hn : n = 0 ∨ n > Config.brMaxN
  · exact .inl ⟨.readBitsRange, fun s => by rw [hf, if_pos hn]⟩
  · have hfg : f = g := funext fun s => by rw [hf, if_neg hn]
    exact .inr (hfg ▸ hg)

/-- Every request and every code of the reader is refused in every state, or acts at the port. -/
theorem exec_reader_cases {i : Instr} (hi : i.fmt = .br ∨ i.fmt = .ue ∨ i.fmt = .se ∨ ∃ n, i.fmt = .u n)
    (r : Reader) (arg : List Byte) : (∃ why, ∀ s, exec i s = .refused why) ∨ ActsAtPort i (exec i) r arg := by
  cases i
  case brInit n =>
    refine .inr ⟨_, _, .binds n rfl, fun s _ hv => ?_⟩
    subst hv
    rfl
  case readbits n => exact refused_or_actsAtPort (fun _ => rfl) (readFixed_actsAtPort n.toNat)
  case readflag => exact .inr (readFixed_actsAtPort 1)
  case readue => exact .inr (readGolomb_actsAtPort ueReply)
  case readse => exact .inr (readGolomb_actsAtPort seReply)
  case skipbits => exact .inr (actsAtPort_of_answerBits (fun _ _ => rfl) nofun)
  case bytealign =>
    refine .inr ⟨_, .done, .moves (BitVec.ofNat 36 (8 * ((r.pos.toNat + 7) / 8))) .done nofun, fun s hs _ => ?_⟩
    subst hs
    rfl
  case brReserved => exact .inl ⟨_, fun _ => rfl⟩
  case u => exact refused_or_actsAtPort (fun _ => rfl) (actsAtPort_of_answerBits (fun _ _ => rfl) nofun)
  case ue => exact .inr (actsAtPort_of_answerBits (fun _ _ => rfl) nofun)
  case se => exact .inr (actsAtPort_of_answerBits (fun _ _ => rfl) nofun)
  all_goals simp [Instr.fmt] at hi

/-- A request that answers a next state is one step at the port, in every state with the same reader and bytes to bind. -/
theorem exec_reader_next {i : Instr} (hi : i.fmt = .br ∨ i.fmt = .ue ∨ i.fmt = .se ∨ ∃ n, i.fmt = .u n) {s t : State}
    (h : exec i s = .next t) :
    ∃ rd rp, ReaderStep i s.reader s.viewArg rd rp ∧ t = s.withPort rd rp ∧
      ∀ s' : State, s'.reader = s.reader → s'.viewArg = s.viewArg → exec i s' = .next (s'.withPort rd rp) := by
  rcases exec_reader_cases hi s.reader s.viewArg with ⟨why, hr⟩ | ⟨rd, rp, hstep, hacts⟩
  · rw [hr] at h
    cases h
  · rw [hacts s rfl rfl] at h
    cases h
    exact ⟨rd, rp, hstep, rfl, hacts⟩

/-! ## What a step at the port keeps -/

/-- An error reply comes with the reader as it was (R138). -/
theorem ReaderStep.reader_of_error {i : Instr} {r rd : Reader} {arg : List Byte} {e : Err}
    (h : ReaderStep i r arg rd (.error e)) : rd = r := by
  cases h with
  | fails => rfl
  | moves p _ hrp => exact absurd rfl (hrp e)

/-- The bytes are bound by `BR.INIT` alone (R139). -/
theorem ReaderStep.view_of_ne_brInit {i : Instr} {r rd : Reader} {arg : List Byte} {rp : BrReply}
    (h : ReaderStep i r arg rd rp) (hi : ∀ n, i ≠ .brInit n) : rd.view = r.view := by
  cases h with
  | fails => rfl
  | moves => rfl
  | binds n hn => exact absurd hn (hi n)

/-- Settles O35: a step at the port that replies an error has the reader as it was. -/
theorem failureIsAtomic : Obligations.FailureIsAtomic := by
  unfold Obligations.FailureIsAtomic
  intro s t i e hi h he
  obtain ⟨rd, rp, hstep, rfl, -⟩ := exec_reader_next hi h
  rw [withPort_reply] at he
  subst he
  rw [hstep.reader_of_error]
  rfl

/-- Settles O36: a request is one step at the port, and the same one in every state with that reader and those bytes. -/
theorem readerIsPure : Obligations.ReaderIsPure := by
  unfold Obligations.ReaderIsPure
  intro s s' t i hi hr hv h
  obtain ⟨rd, rp, hstep, rfl, hacts⟩ := exec_reader_next hi h
  exact ⟨rfl, hstep.view_of_ne_brInit, hacts s' hr hv⟩

/-! ## The requests one by one -/

/-- `READBITS n` within its domain is the fixed-width read (R131). -/
theorem exec_readbits_eq {n : BitVec 36} (h1 : 1 ≤ n.toNat) (h32 : n.toNat ≤ 32) (s : State) :
    exec (.readbits n) s = readFixed n.toNat s :=
  if_neg (by simp only [Config.brMaxN]; omega)

theorem exec_readbits_refused {n : BitVec 36} (h : n.toNat = 0 ∨ 32 < n.toNat) (s : State) :
    exec (.readbits n) s = .refused .readBitsRange :=
  if_pos h

/-- One bit as a number of 33 bits. -/
theorem ofNat_natOfBits_singleton (b : Bool) : BitVec.ofNat 33 (natOfBits [b]) = if b = true then 1 else 0 := by
  cases b <;> rfl

/-- Settles O30: a field at the cursor by `readFixed_at`, a short view by `answerBits_short`, the domain by the two cases of
`READBITS`. -/
theorem readbitsReadsField : Obligations.ReadbitsReadsField := by
  unfold Obligations.ReadbitsReadsField
  refine fun s => ⟨fun bs h1 h32 hat => ?_, fun n h1 h32 hn => ?_, fun n hn => exec_readbits_refused hn s,
    fun n b hat => ?_, fun n hn => answerBits_short (by omega) _⟩
  · have hlen : (BitVec.ofNat 36 bs.length).toNat = bs.length := by
      rw [BitVec.toNat_ofNat]; omega
    rw [exec_readbits_eq (by omega) (by omega), hlen, readFixed_at hat]
    rfl
  · rw [exec_readbits_eq h1 h32]
    exact answerBits_short hn _
  · rw [← ofNat_natOfBits_singleton]
    exact readFixed_at hat

/-- Settles O33: `SKIPBITS` by the room it has, the other requests as they are defined; `TOTAL` does not wrap in 36 bits for a
view below `2^32` bytes. -/
theorem cursorRequests : Obligations.CursorRequests := by
  unfold Obligations.CursorRequests
  refine fun s n => ⟨⟨_, rfl, rfl, rfl, rfl, fun hl => ?_⟩, fun hn => answerBits_room hn _,
    fun hn => answerBits_short hn _, rfl, rfl⟩
  have hlt : 8 * s.viewArg.length < 2 ^ 36 := by omega
  exact Nat.mod_eq_of_lt hlt

end Sys2Proof.Machine
end

section
/-! SUPPORT. When the operations that begin a call are refused (41_nal_scanner.md R160, R161), and the obligation that follows
from it. -/

namespace Sys2Proof.Machine

open Sys2Proof

/-- An idle, set up `START` depends on the width alone (R161). -/
theorem exec_start_of_idle {s : State} (hb : s.busy = false) (hl : s.lenWritten = true) (hw : s.nswWritten = true) :
    exec .start s =
      if 4 < s.nsw.toNat then .refused .reservedNsw else .next (s.beginCall.goto .parsenals) := by
  change execStart s = _
  simp [execStart, hb, hl, hw]

theorem exec_parsenals_refused {s : State} (hn : 4 < s.nsw.toNat) : exec .parsenals s = .refused .reservedNsw :=
  if_pos hn

/-- Settles O5: the width is the only check left to an idle, set up `START` and the only one of `PARSENALS`; the reserved modes
refuse in every state. -/
theorem reservedWidthRefused : Obligations.ReservedWidthRefused := by
  unfold Obligations.ReservedWidthRefused
  refine fun s => ⟨fun hn hb hl hw => ?_, exec_parsenals_refused, rfl, rfl, rfl⟩
  rw [exec_start_of_idle hb hl hw, if_pos hn]

end Sys2Proof.Machine
end

section
/-! SUPPORT. What an element of the SPS with room for its bits leaves (43_sps_decoder.md R201 to R226), and the obligations on
the discarded and the kept elements. -/

namespace Sys2Proof.Machine

open Sys2Proof

/-- An element with room for its bits advances past them and goes on. -/
theorem element_room {n : Nat} {s t : State} {k : State → State} (h : n ≤ s.remain) (hk : k (s.advance n) = t) :
    element n s k = .next t := by
  rw [element, request_room h, hk]

/-- Two requests in a row with room for both are one request of their sum. -/
theorem request_request {a b : Nat} {s : State} (h : a + b ≤ s.remain) (k : State → Out) :
    request a s (fun t => request b t k) = request (a + b) s k := by
  have ha : a ≤ s.remain := by omega
  have hb : b ≤ (s.advance a).remain := by rw [remain_advance ha]; omega
  rw [request_room ha, request_room hb, advance_advance h, request_room h]

/-- The constraint block is one element of 44 bits where there is room for all of them (R208). -/
theorem exec_constraintBlock_room {s : State} (h : 44 ≤ s.remain) (v : BitVec 44) :
    exec (.spsGeneralConstraintBlock v) s = element 44 s fun t =>
      { t with
        c44 := v
        tRext := if t.tProfile = t.cfg.rextIdc then Config.rextMap v else 0
        phase := .sps .generalLevelIdc } :=
  request_request h _

/-- The four window offsets are one element of all their bits where there is room for them (R226). -/
theorem exec_windowOffsets_room {s : State} {c1 c2 c3 c4 : UeCode}
    (h : ueLength c1 + ueLength c2 + ueLength c3 + ueLength c4 ≤ s.remain) :
    exec (.spsConformanceWindowOffsets c1 c2 c3 c4) s =
      element (ueLength c1 + ueLength c2 + ueLength c3 + ueLength c4) s fun t => t.goto (.sps .bitDepthLuma) := by
  have h12 : ueLength c1 + ueLength c2 ≤ s.remain := by omega
  have h123 : ueLength c1 + ueLength c2 + ueLength c3 ≤ s.remain := by omega
  change execSpsConformanceWindowOffsets c1 c2 c3 c4 s = _
  unfold execSpsConformanceWindowOffsets element
  rw [request_request h12, request_request h123, request_request h]

/-- Settles O23: each of the seven is one element whose continuation only moves the place. -/
theorem discardedFieldsAdvance : Obligations.DiscardedFieldsAdvance := by
  unfold Obligations.DiscardedFieldsAdvance
  intro s i n next hi hn
  have hexec : exec i s = element n s fun t => t.goto (.sps next) := by
    obtain ⟨v, rfl, rfl, rfl⟩ | ⟨v, rfl, rfl, rfl⟩ | ⟨v, rfl, rfl, rfl⟩ | ⟨v, rfl, rfl, rfl⟩ | ⟨v, rfl, rfl, rfl⟩ |
      ⟨v, rfl, rfl, rfl⟩ | ⟨v, rfl, rfl, rfl⟩ := hi <;> rfl
  exact hexec.trans (element_room hn rfl)

/-- Settles O24: three elements of one request, and the constraint block, whose two requests are one of 44 bits. -/
theorem keptFieldsStaged : Obligations.KeptFieldsStaged := by
  unfold Obligations.KeptFieldsStaged
  intro s
  refine ⟨fun v h => ?_, fun v h => ?_, fun v h => ?_, fun v h => ?_⟩
  · change execSpsMaxSubLayersMinus1 v s = _
    exact element_room h rfl
  · change execSpsGeneralProfileIdc v s = _
    exact element_room h rfl
  · exact (exec_constraintBlock_room h v).trans (element_room h rfl)
  · change execSpsGeneralLevelIdc v s = _
    exact element_room h rfl

/-- Settles O26: a code is one element of `2k + 1` bits, and the four offsets are one of the sum. -/
theorem discardedCodesAdvance : Obligations.DiscardedCodesAdvance := by
  unfold Obligations.DiscardedCodesAdvance
  intro s
  refine ⟨fun c h => ⟨?_, ?_, ?_⟩, fun v h => ?_, fun c1 c2 c3 c4 n hn h => ?_⟩
  · change execSpsSeqParameterSetId c s = _
    exact element_room h rfl
  · change execSpsPicWidth c s = _
    exact element_room h rfl
  · change execSpsPicHeight c s = _
    exact element_room h rfl
  · change execSpsConformanceWindowFlag v s = _
    exact element_room h rfl
  · subst hn
    exact (exec_windowOffsets_room h).trans (element_room h rfl)

end Sys2Proof.Machine
end

section
/-! SUPPORT. An error found inside a NAL unit is recorded with `NAL_OFF` and the scan goes on (60_exceptions.md R244, R245, R248),
and the obligations on the two errors that come so. -/

namespace Sys2Proof.Machine

open Sys2Proof

/-- An instruction that raises an error at `u` inside a NAL unit records it there with `NAL_OFF`, and the scan goes on. -/
theorem recorded_scanGoesOn_of_raiseSps {i : Instr} {s u : State} {e : Err} (h : exec i s = .next (u.raiseSps e)) :
    ∃ r t, u.Recorded r e.bit e.code u.nalOff ∧ r.ScanGoesOn t ∧ exec i s = .next t :=
  ⟨_, _, recorded_record u e u.nalOff, scanGoesOn_nalReturn _, h⟩

/-- Settles O17: both header classes raise `MalformedNAL` in the state as it is. -/
theorem malformedUnitSkipped : Obligations.MalformedUnitSkipped := by
  unfold Obligations.MalformedUnitSkipped
  intro s i hi
  have hexec : exec i s = .next (s.raiseSps .malformedNal) := by
    obtain rfl | ⟨rest, rfl⟩ := hi <;> rfl
  exact recorded_scanGoesOn_of_raiseSps hexec

/-! ## The two range checks, each made after the bits of its code are consumed -/

/-- A chroma format of 4 or more raises `FieldOutOfRange` (R221). -/
theorem exec_chromaFormatIdc_outOfRange {s : State} {c : UeCode} (h : ueLength c ≤ s.remain) (hv : 3 < ueValue c) :
    exec (.spsChromaFormatIdc c) s = .next ((s.advance (ueLength c)).raiseSps .fieldOutOfRange) := by
  change execSpsChromaFormatIdc c s = _
  exact element_room h (if_pos hv)

/-- A luma depth code of 9 or more raises `FieldOutOfRange` (R228). -/
theorem exec_bitDepthLuma_outOfRange {s : State} {c : UeCode} (h : ueLength c ≤ s.remain) (hv : 8 < ueValue c) :
    exec (.spsBitDepthLuma c) s = .next ((s.advance (ueLength c)).raiseSps .fieldOutOfRange) := by
  change execSpsBitDepthLuma c s = _
  exact element_room h (if_pos hv)

/-- Settles O27: each code is one element, staged within its range, and beyond it an error raised past its bits. -/
theorem rangeCheckedFieldsStaged : Obligations.RangeCheckedFieldsStaged := by
  unfold Obligations.RangeCheckedFieldsStaged
  rintro s _ c _ rfl hroom rfl
  refine ⟨fun hv => ?_, fun hv => ?_, fun hv => ?_, fun hv => ?_⟩
  · change execSpsChromaFormatIdc c s = _
    exact element_room hroom (if_neg (Nat.not_lt.mpr hv))
  · exact recorded_scanGoesOn_of_raiseSps (exec_chromaFormatIdc_outOfRange hroom hv)
  · change execSpsBitDepthLuma c s = _
    exact element_room hroom (if_neg (Nat.not_lt.mpr hv))
  · exact recorded_scanGoesOn_of_raiseSps (exec_bitDepthLuma_outOfRange hroom hv)

end Sys2Proof.Machine
end

section
/-! SUPPORT. `START` while a call is in progress (70_reset_and_hazards.md R281), as the instruction and as the host's write to
`CTRL`, and the obligation that follows from it. -/

namespace Sys2Proof.Machine

open Sys2Proof

/-- `BUSY` is the first thing `START` looks at. -/
theorem exec_start_of_busy {s : State} (hb : s.busy = true) : exec .start s = .next s :=
  if_pos hb

/-- Bit 0 of `CTRL` written as 1 decodes to `START` (30_encoding.md R112). -/
theorem decode_ctrl_one (c : Cfg) : decode c .ctrl [true] = .ok (.start, []) := rfl

/-- A host write to `CTRL` with bit 0 set runs `START` in the state the access leaves, whatever the other bits (R112, R21). -/
theorem step_ctrlWrite_one {s : State} {v : BitVec 32} {rest : List HostAct} (hh : s.host = .write 0 v :: rest)
    (hv : v.getLsbD 0 = true) : step s = exec .start { s with host := rest } := by
  rw [step_eq, fetch, hh]
  simp only [fetchHost, hostWrite, hv, decode_ctrl_one, runFetched]

/-- Settles O4: the host's write is the instruction in the state without the access, and `BUSY` is the same there. -/
theorem startIgnoredWhileBusy : Obligations.StartIgnoredWhileBusy := by
  unfold Obligations.StartIgnoredWhileBusy
  refine fun s hb => ⟨exec_start_of_busy hb, fun v rest hh hv => ?_⟩
  have hb' : State.busy { s with host := rest } = true := hb
  rw [step_ctrlWrite_one hh hv, exec_start_of_busy hb']

end Sys2Proof.Machine
end

section
/-! SUPPORT. What each decoding step reads and what it leaves, in both directions (30_encoding.md R90 to R108), and the obligations on
encodings. -/

namespace Sys2Proof

/-! ## Fields and codes, inverted -/

/-- A bit string is the bits of the number it reads as. -/
theorem bitsOfNat_natOfBits (bs : Bits) : bitsOfNat bs.length (natOfBits bs) = bs := by
  induction bs with
  | nil => rfl
  | cons b r ih =>
    have hr := natOfBits_lt r
    have hadd := bitsOfNat_add 1 r.length (natOfBits (b :: r))
    have hmod : bitsOfNat r.length (natOfBits (b :: r)) = bitsOfNat r.length (natOfBits r) := by
      rw [natOfBits_cons]
      have htb : ∀ n ≤ r.length, bitsOfNat n (b.toNat * 2 ^ r.length + natOfBits r) = bitsOfNat n (natOfBits r) := by
        intro n hn
        induction n with
        | zero => rfl
        | succ n ihn =>
          rw [bitsOfNat, bitsOfNat, ihn (by omega), Nat.mul_comm, Nat.testBit_two_pow_mul_add _ hr, if_pos (by omega)]
      exact htb _ le_rfl
    have hdiv : natOfBits (b :: r) / 2 ^ r.length = b.toNat := by
      rw [natOfBits_cons, Nat.add_comm, Nat.add_mul_div_right _ _ (Nat.two_pow_pos _), Nat.div_eq_of_lt hr, Nat.zero_add]
    rw [List.length_cons, Nat.add_comm, hadd, hmod, ih, hdiv]
    cases b <;> rfl

/-- A bit string of `n` bits is a vector of `n` bits. -/
theorem exists_bitsOfBv_eq {n : Nat} {bs : Bits} (h : bs.length = n) : ∃ v : BitVec n, bitsOfBv v = bs := by
  subst h
  refine ⟨BitVec.ofNat _ (natOfBits bs), ?_⟩
  rw [bitsOfBv, BitVec.toNat_ofNat, Nat.mod_eq_of_lt (natOfBits_lt bs), bitsOfNat_natOfBits]

/-- A field that is accepted stands at the head. -/
theorem withU_ok {α : Type} {n : Nat} {bs : Bits} {k : Nat → Bits → Except Reject α} {p : α} (h : withU n bs k = .ok p) :
    ∃ (v : BitVec n) (rest : Bits), bs = bitsOfBv v ++ rest ∧ k v.toNat rest = .ok p := by
  rcases withU_cases n bs k with ⟨-, hu⟩ | ⟨hn, hu⟩ <;> rw [hu] at h
  · cases h
  · obtain ⟨v, hv⟩ := exists_bitsOfBv_eq (n := n) (bs := bs.take n) (by simp [hn])
    rw [← hv, natOfBits_bitsOfBv] at h
    exact ⟨v, bs.drop n, by rw [hv, List.take_append_drop], h⟩

/-- A code that is accepted stands at the head and is well-formed. -/
theorem withUe_ok {α : Type} {bs : Bits} {k : UeCode → Bits → Except Reject α} {p : α} (h : withUe bs k = .ok p) :
    ∃ (e : UeCode) (rest : Bits), bs = e.bits ++ rest ∧ e.wf = true ∧ k e rest = .ok p := by
  rcases withUe_cases bs k with ⟨m, hu⟩ | hu | ⟨e, rest, hu, hb, he⟩ <;> rw [hu] at h
  · cases h
  · cases h
  · exact ⟨e, rest, hb, he, h⟩

/-- What is accepted is the instruction given, and what it leaves. -/
theorem accept_ok {i j : Instr} {r rest : Bits} (h : accept i r = .ok (j, rest)) : j = i ∧ rest = r := by
  cases h; exact ⟨rfl, rfl⟩

/-! ## The header (R96, R97) -/

/-- The number of a header word: the forbidden bit, the type, the rest. -/
theorem natOfBits_header (b : Bool) (t : BitVec 6) (g : BitVec 9) :
    natOfBits (b :: (bitsOfBv t ++ bitsOfBv g)) = b.toNat * 2 ^ 15 + (t.toNat * 2 ^ 9 + g.toNat) := by
  rw [natOfBits_cons, natOfBits_append, natOfBits_bitsOfBv, natOfBits_bitsOfBv, List.length_append, bitsOfBv_length,
    bitsOfBv_length]

/-- The 16 bits of a header with the forbidden bit set. -/
theorem decode_nh_malformed (c : Cfg) (r : BitVec 15) (rest : Bits) :
    decode c .nh (true :: bitsOfBv r ++ rest) = .ok (.nalMalformed r, rest) := by
  have hr := r.isLt
  have hn : natOfBits (true :: bitsOfBv r) = 2 ^ 15 + r.toNat := by
    rw [natOfBits_cons, natOfBits_bitsOfBv, bitsOfBv_length, Bool.toNat_true, Nat.one_mul]
  have hw : BitVec.ofNat 15 (2 ^ 15 + r.toNat) = r := BitVec.eq_of_toNat_eq (by rw [BitVec.toNat_ofNat]; omega)
  rw [decode_nh_append c _ rest (by simp), hn, decodeNh, if_pos (by omega), hw]

/-- The 16 bits of a header without it: the type decides. -/
theorem decode_nh_typed (c : Cfg) (t : BitVec 6) (g : BitVec 9) (rest : Bits) :
    decode c .nh (false :: (bitsOfBv t ++ bitsOfBv g) ++ rest) =
      .ok (if t = c.spsNut then .nalSps g else .nalOther t g, rest) := by
  have ht := t.isLt
  have hg := g.isLt
  have hty : BitVec.ofNat 6 ((t.toNat * 2 ^ 9 + g.toNat) / 2 ^ 9) = t :=
    BitVec.eq_of_toNat_eq (by rw [BitVec.toNat_ofNat]; omega)
  have hig : BitVec.ofNat 9 (t.toNat * 2 ^ 9 + g.toNat) = g := BitVec.eq_of_toNat_eq (by rw [BitVec.toNat_ofNat]; omega)
  rw [decode_nh_append c _ rest (by simp), natOfBits_header, Bool.toNat_false, Nat.zero_mul, Nat.zero_add, decodeNh,
    if_neg (by omega), hty, hig]

/-! ## The constraint block (R107, 43_sps_decoder.md R208) -/

/-- The block is a field of 32 bits and one of 12. -/
theorem bitsOfBv_block (hi : BitVec 32) (lo : BitVec 12) :
    bitsOfBv (BitVec.ofNat 44 (hi.toNat * 2 ^ 12 + lo.toNat)) = bitsOfBv hi ++ bitsOfBv lo := by
  have h1 := hi.isLt
  have h2 := lo.isLt
  have hl : (bitsOfBv hi ++ bitsOfBv lo).length = 44 := by simp
  have hn : natOfBits (bitsOfBv hi ++ bitsOfBv lo) = hi.toNat * 2 ^ 12 + lo.toNat := by
    rw [natOfBits_append, natOfBits_bitsOfBv, natOfBits_bitsOfBv, bitsOfBv_length]
  have h := bitsOfNat_natOfBits (bitsOfBv hi ++ bitsOfBv lo)
  rw [hn, hl] at h
  rw [bitsOfBv, BitVec.toNat_ofNat, Nat.mod_eq_of_lt (by omega), h]

/-- And every block is of that form. -/
theorem exists_block (v : BitVec 44) :
    ∃ (hi : BitVec 32) (lo : BitVec 12), v = BitVec.ofNat 44 (hi.toNat * 2 ^ 12 + lo.toNat) := by
  have hv := v.isLt
  refine ⟨BitVec.ofNat 32 (v.toNat / 2 ^ 12), BitVec.ofNat 12 v.toNat, BitVec.eq_of_toNat_eq ?_⟩
  simp only [BitVec.toNat_ofNat]
  omega

/-! ## Decode of encode -/

/-- The fields of an SPS element are read back from its own bits. -/
theorem decodeSps_encode (c : Cfg) {i : Instr} {e : SpsElem} (hf : i.fmt = .sps e) (hw : i.wf c = true) (rest : Bits) :
    decodeSps e (encode c i ++ rest) = .ok (i, rest) := by
  cases i <;> simp only [Instr.fmt, reduceCtorEq, Fmt.sps.injEq] at hf <;> subst hf
  case spsGeneralConstraintBlock v =>
    obtain ⟨hi, lo, rfl⟩ := exists_block v
    rw [encode, bitsOfBv_block, List.append_assoc, decodeSps, withU_bitsOfBv, withU_bitsOfBv, accept]
  case spsConformanceWindowOffsets c1 c2 c3 c4 =>
    simp only [Instr.wf, Bool.and_eq_true] at hw
    obtain ⟨⟨⟨h1, h2⟩, h3⟩, h4⟩ := hw
    simp [decodeSps, encode, accept, h1, h2, h3, h4]
  case spsSeqParameterSetId e | spsChromaFormatIdc e | spsPicWidth e | spsPicHeight e | spsBitDepthLuma e | spsBitDepthChroma e =>
    have he : e.wf = true := hw
    simp [decodeSps, encode, accept, he]
  all_goals simp [decodeSps, encode, accept]

/-- A request word is read back, whatever its operation. -/
theorem decode_br_encode (c : Cfg) (op : Nat) (hop : op < 8) (n : BitVec 36) (rest : Bits) :
    decode c .br (encodeBr op n ++ rest) = .ok (decodeBr op n, rest) := by
  simp [decode, encodeBr, accept, Nat.mod_eq_of_lt hop]

/-- Every instruction but the NAL unit without a header is read back from its own bits, whatever follows them. -/
theorem decode_encode (c : Cfg) {i : Instr} (hw : i.wf c = true) (hi : i ≠ .nalShort) (rest : Bits) :
    decode c i.fmt (encode c i ++ rest) = .ok (i, rest) := by
  by_cases hf : ∃ e, i.fmt = .sps e
  · obtain ⟨e, he⟩ := hf
    rw [he]
    exact decodeSps_encode c he hw rest
  cases i
  case nalShort => exact absurd rfl hi
  case start | parsenals => simp [Instr.fmt, encode, decode, withU, natOfBits, accept]
  case scanSc | scanLp1 | scanLp2 | scanLp3 | scanLp4 | nswReserved5 | nswReserved6 | nswReserved7 =>
    simp [Instr.fmt, encode, decode, accept, decodeNsw]
  case sc3 | sc4 | epb => rfl
  case lp1 n | lp2 n | lp3 n | lp4 n => simp [Instr.fmt, encode, decode, accept, decodeLp]
  case nalMalformed r => exact decode_nh_malformed c r rest
  case nalSps g => exact (decode_nh_typed c c.spsNut g rest).trans (by rw [if_pos rfl])
  case nalOther t g =>
    have ht : t ≠ c.spsNut := by simpa [Instr.wf] using hw
    exact (decode_nh_typed c t g rest).trans (by rw [if_neg ht])
  case u n v =>
    simp only [Instr.wf, Bool.and_eq_true, decide_eq_true_eq] at hw
    obtain ⟨⟨h1, h32⟩, hv⟩ := hw
    simp [Instr.fmt, encode, decode, accept, Nat.mod_eq_of_lt hv, Nat.not_lt.2 h32, show n.toNat ≠ 0 by omega]
  case ue e | se e =>
    have he : e.wf = true := hw
    simp [Instr.fmt, encode, decode, accept, he]
  case brInit n => exact decode_br_encode c 0 (by omega) n rest
  case readbits n => exact decode_br_encode c 1 (by omega) n rest
  case readflag n => exact decode_br_encode c 2 (by omega) n rest
  case readue n => exact decode_br_encode c 3 (by omega) n rest
  case readse n => exact decode_br_encode c 4 (by omega) n rest
  case skipbits n => exact decode_br_encode c 5 (by omega) n rest
  case bytealign n => exact decode_br_encode c 6 (by omega) n rest
  case brReserved n => exact decode_br_encode c 7 (by omega) n rest
  case epbremove | nalunit | dispatch | endcall | parsesps => rfl
  all_goals exact absurd ⟨_, rfl⟩ hf

/-- Settles O41: `decode_encode`, and the empty field for a unit without a header. -/
theorem decodeEncodeRoundTrip : Obligations.DecodeEncodeRoundTrip := by
  unfold Obligations.DecodeEncodeRoundTrip
  refine fun c i hw => ⟨decode_encode c hw, ?_⟩
  rintro rfl
  rfl

/-! ## Encode of decode -/

/-- What the decoder is asked of an accepted instruction: it is well-formed, of the format, and its bits are those read. -/
def Decoded (c : Cfg) (f : Fmt) (bs : Bits) (i : Instr) (rest : Bits) : Prop :=
  i.wf c = true ∧ i.fmt = f ∧ (i ≠ .nalShort → bs = encode c i ++ rest)

/-- A field of `n` bits that is the whole of the instruction. -/
theorem decoded_of_withU {c : Cfg} {f : Fmt} {n : Nat} {bs rest : Bits} {i : Instr} {mk : BitVec n → Instr}
    (h : (withU n bs fun v r => accept (mk (BitVec.ofNat n v)) r) = .ok (i, rest))
    (hmk : ∀ v, (mk v).wf c = true ∧ (mk v).fmt = f ∧ encode c (mk v) = bitsOfBv v) : Decoded c f bs i rest := by
  obtain ⟨v, r, rfl, h'⟩ := withU_ok h
  obtain ⟨rfl, rfl⟩ := accept_ok h'
  obtain ⟨hw, hf, he⟩ := hmk v
  rw [BitVec.ofNat_toNat, BitVec.setWidth_eq]
  exact ⟨hw, hf, fun _ => by rw [he]⟩

/-- A code that is the whole of the instruction. -/
theorem decoded_of_withUe {c : Cfg} {f : Fmt} {bs rest : Bits} {i : Instr} {mk : UeCode → Instr}
    (h : (withUe bs fun e r => accept (mk e) r) = .ok (i, rest))
    (hmk : ∀ e, (mk e).wf c = e.wf ∧ (mk e).fmt = f ∧ encode c (mk e) = e.bits) : Decoded c f bs i rest := by
  obtain ⟨e, r, rfl, he, h'⟩ := withUe_ok h
  obtain ⟨rfl, rfl⟩ := accept_ok h'
  obtain ⟨hw, hf, hb⟩ := hmk e
  exact ⟨hw.trans he, hf, fun _ => by rw [hb]⟩

/-- An accepted SPS element (R105, R106). -/
theorem decoded_sps {c : Cfg} {e : SpsElem} {bs rest : Bits} {i : Instr} (h : decodeSps e bs = .ok (i, rest)) :
    Decoded c (.sps e) bs i rest := by
  cases e <;> simp only [decodeSps] at h
  case generalConstraintBlock =>
    obtain ⟨hi, r, rfl, h1⟩ := withU_ok h
    obtain ⟨lo, r', rfl, h2⟩ := withU_ok h1
    obtain ⟨rfl, rfl⟩ := accept_ok h2
    exact ⟨rfl, rfl, fun _ => by rw [encode, bitsOfBv_block, List.append_assoc]⟩
  case subLayerPresentFlags =>
    obtain ⟨p, r, rfl, h1⟩ := withU_ok h
    obtain ⟨l, r', rfl, h2⟩ := withU_ok h1
    obtain ⟨rfl, rfl⟩ := accept_ok h2
    refine ⟨rfl, rfl, fun _ => ?_⟩
    simp [encode]
  case conformanceWindowOffsets =>
    obtain ⟨c1, r1, rfl, w1, h1⟩ := withUe_ok h
    obtain ⟨c2, r2, rfl, w2, h2⟩ := withUe_ok h1
    obtain ⟨c3, r3, rfl, w3, h3⟩ := withUe_ok h2
    obtain ⟨c4, r4, rfl, w4, h4⟩ := withUe_ok h3
    obtain ⟨rfl, rfl⟩ := accept_ok h4
    refine ⟨?_, rfl, fun _ => ?_⟩
    · simp [Instr.wf, w1, w2, w3, w4]
    · simp [encode]
  case seqParameterSetId | chromaFormatIdc | picWidth | picHeight | bitDepthLuma | bitDepthChroma =>
    exact decoded_of_withUe h fun _ => ⟨rfl, rfl, rfl⟩
  all_goals exact decoded_of_withU h fun _ => ⟨rfl, rfl, rfl⟩

/-- An accepted length field (R93). -/
theorem decoded_lp {c : Cfg} {w : Nat} {bs rest : Bits} {i : Instr} (h : decode c (.lp w) bs = .ok (i, rest)) :
    Decoded c (.lp w) bs i rest := by
  match w, h with
  | 1, h | 2, h | 3, h | 4, h => exact decoded_of_withU h fun _ => ⟨rfl, rfl, rfl⟩
  | 0, h | _ + 5, h =>
    rw [decode] at h
    obtain ⟨v, r, -, h⟩ := withU_ok h
    cases h

/-- An accepted header (R96, R97). -/
theorem decoded_nh {c : Cfg} {bs rest : Bits} {i : Instr} (h : decode c .nh bs = .ok (i, rest)) : Decoded c .nh bs i rest := by
  by_cases hl : bs.length < 16
  · simp only [decode, if_pos hl] at h
    obtain ⟨rfl, -⟩ := accept_ok h
    exact ⟨rfl, rfl, fun h => absurd rfl h⟩
  obtain ⟨b, w, hw, hbs⟩ : ∃ b w, w.length = 15 ∧ bs = b :: w ++ bs.drop 16 := by
    obtain ⟨b, r, rfl⟩ := List.exists_cons_of_length_pos (l := bs) (by omega)
    exact ⟨b, r.take 15, by simp at hl ⊢; omega, by simp [List.take_append_drop]⟩
  rw [hbs] at h ⊢
  cases b with
  | true =>
    obtain ⟨v, rfl⟩ := exists_bitsOfBv_eq hw
    rw [decode_nh_malformed] at h
    cases h
    exact ⟨rfl, rfl, fun _ => rfl⟩
  | false =>
    obtain ⟨t, ht⟩ := exists_bitsOfBv_eq (n := 6) (bs := w.take 6) (by simp [hw])
    obtain ⟨g, hg⟩ := exists_bitsOfBv_eq (n := 9) (bs := w.drop 6) (by simp [hw])
    rw [← List.take_append_drop 6 w, ← ht, ← hg, decode_nh_typed] at h
    rw [← List.take_append_drop 6 w, ← ht, ← hg]
    cases h
    split
    · rename_i hc
      exact ⟨rfl, rfl, fun _ => by rw [hc]; rfl⟩
    · rename_i hc
      exact ⟨by simpa [Instr.wf] using hc, rfl, fun _ => rfl⟩

/-- A vector whose number is `n`. -/
theorem bitsOfBv_of_toNat {w n : Nat} {v : BitVec w} (h : v.toNat = n) : bitsOfBv v = bitsOfNat w n := by
  rw [bitsOfBv, h]

/-- An accepted start code (R91, R92). -/
theorem decoded_sc {c : Cfg} {bs rest : Bits} {i : Instr} (h : decode c .sc bs = .ok (i, rest)) : Decoded c .sc bs i rest := by
  rw [decode] at h
  obtain ⟨v, r, hb, h⟩ := withU_ok h
  split at h
  · rename_i hv
    obtain ⟨rfl, rfl⟩ := accept_ok h
    exact ⟨rfl, rfl, fun _ => by rw [hb, bitsOfBv_of_toNat hv]; rfl⟩
  · obtain ⟨v', r', hb', h⟩ := withU_ok h
    split at h
    · rename_i hv'
      obtain ⟨rfl, rfl⟩ := accept_ok h
      exact ⟨rfl, rfl, fun _ => by rw [hb', bitsOfBv_of_toNat hv']; rfl⟩
    · cases h

/-- An accepted mode (R94). -/
theorem decoded_nsw {c : Cfg} (v : BitVec 3) (rest : Bits) : Decoded c .nsw (bitsOfBv v ++ rest) (decodeNsw v.toNat) rest := by
  have hv : v.toNat < 8 := v.isLt
  rw [bitsOfBv]
  generalize v.toNat = n at hv
  match n, hv with
  | 0, _ | 1, _ | 2, _ | 3, _ | 4, _ | 5, _ | 6, _ | 7, _ => exact ⟨rfl, rfl, fun _ => rfl⟩

/-- An accepted request (R111). -/
theorem decoded_br {c : Cfg} (op : BitVec 3) (n : BitVec 36) (rest : Bits) :
    Decoded c .br (bitsOfBv op ++ (bitsOfBv n ++ rest)) (decodeBr op.toNat n) rest := by
  have hop : op.toNat < 8 := op.isLt
  rw [bitsOfBv, ← List.append_assoc]
  generalize op.toNat = k at hop
  match k, hop with
  | 0, _ | 1, _ | 2, _ | 3, _ | 4, _ | 5, _ | 6, _ | 7, _ => exact ⟨rfl, rfl, fun _ => rfl⟩

/-- The bit of `CTRL` written as 1 (R112, R160). -/
theorem bitsOfBv_one {v : BitVec 1} (h : v.toNat = 1) : bitsOfBv v = [true] := bitsOfBv_of_toNat h

/-- Whatever the decoder accepts is well-formed, of the format, and its bits are those read. -/
theorem decoded_of_decode {c : Cfg} {f : Fmt} {bs rest : Bits} {i : Instr} (h : decode c f bs = .ok (i, rest)) :
    Decoded c f bs i rest := by
  cases f
  case ctrl | call =>
    rw [decode] at h
    obtain ⟨v, r, rfl, h'⟩ := withU_ok h
    split at h'
    · rename_i hv
      obtain ⟨rfl, rfl⟩ := accept_ok h'
      exact ⟨rfl, rfl, fun _ => by rw [bitsOfBv_one hv]; rfl⟩
    · cases h'
  case nsw =>
    rw [decode] at h
    obtain ⟨v, r, rfl, h'⟩ := withU_ok h
    obtain ⟨rfl, rfl⟩ := accept_ok h'
    exact decoded_nsw v rest
  case sc => exact decoded_sc h
  case lp w => exact decoded_lp h
  case nh => exact decoded_nh h
  case epb =>
    rw [decode] at h
    obtain ⟨v, r, rfl, h'⟩ := withU_ok h
    split at h'
    · rename_i hv
      obtain ⟨rfl, rfl⟩ := accept_ok h'
      exact ⟨rfl, rfl, fun _ => by rw [bitsOfBv_of_toNat hv]; rfl⟩
    · cases h'
  case u n =>
    simp only [decode] at h
    split at h
    · cases h
    · rename_i hn
      simp only [Config.brMaxN] at hn
      obtain ⟨v, r, rfl, h'⟩ := withU_ok h
      obtain ⟨rfl, rfl⟩ := accept_ok h'
      have hv := v.isLt
      have hp : 2 ^ n ≤ 2 ^ 32 := Nat.pow_le_pow_right (by omega) (by omega)
      have hk : (BitVec.ofNat 6 n).toNat = n := by rw [BitVec.toNat_ofNat]; omega
      have hs : (BitVec.ofNat 32 v.toNat).toNat = v.toNat := by
        rw [BitVec.toNat_ofNat, Nat.mod_eq_of_lt (by omega)]
      refine ⟨?_, by rw [Instr.fmt, hk], fun _ => by rw [encode, hk, hs, bitsOfBv]⟩
      simp only [Instr.wf, hk, hs, Config.brMaxN, Bool.and_eq_true, decide_eq_true_eq]
      omega
  case ue | se => exact decoded_of_withUe h fun _ => ⟨rfl, rfl, rfl⟩
  case sps e => exact decoded_sps h
  case br =>
    rw [decode] at h
    obtain ⟨op, r, rfl, h1⟩ := withU_ok h
    obtain ⟨n, r', rfl, h2⟩ := withU_ok h1
    obtain ⟨rfl, rfl⟩ := accept_ok h2
    rw [BitVec.ofNat_toNat, BitVec.setWidth_eq]
    exact decoded_br op n rest
  case op o =>
    obtain ⟨rfl, rfl⟩ := accept_ok h
    cases o <;> exact ⟨rfl, rfl, fun _ => rfl⟩

/-- Settles O42: `decoded_of_decode`, format by format. -/
theorem decodedBitsAreTheEncoding : Obligations.DecodedBitsAreTheEncoding := by
  unfold Obligations.DecodedBitsAreTheEncoding
  exact fun _ _ _ _ _ => decoded_of_decode

end Sys2Proof
end

section
/-! SUPPORT. Words and numbers: the class of a header word, the number of a length field, the standard exponential-Golomb scheme
(30_encoding.md R93 to R103, 40_bitreader.md R141), and the obligations on them. -/

namespace Sys2Proof.Machine

open Sys2Proof

/-! ## Header words and length fields -/

/-- The number of a byte string is its big-endian number (20_memory.md R64). -/
theorem natOfBits_bitsOfBytes (bs : List Byte) : natOfBits (bitsOfBytes bs) = bigEndian bs := by
  have fold : ∀ (r : List Byte) (a : Nat),
      r.foldl (fun a b => 256 * a + b.toNat) a = a * 256 ^ r.length + natOfBits (bitsOfBytes r) := by
    intro r
    induction r with
    | nil => simp [bitsOfBytes]
    | cons b r ih =>
      intro a
      rw [List.foldl_cons, ih, natOfBits_bytes_cons, List.length_cons, pow_succ]
      ring
  rw [bigEndian, fold, Nat.zero_mul, Nat.zero_add]

/-- The 16 bits of a header word are read as its number (30_encoding.md R96). -/
theorem decode_nh_word (c : Cfg) (h : BitVec 16) (rest : Bits) :
    decode c .nh (bitsOfBv h ++ rest) = .ok (decodeNh c h.toNat, rest) := by
  rw [decode_nh_append c _ rest (bitsOfBv_length h), natOfBits_bitsOfBv]

/-- The forbidden bit is the highest of the word. -/
theorem header_forbidden (h : BitVec 16) : h.getLsbD 15 = decide (h.toNat / 2 ^ 15 = 1) := by
  have hlt := h.isLt
  rw [BitVec.getLsbD, Nat.testBit_eq_decide_div_mod_eq, Nat.mod_eq_of_lt (by omega)]

/-- A field of a word is its number cut off and shifted down. -/
theorem ofNat_div_eq_extractLsb' (h : BitVec 16) (start len : Nat) :
    BitVec.ofNat len (h.toNat / 2 ^ start) = h.extractLsb' start len :=
  BitVec.eq_of_toNat_eq (by rw [BitVec.toNat_ofNat, BitVec.extractLsb'_toNat, Nat.shiftRight_eq_div_pow])

theorem ofNat_eq_extractLsb' (h : BitVec 16) (len : Nat) : BitVec.ofNat len h.toNat = h.extractLsb' 0 len := by
  rw [← ofNat_div_eq_extractLsb', Nat.pow_zero, Nat.div_one]

/-- Settles O39: the word's number decides its class; a length field is the number of its bytes. -/
theorem headerClassAndLengthOrder : Obligations.HeaderClassAndLengthOrder := by
  unfold Obligations.HeaderClassAndLengthOrder
  refine fun c => ⟨fun h rest => ?_, fun bs => ?_⟩
  · rw [decode_nh_word, header_forbidden, decodeNh]
    refine ⟨fun hf => ?_, fun hf ht => ?_, fun hf ht => ?_⟩
    · rw [if_pos (of_decide_eq_true hf), ofNat_eq_extractLsb']
    · rw [if_neg (of_decide_eq_false hf), ofNat_div_eq_extractLsb', if_pos ht, ofNat_eq_extractLsb']
    · rw [if_neg (of_decide_eq_false hf), ofNat_div_eq_extractLsb', if_neg ht, ofNat_eq_extractLsb']
  · rw [← natOfBits_bitsOfBytes]
    exact ⟨decode_lp c 1 bs, decode_lp c 2 bs, decode_lp c 3 bs, decode_lp c 4 bs⟩

/-- Settles O40: each word is decoded by evaluation. -/
theorem wordsDecode : Obligations.WordsDecode := by
  unfold Obligations.WordsDecode
  exact ⟨rfl, rfl, rfl, rfl, rfl, rfl, rfl, rfl⟩

/-! ## The standard exponential-Golomb scheme (R141) -/

/-- The code of a number: as many leading zeros as `v + 1` has bits after its first, and those bits. -/
def codeOf (v : Nat) : UeCode :=
  { k := BitVec.ofNat 6 (v + 1).log2, s := BitVec.ofNat 32 (v + 1 - 2 ^ (v + 1).log2) }

/-- The bits of a number below its highest do not depend on it. -/
theorem bitsOfNat_sub_two_pow {k w : Nat} (h : 2 ^ k ≤ w) : bitsOfNat k (w - 2 ^ k) = bitsOfNat k w := by
  obtain ⟨d, rfl⟩ := Nat.exists_eq_add_of_le h
  have below : ∀ n ≤ k, bitsOfNat n d = bitsOfNat n (2 ^ k + d) := by
    intro n hn
    induction n with
    | zero => rfl
    | succ n ih => rw [bitsOfNat, bitsOfNat, ih (by omega), Nat.testBit_two_pow_add_gt (by omega)]
  rw [Nat.add_sub_cancel_left]
  exact below k le_rfl

section
variable {v : Nat} (hv : v < 2 ^ 32)
include hv

/-- The fields of the code of a number of 32 bits do not wrap. -/
theorem codeOf_fields : (codeOf v).k.toNat = (v + 1).log2 ∧ (codeOf v).s.toNat = v + 1 - 2 ^ (v + 1).log2 ∧
    (v + 1).log2 ≤ 32 ∧ 2 ^ (v + 1).log2 ≤ v + 1 ∧ v + 1 < 2 * 2 ^ (v + 1).log2 := by
  have hle : 2 ^ (v + 1).log2 ≤ v + 1 := Nat.log2_self_le (by omega)
  have hlt : v + 1 < 2 ^ ((v + 1).log2 + 1) := Nat.lt_log2_self
  have hk : (v + 1).log2 < 33 := (Nat.log2_lt (by omega)).2 (by omega)
  have hpos := Nat.two_pow_pos (v + 1).log2
  rw [pow_succ] at hlt
  refine ⟨?_, ?_, by omega, hle, by omega⟩
  · rw [codeOf, BitVec.toNat_ofNat, Nat.mod_eq_of_lt (by omega)]
  · rw [codeOf, BitVec.toNat_ofNat, Nat.mod_eq_of_lt (by omega)]

theorem codeOf_wf : (codeOf v).wf = true := by
  obtain ⟨hk, hs, h32, hle, hlt⟩ := codeOf_fields hv
  simp only [UeCode.wf, hk, hs, Config.ueMaxLz, Bool.and_eq_true, decide_eq_true_eq]
  omega

/-- The standard encoding is that code written out. -/
theorem ueEncode_eq_bits : ueEncode v = (codeOf v).bits := by
  obtain ⟨hk, hs, -, hle, hlt⟩ := codeOf_fields hv
  have htop : (v + 1).testBit (v + 1).log2 = true := by
    rw [Nat.testBit_eq_decide_div_mod_eq, Nat.div_eq_of_lt_le (k := 1) (by omega) (by omega)]; rfl
  rw [ueEncode, UeCode.bits, hk, hs, bitsOfNat_sub_two_pow hle, bitsOfNat, htop]

/-- And it has the value encoded. -/
theorem ueValue_codeOf : ueValue (codeOf v) = v := by
  obtain ⟨hk, hs, -, hle, hlt⟩ := codeOf_fields hv
  rw [ueValue, hk, hs]
  omega

end

/-- A code of the standard scheme at the cursor is answered with its value, past its bits. -/
theorem readGolomb_ueEncode {s : State} {v : Nat} (hv : v < 2 ^ 32) (hat : s.ReaderAt (ueEncode v)) (f : UeCode → BitVec 33) :
    readGolomb f s = .next ((s.advanceReader (ueEncode v).length).answer (.value (f (codeOf v)))) := by
  rw [ueEncode_eq_bits hv] at hat ⊢
  rw [readGolomb_at (codeOf_wf hv) hat, UeCode.bits_length, ueLength]

/-- Settles O38: the encoding is a well-formed code, and `READUE` and `READSE` answer the value of the code at the cursor. -/
theorem golombRoundTrip : Obligations.GolombRoundTrip := by
  unfold Obligations.GolombRoundTrip
  refine ⟨rfl, fun s n => ⟨fun v hv hat => ?_, fun v hlo hhi hat => ?_⟩⟩
  · refine (readGolomb_ueEncode (f := ueReply) (by omega) hat).trans ?_
    rw [ueReply, ueValue_codeOf (by omega)]
    rfl
  · obtain ⟨u, hu, hsv, hsu⟩ : ∃ u < 2 ^ 32, seValue u = v ∧ seEncode v = ueEncode u := by
      refine ⟨_, ?_, ?_, rfl⟩
      · split <;> omega
      · unfold seValue; split <;> split <;> omega
    rw [hsu] at hat ⊢
    refine (readGolomb_ueEncode (f := seReply) hu hat).trans ?_
    rw [seReply, ueValue_codeOf hu, hsv]
    rfl

end Sys2Proof.Machine
end

section
/-! SUPPORT. The requests of the bit reader used on its own (40_bitreader.md R131 to R140): a code at the cursor, the errors of a
code, two fields in a row; and the obligations on them. -/

namespace Sys2Proof.Machine

open Sys2Proof

/-- Settles O31: `readGolomb_at`, with the two replies written out. -/
theorem readueReadsCode : Obligations.ReadueReadsCode := by
  unfold Obligations.ReadueReadsCode
  exact fun s n c hc hat => ⟨readGolomb_at hc hat ueReply, readGolomb_at hc hat seReply⟩

/-- Settles O34: a code as an instruction is one answer, by the room for its bits. -/
theorem codesAtCursor : Obligations.CodesAtCursor := by
  unfold Obligations.CodesAtCursor
  refine fun s => ⟨fun n v h1 h32 hr => ?_, fun n v hn => if_pos hn, fun c hr =>
    ⟨answerBits_room hr (.value (ueReply c)), answerBits_room hr (.value (seReply c))⟩⟩
  have hn : ¬ (n.toNat = 0 ∨ n.toNat > Config.brMaxN) := by simp only [Config.brMaxN]; omega
  exact (if_neg hn).trans (answerBits_room hr _)

/-! ## Errors of a code -/

/-- The bits ahead are no code: the error is answered and the cursor stays. -/
theorem readGolomb_error {s : State} {r : Reject} (h : takeUe s.reader.bits = .error r) (v : UeCode → BitVec 33) :
    readGolomb v s = .next (s.answer (.error (readerError r))) := by
  rw [readGolomb, h]

/-- Zeros within the bound and then the end (R133). -/
theorem takeUe_zeros {z : Nat} (h : z ≤ 32) : takeUe (List.replicate z false) = .error (.exhausted 1) := by
  rw [takeUe, withUe, ueScan_end z 0 (by rw [Config.ueMaxLz]; omega)]

/-- The 33rd zero (R102, R133). -/
theorem takeUe_malformed (r : Bits) : takeUe (List.replicate 33 false ++ r) = .error .malformedCode := by
  rw [takeUe, withUe, ueScan_malformed 33 0 r (by decide) (by decide)]

/-- A marker with too few bits after it (R133). -/
theorem takeUe_short {z : Nat} {w : Bits} (h : z ≤ 32) (hw : w.length < z) :
    takeUe (List.replicate z false ++ true :: w) = .error (.exhausted (z - w.length)) := by
  rw [takeUe, withUe, ueScan_zeros z 0 w (by rw [Config.ueMaxLz]; omega)]
  simp only [Nat.zero_add, withU, if_pos hw]

/-- Settles O32: what the bits ahead are decides the error, for `READUE` and `READSE` alike. -/
theorem readueErrorsInOrder : Obligations.ReadueErrorsInOrder := by
  unfold Obligations.ReadueErrorsInOrder
  intro s n i hi
  obtain ⟨v, hexec⟩ : ∃ v, exec i s = readGolomb v s := by
    simp only [List.mem_cons, List.not_mem_nil, or_false] at hi
    obtain rfl | rfl := hi
    · exact ⟨ueReply, rfl⟩
    · exact ⟨seReply, rfl⟩
  rw [hexec]
  refine ⟨fun z hz hb => ?_, fun ⟨r, hr⟩ => ?_, fun z hz w hw hb => ?_⟩
  · exact readGolomb_error (hb ▸ takeUe_zeros hz) v
  · exact readGolomb_error (hr ▸ takeUe_malformed r) v
  · exact readGolomb_error (hb ▸ takeUe_short hz hw) v

/-! ## Two fields in a row -/

/-- A fixed read that answers a value had the room, and read the bits ahead. -/
theorem readFixed_value {n : Nat} {s t : State} {v : BitVec 33} (h : readFixed n s = .next t) (hv : t.reply = .value v) :
    n ≤ s.reader.remain ∧ t.reader = { s.reader with pos := BitVec.ofNat 36 (s.reader.pos.toNat + n) } ∧
      v = BitVec.ofNat 33 (natOfBits (s.reader.bits.take n)) := by
  rcases Nat.lt_or_ge s.reader.remain n with hn | hn
  · rw [readFixed, answerBits_short hn] at h
    cases h; cases hv
  · rw [readFixed, answerBits_room hn] at h
    cases h; cases hv
    exact ⟨hn, rfl, rfl⟩

/-- Past `n` of its bits the reader has the others ahead. -/
theorem Reader.advance_spec {r : Reader} {n : Nat} (h1 : 1 ≤ n) (h : n ≤ r.remain) :
    (BitVec.ofNat 36 (r.pos.toNat + n)).toNat = r.pos.toNat + n ∧
      Reader.remain { r with pos := BitVec.ofNat 36 (r.pos.toNat + n) } = r.remain - n ∧
      Reader.bits { r with pos := BitVec.ofNat 36 (r.pos.toNat + n) } = r.bits.drop n := by
  have ht := r.total.isLt
  have hrem : r.remain = r.total.toNat - r.pos.toNat := rfl
  have hpos : (BitVec.ofNat 36 (r.pos.toNat + n)).toNat = r.pos.toNat + n := by
    rw [BitVec.toNat_ofNat, Nat.mod_eq_of_lt (by omega)]
  have hrem' : Reader.remain { r with pos := BitVec.ofNat 36 (r.pos.toNat + n) } = r.remain - n := by
    change r.total.toNat - (BitVec.ofNat 36 (r.pos.toNat + n)).toNat = _
    omega
  refine ⟨hpos, hrem', ?_⟩
  rw [Reader.bits, hrem', Reader.bits, List.drop_take, List.drop_drop, hpos]

/-- The number of `a + b` bits is that of the first `a`, and that of the `b` after them. -/
theorem natOfBits_take_add {bs : Bits} {a b : Nat} (h : a + b ≤ bs.length) :
    natOfBits (bs.take (a + b)) = natOfBits (bs.take a) * 2 ^ b + natOfBits ((bs.drop a).take b) := by
  rw [List.take_add, natOfBits_append, List.length_take, List.length_drop, Nat.min_eq_left (by omega)]

/-- Settles O37: the second read starts where the first one ended, so both together are one read of all the bits. -/
theorem readbitsConcatenate : Obligations.ReadbitsConcatenate := by
  unfold Obligations.ReadbitsConcatenate
  intro s t u a b hi lo ha hb hab h hhi h' hlo
  rw [exec_readbits_eq ha (by omega)] at h
  rw [exec_readbits_eq hb (by omega)] at h'
  obtain ⟨hra, hrt, rfl⟩ := readFixed_value h hhi
  obtain ⟨hrb, hru, rfl⟩ := readFixed_value h' hlo
  obtain ⟨hpos, hrem, hbits⟩ := Reader.advance_spec ha hra
  rw [hrt, hrem] at hrb
  rw [hrt, hpos, Nat.add_assoc] at hru
  have hsum : (a + b).toNat = a.toNat + b.toNat := by
    rw [BitVec.toNat_add, Nat.mod_eq_of_lt (by omega)]
  have small : ∀ n ≤ 32, ∀ bs : Bits, (BitVec.ofNat 33 (natOfBits (bs.take n))).toNat = natOfBits (bs.take n) := by
    intro n hn bs
    have hlt := natOfBits_lt (bs.take n)
    have hle : 2 ^ (bs.take n).length ≤ 2 ^ 32 := Nat.pow_le_pow_right (by omega) (by rw [List.length_take]; omega)
    rw [BitVec.toNat_ofNat, Nat.mod_eq_of_lt (by omega)]
  rw [exec_readbits_eq (by omega) (by omega), hsum, readFixed, answerBits_room (by omega), small _ (by omega),
    small _ (by omega), hrt, hbits, natOfBits_take_add (by rw [Reader.bits_length]; omega)]
  rw [hru]
  rfl

/-! ## A step that takes a request -/

/-- A named code that stands at the cursor is the instruction (30_encoding.md R114). -/
theorem decode_at {s : State} {i : Instr} (hw : i.wf s.cfg = true) (hi : i ≠ .nalShort) (hat : s.ReaderAt (encode s.cfg i)) :
    ∃ r, decode s.cfg i.fmt s.reader.bits = .ok (i, r) := by
  obtain ⟨r, hr⟩ := hat
  exact ⟨r, by rw [← hr, decode_encode s.cfg hw hi]⟩

/-- Settles O47: the request is the host's next access, and its word or its name gives the instruction. -/
theorem stepRunsRequest : Obligations.StepRunsRequest := by
  unfold Obligations.StepRunsRequest
  refine fun s rest => ⟨fun w i r hh hd => ?_, fun n v hh hw hat => ?_, fun c hc hat => ⟨fun hh => ?_, fun hh => ?_⟩,
    fun v hh => ⟨fun hl => ?_, fun hl => ?_⟩⟩ <;> rw [step_eq, fetch, hh]
  · simp only [fetchHost, hd, runDecoded, runFetched]
  · obtain ⟨r, hd⟩ := decode_at hw nofun hat
    simp only [Instr.fmt] at hd
    simp only [fetchHost, hostCode, hd, runFetched]
  · obtain ⟨r, hd⟩ := decode_at (i := .ue c) hc nofun hat
    simp only [Instr.fmt] at hd
    simp only [fetchHost, hostCode, hd, runFetched]
  · obtain ⟨r, hd⟩ := decode_at (i := .se c) hc nofun hat
    simp only [Instr.fmt] at hd
    simp only [fetchHost, hostCode, hd, runFetched]
  · simp only [fetchHost, if_pos hl, runFetched]
  · simp only [fetchHost, if_neg (Nat.not_lt.2 hl), runFetched]

end Sys2Proof.Machine
end

section
/-! SUPPORT. Reset and the host's accesses (10_state.md R21, R35, 70_reset_and_hazards.md R270 to R284): one access is one step, and
the obligations on them. -/

namespace Sys2Proof.Machine

open Sys2Proof

/-- Where the host has an access to make, the step is that access, in the state without it. -/
theorem step_host {s : State} {a : HostAct} {rest : List HostAct} (h : s.host = a :: rest) :
    step s = runFetched (fetchHost a { s with host := rest }) := by
  rw [step_eq, fetch, h]

/-- The conditions on `BUSY`, `LEN` and `NSW` do not see the host's list. -/
theorem busy_host (s : State) (rest : List HostAct) : State.busy { s with host := rest } = s.busy := rfl

/-- Settles O1: the reset state as it is defined. -/
theorem resetState : Obligations.ResetState := by
  unfold Obligations.ResetState
  exact ⟨rfl, rfl, rfl, rfl, rfl, rfl, rfl, rfl, fun _ => rfl, fun _ => rfl⟩

/-- Settles O2: the step is the reset input, whatever the state. -/
theorem resetInputAbandonsCall : Obligations.ResetInputAbandonsCall := by
  unfold Obligations.ResetInputAbandonsCall
  have clear : ∀ i, State.reset.status.getLsbD i = false := fun i => BitVec.getLsbD_zero
  exact fun s rest h => ⟨_, step_host h, clear _, clear _, rfl, rfl, rfl, rfl, rfl, rfl, rfl, rfl, fun _ => rfl, fun _ => rfl, rfl, rfl⟩

/-- Settles O3: both operations begin the call with `beginCall`. -/
theorem startBeginsCall : Obligations.StartBeginsCall := by
  unfold Obligations.StartBeginsCall
  refine fun s hn => ⟨fun hb hl hw => ⟨_, ?_, callBegun_beginCall s .parsenals⟩, _, ?_, callBegun_beginCall s .scan⟩
  · rw [exec_start_of_idle hb hl hw, if_neg (Nat.not_lt.2 hn)]
  · exact if_neg (Nat.not_lt.2 hn)

/-- Bit 0 of `CTRL` written as 0 is no instruction (30_encoding.md R112). -/
theorem decode_ctrl_zero (c : Cfg) : decode c .ctrl [false] = .error .ctrlZero := rfl

/-- Settles O6: bit 0 is all the decoder is given. -/
theorem ctrlWriteIsTheCommand : Obligations.CtrlWriteIsTheCommand := by
  unfold Obligations.CtrlWriteIsTheCommand
  refine fun s v rest hh => ⟨step_ctrlWrite_one hh, fun hv => ?_⟩
  rw [step_host hh]
  simp only [fetchHost, hostWrite, hv, decode_ctrl_zero, runFetched]

/-- Settles O7: the three set-up writes of an idle block, and the writes that are ignored. -/
theorem hostSetUpWrites : Obligations.HostSetUpWrites := by
  unfold Obligations.HostSetUpWrites
  refine fun s rest => ⟨fun v hb hh => ?_, fun v hb hh => ?_, fun off b hb hh => ⟨{ s with host := rest, buf := _ }, ?_, rfl,
    fun a => Memory.read_write s.buf off.toNat a b⟩, fun reg v hreg hh => ?_⟩ <;> rw [step_host hh]
  · simp [fetchHost, hostWrite, busy_host, hb, runFetched]
  · simp [fetchHost, hostWrite, busy_host, hb, runFetched]
  · simp [fetchHost, hostWriteBuf, busy_host, hb, runFetched]
  · obtain rfl | ⟨h4, h14⟩ := hreg
    · rfl
    · interval_cases reg <;> rfl

/-- Registers 0 to 14 can be read (10_state.md R21). -/
theorem regValue_isSome {reg : Nat} (s : State) (h : reg ≤ 14) : ∃ v, regValue s reg = some v := by
  interval_cases reg <;> exact ⟨_, rfl⟩

/-- Settles O8: each refusal is the test its access meets first. -/
theorem hostHazardsRefused : Obligations.HostHazardsRefused := by
  unfold Obligations.HostHazardsRefused
  refine fun s rest => ⟨fun hb hw => ?_, fun reg v hb hreg hh => ?_, fun off b hb hh => ?_, fun reg hb h14 h1 hh => ?_,
    fun reg hb hv h5 h9 hh => ?_⟩
  · change execStart s = _
    obtain hw | hw := hw <;> simp [execStart, hb, hw]
  · rw [step_host hh]
    obtain rfl | rfl := hreg <;> simp [fetchHost, hostWrite, busy_host, hb, runFetched]
  · rw [step_host hh]
    simp [fetchHost, hostWriteBuf, busy_host, hb, runFetched]
  · obtain ⟨v, hv⟩ := regValue_isSome { s with host := rest } h14
    rw [step_host hh]
    simp [fetchHost, hostRead, hv, busy_host, hb, h1, runFetched]
  · have hbad : 5 ≤ reg ∧ reg ≤ 9 ∧ s.valid = false := ⟨h5, h9, hv⟩
    obtain ⟨v, hr⟩ := regValue_isSome { s with host := rest } (show reg ≤ 14 by omega)
    rw [step_host hh]
    simp only [fetchHost, hostRead, hr, busy_host, hb, Bool.false_eq_true, if_false, if_pos hbad, runFetched]

/-- An idle read of a register answers its value, a data register only with `VALID` set. -/
theorem step_read_idle {s : State} {reg : Nat} {rest : List HostAct} {v : BitVec 32} (hb : s.busy = false)
    (hv : 5 ≤ reg → reg ≤ 9 → s.valid = true) (hh : s.host = .read reg :: rest) (hr : regValue s reg = some v) :
    step s = .next { s with host := rest, hostData := v } := by
  have hr' : regValue { s with host := rest } reg = some v := hr
  have hd : ¬ (5 ≤ reg ∧ reg ≤ 9 ∧ s.valid = false) := fun ⟨h5, h9, hf⟩ => by simp [hv h5 h9] at hf
  rw [step_host hh]
  simp only [fetchHost, hostRead, hr', busy_host, hb, Bool.false_eq_true, if_false, if_neg hd, runFetched]

/-- Settles O9: an idle read is the register's value; while busy the mask keeps `BUSY`, `DONE` and free bits alone. -/
theorem hostReadsRegisters : Obligations.HostReadsRegisters := by
  unfold Obligations.HostReadsRegisters
  refine fun s rest => ⟨fun p hp hb hv hh => ?_, fun hb hh => ?_⟩
  · refine step_read_idle hb hv hh ?_
    simp only [List.mem_cons, List.not_mem_nil, or_false] at hp
    obtain rfl | rfl | rfl | rfl | rfl | rfl | rfl | rfl | rfl | rfl | rfl | rfl | rfl | rfl | rfl := hp <;> rfl
  · refine ⟨{ s with host := rest, hostData := (busyStatus s).setWidth 32, free := s.free + 1 }, ?_, rfl, ?_, ?_, fun j hj => ?_⟩
    · rw [step_host hh]
      simp [fetchHost, hostRead, regValue, busy_host, hb, runFetched, busyStatus]
    · simp [busyStatus, State.busy, Status.busyBit]
    · simp [busyStatus, State.done, Status.doneBit]
    · obtain ⟨h3, h7⟩ | h13 := hj
      · interval_cases j <;> simp [busyStatus]
      · simp [busyStatus, BitVec.getLsbD_of_ge _ j h13]

/-- Settles O10: `Status.get_ended` bit by bit. -/
theorem endcallClosesCall : Obligations.EndcallClosesCall := by
  unfold Obligations.EndcallClosesCall
  have bit := fun (s : State) j (hj : j < 13) => Status.get_ended s.status (decide (s.spsOk.toNat > 0)) j hj
  refine fun s => ⟨_, rfl, rfl, bit s 0 (by omega), bit s 1 (by omega), ?_, fun j h3 h13 => ?_⟩
  · exact (Bool.eq_iff_iff.1 (bit s 2 (by omega))).trans decide_eq_true_iff
  · exact (bit s j h13).trans (by rw [if_neg (by omega), if_neg (by omega), if_neg (by omega)])

/-- Settles O48: every clause is about zeros and the idle place. -/
theorem resetMeetsInvariant : Obligations.ResetMeetsInvariant := by
  unfold Obligations.ResetMeetsInvariant
  constructor <;> simp [State.reset, View.empty, Memory.wf, State.busy, State.ok, Reader.total, Phase.inUnit, Phase.inSps]

end Sys2Proof.Machine
end

section
/-! SUPPORT. What the engine meets at each place (00_scope.md R3, 41_nal_scanner.md R160 to R168): one equation for the step at the
place, and the obligations on the steps of the scanner. -/

namespace Sys2Proof.Machine

open Sys2Proof

section
variable {s : State} (hh : s.host = [])
include hh

theorem step_idle (hp : s.phase = .idle) : step s = .next s := by
  rw [step_engine hh, fetchEngine, hp]; rfl

theorem step_parsenals (hp : s.phase = .parsenals) : step s = exec .parsenals s := by
  rw [step_engine hh, fetchEngine, hp]; rfl

theorem step_scan (hp : s.phase = .scan) : step s = exec (decodeNsw s.nsw.toNat) s := by
  rw [step_engine hh, fetchEngine, hp]
  simp only [decode_nsw, runDecoded, runFetched]

theorem step_lpField (hp : s.phase = .lpField) : step s = runFetched (fetchLengthField s) := by
  rw [step_engine hh, fetchEngine, hp]

theorem step_delim (hp : s.phase = .delim) : step s = runFetched (fetchDelimiter s) := by
  rw [step_engine hh, fetchEngine, hp]

theorem step_nalunit (hp : s.phase = .nalunit) : step s = exec .nalunit s := by
  rw [step_engine hh, fetchEngine, hp]; rfl

theorem step_header (hp : s.phase = .header) : step s = runFetched (fetchHeader s) := by
  rw [step_engine hh, fetchEngine, hp]

theorem step_dispatch (hp : s.phase = .dispatch) : step s = exec .dispatch s := by
  rw [step_engine hh, fetchEngine, hp]; rfl

theorem step_epb (hp : s.phase = .epb) : step s = runFetched (fetchEpb s) := by
  rw [step_engine hh, fetchEngine, hp]

theorem step_parsesps (hp : s.phase = .parsesps) : step s = exec .parsesps s := by
  rw [step_engine hh, fetchEngine, hp]; rfl

theorem step_sps {e : SpsElem} (hp : s.phase = .sps e) : step s = runFetched (fetchElement e s) := by
  rw [step_engine hh, fetchEngine, hp]

theorem step_endcall (hp : s.phase = .endcall) : step s = exec .endcall s := by
  rw [step_engine hh, fetchEngine, hp]; rfl

end

/-! ## A delimiter, a header, a payload byte -/

/-- Three bytes are an emulation-prevention triple exactly when they are `00 00 03` (30_encoding.md R99). -/
theorem decode_epb (c : Cfg) {bs : List Byte} (h : bs.length = 3) :
    decode c .epb (bitsOfBytes bs) = if bs = [0x00, 0x00, 0x03] then .ok (.epb, []) else .error .notEpb := by
  obtain ⟨x, y, z, rfl⟩ : ∃ x y z, bs = [x, y, z] := by
    match bs, h with
    | [x, y, z], _ => exact ⟨x, y, z, rfl⟩
  have hx := x.isLt
  have hy := y.isLt
  have hz := z.isLt
  have hiff : natOfBits (bitsOfBytes [x, y, z]) = 3 ↔ [x, y, z] = [0x00, 0x00, 0x03] := by
    simp [natOfBits_bitsOfBytes, bigEndian, ← BitVec.toNat_inj]
    omega
  rw [decode, withU_exact 24 _ _ (by simp)]
  by_cases h3 : [x, y, z] = [0x00, 0x00, 0x03]
  · rw [if_pos h3, if_pos (hiff.2 h3), accept]
  · rw [if_neg h3, if_neg (mt hiff.1 h3)]

/-- A 4-byte start code ahead is read as `SC4` (R164, 30_encoding.md R92). -/
theorem fetchDelimiter_sc4 {s : State} (hw : s.BufWritten) {j : Nat} (hj : s.FirstStartCode s.off.toNat j)
    (hlt : s.off.toNat < j) (hz : s.buf.read? (j - 1) = some 0x00) : fetchDelimiter s = .run .sc4 s := by
  have hsc := hj.2.1
  have hlen := hsc.1
  have hb : s.bufRead (j - 1) = .ok 0x00 := (bufRead_ok_iff s (j - 1) 0x00).2 ⟨by omega, hz⟩
  obtain ⟨bs, hbs, -, -⟩ := bufBytes_written hw 4 (j - 1) (by omega)
  rw [bufBytes_startCode4 (by omega) hz hsc hbs] at hbs
  simp only [fetchDelimiter, findSc_first hw hj, fetchRead, gt_iff_lt, hlt, hb, hbs, if_true, decode_sc4, runDecoded]

/-- Any other start code ahead is read as `SC3` (R164, 30_encoding.md R91). -/
theorem fetchDelimiter_sc3 {s : State} (hw : s.BufWritten) {j : Nat} (hj : s.FirstStartCode s.off.toNat j)
    (hn : ¬ (s.off.toNat < j ∧ s.buf.read? (j - 1) = some 0x00)) : fetchDelimiter s = .run .sc3 s := by
  have hsc := hj.2.1
  have hlen := hsc.1
  obtain ⟨bs, hbs, -, -⟩ := bufBytes_written hw 3 j (by omega)
  rw [bufBytes_startCode hsc hbs] at hbs
  by_cases hlt : s.off.toNat < j
  · obtain ⟨b, hb, hr⟩ := bufRead_written hw (i := j - 1) (by omega)
    have hb0 : b ≠ 0 := fun h => hn ⟨hlt, by rw [hr, h]⟩
    simp only [fetchDelimiter, findSc_first hw hj, fetchRead, gt_iff_lt, hlt, hb, hbs, if_true, hb0, if_false, decode_sc3, runDecoded]
  · simp only [fetchDelimiter, findSc_first hw hj, fetchRead, gt_iff_lt, hlt, hbs, if_false, decode_sc3, runDecoded]

/-- Inside the payload, past its first two bytes, the three bytes that end at the index decide (R190). -/
theorem fetchEpb_inside {s : State} {bs : List Byte} (h2 : 2 ≤ s.epbI.toNat) (hi : s.epbI.toNat < s.payloadLen)
    (hb : s.bufBytes 3 (s.nalOff.toNat + s.epbI.toNat) = .ok bs) :
    fetchEpb s = .run (if bs = [0x00, 0x00, 0x03] then .epb else .epbremove) s := by
  have hoff : s.payloadOff + s.epbI.toNat - 2 = s.nalOff.toNat + s.epbI.toNat := by rw [State.payloadOff]; omega
  rw [fetchEpb, if_pos ⟨h2, hi⟩, hoff, hb]
  simp only [fetchRead, decode_epb s.cfg (bufBytes_ok hb).1]
  by_cases h3 : bs = [0x00, 0x00, 0x03]
  · simp only [if_pos h3]
  · simp only [if_neg h3, decode, accept, decodeOp, runDecoded]

/-- At its first two bytes and past its end nothing but the loop itself can be met (R190). -/
theorem fetchEpb_outside {s : State} (h : s.epbI.toNat < 2 ∨ s.payloadLen ≤ s.epbI.toNat) : fetchEpb s = .run .epbremove s := by
  rw [fetchEpb, if_neg (by omega), decode, accept, decodeOp, runDecoded]

/-- Settles O43: the step's equation at each place, and what stands there. -/
theorem stepRunsStreamStructure : Obligations.StepRunsStreamStructure := by
  unfold Obligations.StepRunsStreamStructure
  refine fun s hh => ⟨fun i r hp hd => ?_, fun bs i r hp hb hd => ?_, fun j hp hw hj => ⟨fun ⟨hlt, hz⟩ => ?_, fun hn => ?_⟩,
    fun bs i r hp hl hb hd => ?_, fun hp hl => ?_, fun bs hp h2 hi hb => ?_, fun hp hi => ?_⟩
  · rw [decode_nsw] at hd
    cases hd
    exact step_scan hh hp
  · rw [step_lpField hh hp, fetchLengthField, hb]
    simp only [fetchRead, hd, runDecoded, runFetched]
  · rw [step_delim hh hp, fetchDelimiter_sc4 hw hj hlt hz, runFetched]
  · rw [step_delim hh hp, fetchDelimiter_sc3 hw hj hn, runFetched]
  · rw [step_header hh hp, fetchHeader, if_neg (by omega), hb]
    simp only [fetchRead, hd, runDecoded, runFetched]
  · rw [step_header hh hp, fetchHeader, if_pos hl]
    rfl
  · rw [step_epb hh hp, fetchEpb_inside h2 hi hb, runFetched]
    exact ⟨fun h => by rw [if_pos h], fun h => by rw [if_neg h]⟩
  · rw [step_epb hh hp, fetchEpb_outside hi, runFetched]

/-- Settles O44: the step's equation at each operation. -/
theorem stepRunsOperation : Obligations.StepRunsOperation := by
  unfold Obligations.StepRunsOperation
  exact fun s hh => ⟨step_parsenals hh, step_nalunit hh, step_dispatch hh, step_parsesps hh, step_endcall hh, step_idle hh⟩

end Sys2Proof.Machine
end

section
/-! SUPPORT. The scanner (41_nal_scanner.md R160 to R174): the start-code search, the heads of its two loops, the span of a NAL unit,
and the obligations on them. -/

namespace Sys2Proof.Machine

open Sys2Proof

/-- No start code stands where fewer than three bytes are left (R165). -/
theorem not_isStartCode {s : State} {k : Nat} (h : s.len.toNat ≤ k + 2) : ¬ s.IsStartCode k :=
  fun hsc => Nat.not_lt.2 h hsc.1

/-- Settles O15: the search finds the least start code, and none where none stands. -/
theorem findScIsLeast : Obligations.FindScIsLeast := by
  unfold Obligations.FindScIsLeast
  exact fun s hw f => ⟨fun j => ⟨findSc_some, findSc_first hw⟩, ⟨findSc_none, findSc_absent hw⟩,
    fun hl => findSc_absent hw fun k hk => not_isStartCode (by omega)⟩

/-- The mode instruction of a width is the head of its loop (R161, R162). -/
theorem exec_decodeNsw_prefixed {w : Nat} (h1 : 1 ≤ w) (h4 : w ≤ 4) (s : State) : exec (decodeNsw w) s = scanPrefixed w s := by
  match w, h1, h4 with
  | 1, _, _ | 2, _, _ | 3, _, _ | 4, _, _ => rfl

section
variable {s : State} {w : Nat}

theorem scanPrefixed_end (h : s.len.toNat ≤ s.off.toNat) : scanPrefixed w s = .next (s.goto .endcall) :=
  if_neg (Nat.not_lt.2 h)

theorem scanPrefixed_truncated (h : s.off.toNat < s.len.toNat) (hw : s.len.toNat < s.off.toNat + w) :
    scanPrefixed w s = .next (s.raiseScan .truncatedNal (BitVec.ofNat 32 s.off.toNat)) :=
  (if_pos h).trans (if_pos hw)

theorem scanPrefixed_field (h : s.off.toNat < s.len.toNat) (hw : s.off.toNat + w ≤ s.len.toNat) :
    scanPrefixed w s = .next (s.goto .lpField) :=
  (if_pos h).trans (if_neg (Nat.not_lt.2 hw))

theorem lengthField_truncated {n : Nat} (h : s.len.toNat < s.off.toNat + w + n) :
    lengthField w n s = .next (s.raiseScan .truncatedNal (BitVec.ofNat 32 s.off.toNat)) :=
  if_pos h

theorem lengthField_unit {n : Nat} (h : s.off.toNat + w + n ≤ s.len.toNat) :
    lengthField w n s = .next (s.openNal (s.off.toNat + w) (s.off.toNat + w + n)) :=
  if_neg (Nat.not_lt.2 h)

end

/-- Settles O11: the three outcomes of the head, for each width. -/
theorem scanPrefixedHead : Obligations.ScanPrefixedHead := by
  unfold Obligations.ScanPrefixedHead
  intro s i w hi
  have hexec : exec i s = scanPrefixed w s := by
    obtain ⟨rfl, rfl⟩ | ⟨rfl, rfl⟩ | ⟨rfl, rfl⟩ | ⟨rfl, rfl⟩ := hi <;> rfl
  rw [hexec]
  exact ⟨scanPrefixed_end, fun h hw => ⟨_, recorded_record s .truncatedNal _, scanPrefixed_truncated h hw⟩, scanPrefixed_field⟩

/-- Settles O12: the two outcomes of a length field, for each width. -/
theorem lengthPrefixBoundsUnit : Obligations.LengthPrefixBoundsUnit := by
  unfold Obligations.LengthPrefixBoundsUnit
  intro s i w n hi
  have hexec : exec i s = lengthField w n s := by
    obtain ⟨v, rfl, rfl, rfl⟩ | ⟨v, rfl, rfl, rfl⟩ | ⟨v, rfl, rfl, rfl⟩ | ⟨v, rfl, rfl, rfl⟩ := hi <;> rfl
  rw [hexec]
  refine ⟨fun h => ⟨_, recorded_record s .truncatedNal _, lengthField_truncated h⟩, fun h => ?_⟩
  rw [lengthField_unit h, State.openNal, Nat.add_sub_cancel_left]

/-- Settles O13: the search from `OFF`, and from past the start code it finds. -/
theorem scanStartCodeHead : Obligations.ScanStartCodeHead := by
  unfold Obligations.ScanStartCodeHead
  refine fun s hw => ⟨fun hn => ?_, fun i hi hn => ?_, fun i j hi hj => ?_⟩ <;> change scanStartCode s = _
  · simp only [scanStartCode, findSc_absent hw hn, ofRead]; rfl
  · simp only [scanStartCode, findSc_first hw hi, findSc_absent hw hn, ofRead]; rfl
  · simp only [scanStartCode, findSc_first hw hi, findSc_first hw hj, ofRead]; rfl

/-- Settles O14: the span is closed at the start code the search finds, or at `LEN`. -/
theorem startCodeEndsUnit : Obligations.StartCodeEndsUnit := by
  unfold Obligations.StartCodeEndsUnit
  refine fun s hw => ⟨fun j hj => ⟨?_, ?_⟩, fun hn i hi => ?_⟩
  · change closeSpan false s = _
    simp only [closeSpan, findSc_first hw hj, ofRead, Bool.false_eq_true, false_and, if_false, State.openNal]
  · change closeSpan true s = _
    have hle := hj.1
    have hlen : (if j > s.off.toNat then j - 1 else j) - s.off.toNat = j - 1 - s.off.toNat := by split <;> omega
    simp only [closeSpan, findSc_first hw hj, ofRead, true_and, State.openNal, hlen]
  · have hclose : ∀ trim, closeSpan trim s = .next (s.openNal s.off.toNat s.len.toNat) := fun trim => by
      simp only [closeSpan, findSc_absent hw hn, ofRead]
    simp only [List.mem_cons, List.not_mem_nil, or_false] at hi
    obtain rfl | rfl := hi
    · exact hclose false
    · exact hclose true

/-- Settles O16: the counters and the type are written as the operations say; the rest is `nalReturn`. -/
theorem unitCountedAndDispatched : Obligations.UnitCountedAndDispatched := by
  unfold Obligations.UnitCountedAndDispatched
  exact fun s => ⟨rfl, fun _ => rfl, fun _ _ => rfl, fun ht => ⟨_, scanGoesOn_nalReturn s, if_pos ht⟩,
    fun ht => if_neg (not_not.2 ht)⟩

/-! ## A call without a NAL unit (R174) -/

/-- The scan ends at its head where nothing is left to find. -/
theorem exec_scan_end {s : State} (hw : s.BufWritten) (h4 : s.nsw.toNat ≤ 4)
    (h : s.len = 0 ∨ s.nsw = 0 ∧ ∀ k, ¬ s.IsStartCode k) : exec (decodeNsw s.nsw.toNat) s = .next (s.goto .endcall) := by
  by_cases h0 : s.nsw = 0
  · have hn : ∀ k, s.off.toNat ≤ k → ¬ s.IsStartCode k := fun k _ => by
      obtain hl | ⟨-, hn⟩ := h
      · exact not_isStartCode (by simp [hl])
      · exact hn k
    rw [h0]
    change scanStartCode s = _
    simp only [scanStartCode, findSc_absent hw hn, ofRead]
  · have hl : s.len = 0 := h.resolve_right fun h => h0 h.1
    have h1 : 1 ≤ s.nsw.toNat := Nat.one_le_iff_ne_zero.2 fun hz => h0 (BitVec.eq_of_toNat_eq hz)
    rw [exec_decodeNsw_prefixed h1 h4, scanPrefixed_end (by simp [hl])]

/-- Settles O57: the call begins, its scan ends at once, and `ENDCALL` closes it. -/
theorem emptyCallEndsClean : Obligations.EmptyCallEndsClean := by
  unfold Obligations.EmptyCallEndsClean
  intro s hh hw hp h4 hnone
  have h1 : step s = .next (s.beginCall.goto .scan) :=
    (step_parsenals hh hp).trans (if_neg (Nat.not_lt.2 h4))
  have h2 : step (s.beginCall.goto .scan) = .next ((s.beginCall.goto .scan).goto .endcall) :=
    (step_scan (s := s.beginCall.goto .scan) hh rfl).trans (exec_scan_end (s := s.beginCall.goto .scan) hw h4 hnone)
  have h3 := step_endcall (s := (s.beginCall.goto .scan).goto .endcall) hh rfl
  have bit := Status.get_ended s.beginCall.status (decide (s.beginCall.spsOk.toNat > 0))
  refine ⟨_, (run_succ 2 h1).trans ((run_succ 1 h2).trans (run_succ 0 h3)), rfl, bit 0 (by omega), bit 1 (by omega),
    bit 2 (by omega), rfl, rfl, rfl, rfl, rfl, rfl, fun e => (bit e.bit e.bit_lt).trans ?_⟩
  rw [← State.sticky, beginCall_sticky]
  cases e <;> rfl

end Sys2Proof.Machine
end

section
/-! SUPPORT. `EPBREMOVE` (42_epb_removal.md R190 to R194): one iteration of its loop, the whole loop against the bytes the rule keeps,
and the obligations on them. -/

namespace Sys2Proof.Machine

open Sys2Proof

section
variable {s : State}

/-- The loop keeps the byte at its index (R190). -/
theorem exec_epbremove_keep {b : Byte} (hi : s.epbI.toNat < s.payloadLen)
    (hb : s.bufRead (s.payloadOff + s.epbI.toNat) = .ok b) :
    exec .epbremove s =
      .next { s.scrWrite s.epbK.toNat b with epbI := s.epbI + 1, epbK := s.epbK + 1, phase := .epb } := by
  change execEpbremove s = _
  rw [execEpbremove, if_pos hi, hb]
  rfl

/-- Past the payload it sets `SCR_LEN` (R190). -/
theorem exec_epbremove_end (hi : s.payloadLen ≤ s.epbI.toNat) :
    exec .epbremove s = .next { s with scrLen := s.epbK, phase := .parsesps } :=
  if_neg (Nat.not_lt.2 hi)

end

/-- Settles O18: the iteration drops or keeps, and the line after the loop sets the length. -/
theorem epbLoopIteration : Obligations.EpbLoopIteration := by
  unfold Obligations.EpbLoopIteration
  refine fun s => ⟨rfl, fun b hi hl hb => ⟨_, exec_epbremove_keep hi ((bufRead_ok_iff _ _ _).2 ⟨hl, hb⟩), rfl, fun a => ?_⟩,
    exec_epbremove_end⟩
  exact Memory.read_write s.scr s.epbK.toNat a b

/-! ## The bytes kept so far -/

/-- The bytes kept of the first `i` of a payload. -/
def keptUpTo (payload : List Byte) (i : Nat) : List Byte :=
  (List.range i).filterMap fun j => if isEpb payload j then none else payload[j]?

theorem keptBytes_eq_keptUpTo (payload : List Byte) : keptBytes payload = keptUpTo payload payload.length := rfl

theorem keptUpTo_zero (payload : List Byte) : keptUpTo payload 0 = [] := rfl

/-- One byte more is kept, unless it is an emulation-prevention byte. -/
theorem keptUpTo_succ {payload : List Byte} {i : Nat} (h : i < payload.length) :
    keptUpTo payload (i + 1) = if isEpb payload i then keptUpTo payload i else keptUpTo payload i ++ [payload[i]] := by
  rw [keptUpTo, List.range_succ, List.filterMap_append]
  split <;> simp [*, keptUpTo]

/-- No more bytes are kept than seen. -/
theorem keptUpTo_length_le (payload : List Byte) (i : Nat) : (keptUpTo payload i).length ≤ i :=
  (List.length_filterMap_le _ _).trans (List.length_range).le

/-- An emulation-prevention byte ends a triple (R99, R190). -/
theorem isEpb_iff {payload : List Byte} {i : Nat} : isEpb payload i = true ↔
    2 ≤ i ∧ payload[i - 2]? = some 0x00 ∧ payload[i - 1]? = some 0x00 ∧ payload[i]? = some 0x03 := by
  simp only [isEpb, Bool.and_eq_true, decide_eq_true_eq]
  tauto

/-! ## The loop -/

/-- The loop of R190 at index `i`, begun in `s`: the bytes kept so far stand in `SCR`, and nothing else but the counters has
changed. -/
structure EpbAt (s : State) (payload : List Byte) (i : Nat) (t : State) : Prop where
  frame : t = { s with scr := t.scr, epbI := t.epbI, epbK := t.epbK }
  index : t.epbI.toNat = i
  count : t.epbK.toNat = (keptUpTo payload i).length
  kept : ∀ a, t.scr.read? a = ((keptUpTo payload i)[a]?).or (s.scr.read? a)

/-- The premises of the obligations on the whole loop: the engine is at it and its payload can be read. -/
structure EpbEntry (s : State) (payload : List Byte) : Prop where
  host : s.host = []
  phase : s.phase = .epb
  bytes : s.bufBytes s.payloadLen s.payloadOff = .ok payload

section
variable {s t : State} {payload : List Byte} {i : Nat}

theorem EpbEntry.length (h : EpbEntry s payload) : payload.length = s.payloadLen := (bufBytes_ok h.bytes).1

theorem EpbEntry.length_lt (h : EpbEntry s payload) : payload.length < 2 ^ 32 := by
  have hl := h.length
  have hlt := s.nalLen.isLt
  rw [State.payloadLen] at hl
  omega

theorem EpbEntry.read (h : EpbEntry s payload) (hi : i < payload.length) : s.bufRead (s.payloadOff + i) = .ok payload[i] :=
  ((bufBytes_ok_iff s _ _ _).1 h.bytes).2 i hi

/-- The triple that ends at an index of the payload. -/
theorem EpbEntry.triple (h : EpbEntry s payload) (h2 : 2 ≤ i) (hi : i < payload.length) :
    s.bufBytes 3 (s.nalOff.toNat + i) = .ok [payload[i - 2], payload[i - 1], payload[i]] := by
  refine (bufBytes_ok_iff s _ _ _).2 ⟨rfl, fun k hk => ?_⟩
  have hk3 : k < 3 := hk
  have hread := h.read (i := i - 2 + k) (by omega)
  have hoff : s.payloadOff + (i - 2 + k) = s.nalOff.toNat + i + k := by rw [State.payloadOff]; omega
  rw [hoff] at hread
  rw [hread]
  interval_cases k
  · rfl
  · simp only [show i - 2 + 1 = i - 1 by omega]; rfl
  · simp only [show i - 2 + 2 = i by omega]; rfl

/-- What the engine meets at an index of the payload is a triple exactly where the rule drops the byte. -/
theorem EpbEntry.fetch (h : EpbEntry s payload) (ht : EpbAt s payload i t) (hi : i < payload.length) :
    fetchEpb t = .run (if isEpb payload i then .epb else .epbremove) t := by
  have hbuf : t.buf = s.buf := by rw [ht.frame]
  have hlen : t.len = s.len := by rw [ht.frame]
  have hoff : t.nalOff = s.nalOff := by rw [ht.frame]
  have hpl : t.payloadLen = payload.length := by rw [h.length, ht.frame]; rfl
  have hidx := ht.index
  rcases Nat.lt_or_ge i 2 with h2 | h2
  · have hn : ¬ isEpb payload i = true := fun hd => by have := (isEpb_iff.1 hd).1; omega
    rw [fetchEpb_outside (.inl (by omega)), if_neg hn]
  · have hb : t.bufBytes 3 (t.nalOff.toNat + t.epbI.toNat) = .ok [payload[i - 2], payload[i - 1], payload[i]] := by
      rw [bufBytes_congr hbuf hlen, hoff, hidx]
      exact h.triple h2 hi
    have hiff : [payload[i - 2], payload[i - 1], payload[i]] = [0x00, 0x00, 0x03] ↔ isEpb payload i = true := by
      simp [isEpb_iff, h2, hi, show i - 2 < payload.length by omega, show i - 1 < payload.length by omega]
    rw [fetchEpb_inside (by omega) (by omega) hb]
    simp only [hiff]

/-- One iteration of the loop. -/
theorem EpbEntry.step (h : EpbEntry s payload) (ht : EpbAt s payload i t) (hi : i < payload.length) :
    ∃ u, Machine.step t = .next u ∧ EpbAt s payload (i + 1) u := by
  have hhost : t.host = [] := by rw [ht.frame]; exact h.host
  have hphase : t.phase = .epb := by rw [ht.frame]; exact h.phase
  have hlt := h.length_lt
  have hkle := keptUpTo_length_le payload i
  have hidx := ht.index
  have hcnt := ht.count
  have hinc : ∀ {x : BitVec 32} {n : Nat}, x.toNat = n → n ≤ i → (x + 1).toNat = n + 1 := fun {x n} hx hn => by
    rw [BitVec.toNat_add, hx]
    exact Nat.mod_eq_of_lt (by simp; omega)
  rw [step_epb hhost hphase, h.fetch ht hi]
  have hsucc := keptUpTo_succ hi
  by_cases hd : isEpb payload i = true
  · rw [if_pos hd] at hsucc ⊢
    refine ⟨_, rfl, ?_, hinc hidx le_rfl, by rw [hsucc]; exact hcnt, by rw [hsucc]; exact ht.kept⟩
    rw [ht.frame, h.phase]
  · rw [if_neg hd] at hsucc ⊢
    have hbuf : t.bufRead (t.payloadOff + t.epbI.toNat) = .ok payload[i] := by
      rw [← h.read hi, hidx, bufRead_congr (s := s) (by rw [ht.frame]) (by rw [ht.frame]), ht.frame]
      rfl
    have hpl : t.payloadLen = payload.length := by rw [h.length, ht.frame]; rfl
    refine ⟨_, exec_epbremove_keep (by omega) hbuf, ?_, hinc hidx le_rfl, ?_, fun a => ?_⟩
    · rw [ht.frame, h.phase]
      rfl
    · rw [hsucc, List.length_append, List.length_singleton]
      exact hinc hcnt hkle
    · rw [hsucc, scrWrite_scr, Memory.read_write, ht.kept, hcnt]
      obtain hlt | rfl | hgt := Nat.lt_trichotomy a (keptUpTo payload i).length
      · rw [if_neg (by omega), List.getElem?_append_left hlt]
      · simp
      · rw [if_neg (by omega), List.getElem?_eq_none (by omega), List.getElem?_eq_none (by simp; omega)]

/-- The rest of the loop from an index, and the line after it. -/
theorem EpbEntry.run (h : EpbEntry s payload) (n : Nat) (ht : EpbAt s payload i t) (hn : i + n = payload.length) :
    ∃ v, EpbAt s payload payload.length v ∧
      Sys2Proof.core.run (n + 1) t = .next { v with scrLen := v.epbK, phase := .parsesps } := by
  induction n generalizing i t with
  | zero =>
    obtain rfl : i = payload.length := hn
    have hhost : t.host = [] := by rw [ht.frame]; exact h.host
    have hphase : t.phase = .epb := by rw [ht.frame]; exact h.phase
    have hend : t.payloadLen ≤ t.epbI.toNat := by
      have hpl : t.payloadLen = payload.length := by rw [h.length, ht.frame]; rfl
      rw [hpl, ht.index]
    refine ⟨t, ht, run_succ 0 ?_⟩
    rw [step_epb hhost hphase, fetchEpb_outside (.inr hend)]
    exact exec_epbremove_end hend
  | succ n ih =>
    obtain ⟨u, hu, hat⟩ := h.step ht (by omega)
    obtain ⟨v, hv, hrun⟩ := ih hat (by omega)
    exact ⟨v, hv, (run_succ (n + 1) hu).trans hrun⟩

/-- The whole of `EPBREMOVE`: the kept bytes stand in `SCR`, `SCR_LEN` is their number, nothing else has changed. -/
theorem EpbEntry.run_all (h : EpbEntry s payload) (hi : s.epbI = 0) (hk : s.epbK = 0) :
    ∃ t, Sys2Proof.core.run (payload.length + 1) s = .next t ∧
      t = { s with scr := t.scr, scrLen := t.scrLen, epbI := t.epbI, epbK := t.epbK, phase := .parsesps } ∧
      t.scrLen.toNat = (keptBytes payload).length ∧ ∀ a, t.scr.read? a = ((keptBytes payload)[a]?).or (s.scr.read? a) := by
  have h0 : EpbAt s payload 0 s := ⟨rfl, by rw [hi]; rfl, by rw [hk]; rfl, fun a => by simp [keptUpTo_zero]⟩
  obtain ⟨v, hv, hrun⟩ := h.run payload.length h0 (Nat.zero_add _)
  exact ⟨_, hrun, by rw [hv.frame], hv.count, hv.kept⟩

end

/-- The premises of the obligations, as `EpbEntry`. -/
theorem epbEntry_of {s : State} {payload : List Byte} (hh : s.host = []) (hp : s.phase = .epb)
    (hb : s.bufBytes (s.nalLen.toNat - 2) (s.nalOff.toNat + 2) = .ok payload) : EpbEntry s payload := ⟨hh, hp, hb⟩

/-- Settles O19: the loop runs index by index with the kept bytes as its invariant. -/
theorem epbremoveRefinesRule : Obligations.EpbremoveRefinesRule := by
  unfold Obligations.EpbremoveRefinesRule
  intro s payload hh hp hi hk hb
  obtain ⟨t, hrun, hframe, hlen, hscr⟩ := (epbEntry_of hh hp hb).run_all hi hk
  refine ⟨t, hrun, hframe, hlen, fun j hj => ?_, fun a ha => ?_⟩
  · rw [hscr, List.getElem?_eq_getElem hj]; rfl
  · rw [hscr, List.getElem?_eq_none ha]; rfl

/-! ## The streaming form (R191) -/

/-- `z` is at least 1, at least 2, just where the last byte, the last two bytes, seen are zero. -/
def ZerosSeen (seen : List Byte) (z : Nat) : Prop :=
  (1 ≤ z ↔ 1 ≤ seen.length ∧ seen[seen.length - 1]? = some 0x00) ∧
    (2 ≤ z ↔ 2 ≤ seen.length ∧ seen[seen.length - 1]? = some 0x00 ∧ seen[seen.length - 2]? = some 0x00)

/-- One byte more, counted. -/
theorem ZerosSeen.snoc {seen : List Byte} {z : Nat} (h : ZerosSeen seen z) (b : Byte) :
    ZerosSeen (seen ++ [b]) (if b = 0x00 then z + 1 else 0) := by
  obtain ⟨h1, -⟩ := h
  have hlast : (seen ++ [b])[(seen ++ [b]).length - 1]? = some b := by simp
  have hprev : 1 ≤ seen.length → (seen ++ [b])[(seen ++ [b]).length - 2]? = seen[seen.length - 1]? := fun hl => by
    rw [List.length_append, List.length_singleton, show seen.length + 1 - 2 = seen.length - 1 by omega,
      List.getElem?_append_left (by omega)]
  by_cases hb : b = 0x00
  · subst hb
    refine ⟨by simp, ?_⟩
    rw [if_pos rfl, hlast, show 2 ≤ z + 1 ↔ 1 ≤ z by omega, h1]
    constructor
    · rintro ⟨hl, hz⟩
      exact ⟨by simp; omega, rfl, by rw [hprev hl, hz]⟩
    · rintro ⟨hl, -, hz⟩
      have hl1 : 1 ≤ seen.length := by simp at hl; omega
      exact ⟨hl1, by rw [← hprev hl1, hz]⟩
  · rw [if_neg hb]
    rw [ZerosSeen, hlast]
    have hne : ¬ some b = some (0x00 : Byte) := fun h => hb (Option.some.inj h)
    exact ⟨⟨nofun, fun h => absurd h.2 hne⟩, ⟨nofun, fun h => absurd h.2.1 hne⟩⟩

/-- Behind the bytes seen, the streaming form keeps what the rule keeps of the whole. -/
theorem streamKept_eq_filterMap (rest seen : List Byte) (z : Nat) (h : ZerosSeen seen z) :
    (List.range' seen.length rest.length).filterMap
      (fun i => if isEpb (seen ++ rest) i then none else (seen ++ rest)[i]?) = streamKept z rest := by
  induction rest generalizing seen z with
  | nil => rfl
  | cons b r ih =>
    have hat : (seen ++ b :: r)[seen.length]? = some b := by simp
    have hdrop : isEpb (seen ++ b :: r) seen.length = true ↔ b = 0x03 ∧ 2 ≤ z := by
      rw [isEpb_iff, hat, h.2]
      constructor
      · rintro ⟨h2, hp2, hp1, h3⟩
        rw [List.getElem?_append_left (by omega)] at hp1 hp2
        exact ⟨Option.some.inj h3, h2, hp1, hp2⟩
      · rintro ⟨rfl, h2, hp1, hp2⟩
        rw [List.getElem?_append_left (by omega), List.getElem?_append_left (by omega)]
        exact ⟨h2, hp2, hp1, rfl⟩
    have hnext := ih (seen ++ [b]) _ (h.snoc b)
    rw [List.append_assoc, List.singleton_append, List.length_append, List.length_singleton] at hnext
    rw [List.length_cons, List.range'_succ, List.filterMap_cons, hnext, hat, streamKept]
    by_cases hd : b = 0x03 ∧ 2 ≤ z
    · rw [if_pos (hdrop.2 hd), if_pos hd, hd.1]
      rfl
    · rw [if_neg (mt hdrop.1 hd), if_neg hd]

/-- Settles O20: the streaming form from no bytes seen. -/
theorem streamingRemovalAgrees : Obligations.StreamingRemovalAgrees := by
  unfold Obligations.StreamingRemovalAgrees
  refine ⟨fun payload => ?_, rfl⟩
  rw [← streamKept_eq_filterMap payload [] 0 (by simp [ZerosSeen]), keptBytes, List.range_eq_range']
  rfl

/-! ## The length (R194) -/

/-- Where no byte is an emulation-prevention byte, all are kept. -/
theorem keptUpTo_of_not_isEpb {payload : List Byte} (h : ∀ i, ¬ isEpb payload i = true) {i : Nat} (hi : i ≤ payload.length) :
    keptUpTo payload i = payload.take i := by
  induction i with
  | zero => rfl
  | succ i ih => rw [keptUpTo_succ hi, if_neg (h i), ih (by omega), List.take_succ_eq_append_getElem]

/-- Settles O21: the loop's result is no longer than the payload, and is the payload when no byte is dropped. -/
theorem removalNeverGrows : Obligations.RemovalNeverGrows := by
  unfold Obligations.RemovalNeverGrows
  intro s payload hh hp hi hk hb
  obtain ⟨t, hrun, hframe, hlen, hscr⟩ := (epbEntry_of hh hp hb).run_all hi hk
  refine ⟨t, hrun, by rw [hframe], hlen.le.trans (keptUpTo_length_le payload _), fun hno => ?_⟩
  have hepb : ∀ i, ¬ isEpb payload i = true := fun i hd => by
    obtain ⟨h2, hp2, hp1, h3⟩ := isEpb_iff.1 hd
    refine hno (i - 2) ⟨hp2, ?_, ?_⟩
    · rwa [show i - 2 + 1 = i - 1 by omega]
    · rwa [show i - 2 + 2 = i by omega]
  have hall : keptBytes payload = payload := by
    rw [keptBytes_eq_keptUpTo, keptUpTo_of_not_isEpb hepb le_rfl, List.take_length]
  refine ⟨by rw [hlen, hall], fun j hj => ?_⟩
  rw [hscr, hall, List.getElem?_eq_getElem hj]
  rfl

end Sys2Proof.Machine
end

section
/-! SUPPORT. The elements of the SPS one by one (43_sps_decoder.md R200 to R231): the sub-layer loop, the commit, a chain of requests
that runs out of bits, and the obligations on them. -/

namespace Sys2Proof.Machine

open Sys2Proof

/-- Settles O22: the entry as it is defined. -/
theorem parsespsEntry : Obligations.ParsespsEntry := by
  unfold Obligations.ParsespsEntry
  exact fun _ => rfl

/-- Settles O28: the last element is one code; its continuation commits and returns to the scan. -/
theorem commitWritesRecord : Obligations.CommitWritesRecord := by
  unfold Obligations.CommitWritesRecord
  refine fun s c h => ⟨_, ?_, scanGoesOn_nalReturn _⟩
  change execSpsBitDepthChroma c s = _
  exact element_room h rfl

/-! ## The sub-layer loop (R211 to R213) -/

/-- The bounded search finds the first sub-layer with data, or that none below `N_SUB` has any. -/
theorem subLayerFrom_spec (s : State) (fuel i : Nat) (hf : s.nSub.toNat ≤ i + fuel) :
    (∃ j e, s.subLayerFrom fuel i = some (j, e) ∧ s.SubLayerNext i j e) ∨
      (s.subLayerFrom fuel i = none ∧ ∀ k, i ≤ k → k < s.nSub.toNat → s.pp.getLsbD k = false ∧ s.lp.getLsbD k = false) := by
  induction fuel generalizing i with
  | zero => exact .inr ⟨rfl, fun k h1 h2 => by omega⟩
  | succ fuel ih =>
    by_cases hi : i < s.nSub.toNat
    · cases hp : s.pp.getLsbD i with
      | true => exact .inl ⟨i, _, by simp [State.subLayerFrom, hi, hp], le_rfl, hi, fun k _ _ => by omega, .inl ⟨hp, rfl⟩⟩
      | false =>
        cases hl : s.lp.getLsbD i with
        | true =>
          exact .inl ⟨i, _, by simp [State.subLayerFrom, hi, hp, hl], le_rfl, hi, fun k _ _ => by omega, .inr ⟨hp, hl, rfl⟩⟩
        | false =>
          have hstep : s.subLayerFrom (fuel + 1) i = s.subLayerFrom fuel (i + 1) := by simp [State.subLayerFrom, hi, hp, hl]
          have hbelow : ∀ {P : Nat → Prop}, P i → (∀ k, i + 1 ≤ k → P k) → ∀ k, i ≤ k → P k := fun {P} h0 h k hk => by
            obtain rfl | hlt := Nat.eq_or_lt_of_le hk
            · exact h0
            · exact h k hlt
          rw [hstep]
          obtain ⟨j, e, hj, h1, h2, h3, h4⟩ | ⟨hn, hnone⟩ := ih (i + 1) (by omega)
          · exact .inl ⟨j, e, hj, by omega, h2, hbelow (fun _ => ⟨hp, hl⟩) h3, h4⟩
          · exact .inr ⟨hn, hbelow (fun _ => ⟨hp, hl⟩) hnone⟩
    · exact .inr ⟨by simp [State.subLayerFrom, hi], fun k h1 h2 => by omega⟩

/-- `gotoSubLayer` goes where `State.AtSubLayer` says. -/
theorem atSubLayer_gotoSubLayer (s : State) (i : Nat) : s.AtSubLayer (s.gotoSubLayer i) i := by
  have hn := s.nSub.isLt
  obtain ⟨j, e, hj, hnext⟩ | ⟨hnone, hall⟩ := subLayerFrom_spec s 8 i (by omega)
  · exact .inl ⟨j, e, hnext, by rw [State.gotoSubLayer, hj]⟩
  · exact .inr ⟨hall, by rw [State.gotoSubLayer, hnone]; rfl⟩

/-- The first flag of a pair, written and passed (R211). -/
def State.firstFlag (s : State) (p : BitVec 1) : State := { s.advance 1 with pp := putFlag s.pp s.subI.toNat p }

/-- Both flags of a pair, written and passed (R211). -/
def State.presentFlags (s : State) (p l : BitVec 1) : State :=
  { s with
    pos := BitVec.ofNat 36 (s.pos.toNat + 2)
    pp := putFlag s.pp s.subI.toNat p
    lp := putFlag s.lp s.subI.toNat l }

theorem firstFlag_remain {s : State} (h : 1 ≤ s.remain) (p : BitVec 1) : (s.firstFlag p).remain = s.remain - 1 :=
  remain_advance h

/-- The second flag after the first. -/
theorem firstFlag_second (s : State) (p l : BitVec 1) :
    { (s.firstFlag p).advance 1 with lp := putFlag s.lp s.subI.toNat l } = s.presentFlags p l := by
  have hpos : BitVec.ofNat 36 ((BitVec.ofNat 36 (s.pos.toNat + 1)).toNat + 1) = BitVec.ofNat 36 (s.pos.toNat + 2) :=
    BitVec.eq_of_toNat_eq (by simp only [BitVec.toNat_ofNat]; omega)
  simp only [State.presentFlags, State.firstFlag, State.advance, hpos]

/-- After the second flag of a pair: the next pair, or past the last one (R211, R212). -/
def State.afterPair (s : State) : State :=
  if s.subI.toNat + 1 < s.nSub.toNat then
    { s with subI := BitVec.ofNat 4 (s.subI.toNat + 1), phase := .sps .subLayerPresentFlags }
  else s.afterPresentFlags

theorem afterPair_next {s : State} (h : s.subI.toNat + 1 < s.nSub.toNat) :
    s.afterPair = { s with subI := BitVec.ofNat 4 (s.subI.toNat + 1), phase := .sps .subLayerPresentFlags } :=
  if_pos h

theorem afterPair_last {s : State} (h : s.nSub.toNat ≤ s.subI.toNat + 1) : s.afterPair = s.afterPresentFlags :=
  if_neg (Nat.not_lt.2 h)

theorem afterPresentFlags_hevc {s : State} (h : s.cfg.ptlPad = .hevc) :
    s.afterPresentFlags = { s with subI := BitVec.ofNat 4 s.nSub.toNat, phase := .sps .subLayerPadding } := by
  rw [State.afterPresentFlags, h]

theorem afterPresentFlags_none {s : State} (h : s.cfg.ptlPad = .none) : s.afterPresentFlags = s.gotoSubLayer 0 := by
  rw [State.afterPresentFlags, h]

/-- The element is the first flag, then the second and what follows the pair. -/
theorem exec_presentFlags (s : State) (p l : BitVec 1) :
    exec (.spsSubLayerPresentFlags p l) s = request 1 s fun _ =>
      element 1 (s.firstFlag p) fun t => { t with lp := putFlag t.lp t.subI.toNat l }.afterPair := by
  change execSpsSubLayerPresentFlags p l s = _
  unfold execSpsSubLayerPresentFlags request
  split <;> rfl

theorem exec_presentFlags_room {s : State} (h : 2 ≤ s.remain) (p l : BitVec 1) :
    exec (.spsSubLayerPresentFlags p l) s = .next (s.presentFlags p l).afterPair := by
  rw [exec_presentFlags, request_room (by omega)]
  exact element_room (by rw [firstFlag_remain (by omega)]; omega) (by rw [← firstFlag_second]; rfl)

/-- Settles O25: each element with room for its bits, and `atSubLayer_gotoSubLayer` where the loop of R213 goes on. -/
theorem subLayerElements : Obligations.SubLayerElements := by
  unfold Obligations.SubLayerElements
  refine fun s => ⟨fun h p l => ⟨s.presentFlags p l, _, exec_presentFlags_room h p l, rfl, fun k hk => getLsbD_putFlag _ _ k p hk,
    fun k hk => getLsbD_putFlag _ _ k l hk, afterPair_next (s := s.presentFlags p l), fun hle hpad => ?_, fun hle hpad => ?_⟩,
    fun h v => ⟨fun hi => ?_, fun hi => ⟨_, ?_, atSubLayer_gotoSubLayer _ _⟩⟩,
    fun h v => ⟨fun hl => ?_, fun hl => ⟨_, ?_, atSubLayer_gotoSubLayer _ _⟩⟩,
    fun h v => ⟨_, ?_, atSubLayer_gotoSubLayer _ _⟩⟩
  · exact (afterPair_last (s := s.presentFlags p l) hle).trans (afterPresentFlags_hevc (s := s.presentFlags p l) hpad)
  · have hgo : (s.presentFlags p l).afterPair = (s.presentFlags p l).gotoSubLayer 0 :=
      (afterPair_last (s := s.presentFlags p l) hle).trans (afterPresentFlags_none (s := s.presentFlags p l) hpad)
    rw [hgo]
    exact atSubLayer_gotoSubLayer _ _
  · change execSpsSubLayerPadding v s = _
    exact element_room h (if_pos hi)
  · change execSpsSubLayerPadding v s = _
    exact element_room h (if_neg (Nat.not_lt.2 hi))
  · change execSpsSubLayerProfile v s = _
    exact element_room h (if_pos hl)
  · change execSpsSubLayerProfile v s = _
    have hl' : ¬ s.lp.getLsbD s.subI.toNat = true := by simp [hl]
    exact element_room h (if_neg hl')
  · change execSpsSubLayerLevelIdc v s = _
    exact element_room h rfl

/-! ## A chain of requests -/

/-- Requests one after the other, and then `k`. -/
def requestAll : List Nat → State → (State → Out) → Out
  | [], s, k => k s
  | w :: r, s, k => request w s fun t => requestAll r t k

/-- No bits consumed. -/
theorem advance_zero (s : State) : s.advance 0 = s := by
  simp [State.advance]

/-- Where a chain of requests wants more bits than are left, those that fit have advanced the cursor, and the first that does not
aborts (R230, 60_exceptions.md R249). -/
theorem requestAll_short (ws : List Nat) {s : State} (k : State → Out) (h : s.remain < ws.sum) :
    ∃ done w later, ws = done ++ w :: later ∧ done.sum ≤ s.remain ∧ s.remain < done.sum + w ∧
      requestAll ws s k = .next ((s.advance done.sum).raiseSps .bitstreamExhausted) := by
  induction ws generalizing s with
  | nil => simp at h
  | cons w r ih =>
    rcases Nat.lt_or_ge s.remain w with hw | hw
    · exact ⟨[], w, r, rfl, Nat.zero_le _, by simpa using hw, by rw [requestAll, request_short hw, List.sum_nil, advance_zero]⟩
    · rw [List.sum_cons] at h
      have hrem := remain_advance hw
      obtain ⟨done, w', later, rfl, hd, hlt, hexec⟩ := ih (s := s.advance w) (by omega)
      refine ⟨w :: done, w', later, rfl, by simp only [List.sum_cons]; omega, by simp only [List.sum_cons]; omega, ?_⟩
      rw [requestAll, request_room hw, hexec, advance_advance (by omega), List.sum_cons]

/-- An SPS decode that is aborted at `v`. -/
theorem abortedTo_raiseSps (v : State) (e : Err) : v.AbortedTo (v.raiseSps e) e.bit e.code :=
  ⟨_, recorded_record v e v.nalOff, scanGoesOn_nalReturn _⟩

/-! ## The three elements of several requests (R208, R211, R226) -/

theorem eq_constraintBlock {i : Instr} (h : i.fmt = .sps .generalConstraintBlock) : ∃ v, i = .spsGeneralConstraintBlock v := by
  cases i <;> simp only [Instr.fmt, reduceCtorEq, Fmt.sps.injEq] at h
  exact ⟨_, rfl⟩

theorem eq_presentFlags {i : Instr} (h : i.fmt = .sps .subLayerPresentFlags) : ∃ p l, i = .spsSubLayerPresentFlags p l := by
  cases i <;> simp only [Instr.fmt, reduceCtorEq, Fmt.sps.injEq] at h
  exact ⟨_, _, rfl⟩

theorem eq_windowOffsets {i : Instr} (h : i.fmt = .sps .conformanceWindowOffsets) :
    ∃ c1 c2 c3 c4, i = .spsConformanceWindowOffsets c1 c2 c3 c4 := by
  cases i <;> simp only [Instr.fmt, reduceCtorEq, Fmt.sps.injEq] at h
  exact ⟨_, _, _, _, rfl⟩

/-- Every other element is one request of all its bits. -/
theorem requests_single {i : Instr} (h1 : i.fmt ≠ .sps .generalConstraintBlock) (h2 : i.fmt ≠ .sps .subLayerPresentFlags)
    (h3 : i.fmt ≠ .sps .conformanceWindowOffsets) (c : Cfg) : requests c i = [(encode c i).length] := by
  cases i
  case spsGeneralConstraintBlock => exact absurd rfl h1
  case spsSubLayerPresentFlags => exact absurd rfl h2
  case spsConformanceWindowOffsets => exact absurd rfl h3
  all_goals rfl

/-- The requests of an element are all its bits. -/
theorem requests_sum (c : Cfg) (i : Instr) : (requests c i).sum = (encode c i).length := by
  cases i
  case spsConformanceWindowOffsets => simp only [requests, encode, List.sum_cons, List.sum_nil, List.length_append]; omega
  case spsGeneralConstraintBlock | spsSubLayerPresentFlags => simp [requests, encode]
  all_goals exact Nat.add_zero _

/-- But for the pair of flags, which writes between its two, an element is the chain of its requests. -/
theorem exec_eq_requestAll {i : Instr} {e : SpsElem} (hf : i.fmt = .sps e) (h2 : e ≠ .subLayerPresentFlags) (s : State) :
    ∃ k, exec i s = requestAll (requests s.cfg i) s k := by
  by_cases h1 : e = .generalConstraintBlock
  · subst h1
    obtain ⟨v, rfl⟩ := eq_constraintBlock hf
    exact ⟨_, rfl⟩
  by_cases h3 : e = .conformanceWindowOffsets
  · subst h3
    obtain ⟨c1, c2, c3, c4, rfl⟩ := eq_windowOffsets hf
    refine ⟨fun t => .next (t.goto (.sps .bitDepthLuma)), ?_⟩
    simp only [requests, UeCode.bits_length]
    rfl
  obtain ⟨k, hk⟩ := exec_element hf h1 h2 h3 s
  have hne : ∀ {e'}, e ≠ e' → i.fmt ≠ .sps e' := fun hne h => hne (Fmt.sps.inj (hf.symm.trans h))
  refine ⟨fun t => .next (k t), ?_⟩
  rw [hk, requests_single (hne h1) (hne h2) (hne h3)]
  rfl

/-- Settles O29: the chain of the element's requests runs out of bits; the pair of flags does so before its first or its
second. -/
theorem shortElementAborts : Obligations.ShortElementAborts := by
  unfold Obligations.ShortElementAborts
  intro s i e hf hshort
  by_cases h2 : e = .subLayerPresentFlags
  · subst h2
    obtain ⟨p, l, rfl⟩ := eq_presentFlags hf
    have h2 : s.remain < 2 := hshort
    rw [exec_presentFlags]
    rcases Nat.eq_zero_or_pos s.remain with h0 | h1
    · exact ⟨[], 1, [1], s, _, rfl, Nat.zero_le _, by simp [h0], by simp, fun _ => rfl, fun p' l' hne => absurd rfl hne,
        abortedTo_raiseSps s .bitstreamExhausted, request_short (by omega) _⟩
    · have hrem := firstFlag_remain h1 p
      refine ⟨[1], 1, [], s.firstFlag p, _, rfl, h1, h2, rfl, ?_, ?_,
        abortedTo_raiseSps (s.firstFlag p) .bitstreamExhausted, ?_⟩
      · rintro (h | h)
        · exact absurd h (by simp)
        · exact absurd rfl h
      · intro p' l' _ heq k hk
        cases heq
        exact getLsbD_putFlag _ _ k p hk
      · rw [request_room h1]
        exact request_short (by omega) _
  · obtain ⟨k, hk⟩ := exec_eq_requestAll hf h2 s
    obtain ⟨done, w, later, hreq, hd, hlt, hexec⟩ := requestAll_short _ k (by rw [requests_sum]; exact hshort)
    refine ⟨done, w, later, s.advance done.sum, _, hreq, hd, hlt, rfl, fun _ => rfl, fun p l _ hi => ?_,
      abortedTo_raiseSps _ .bitstreamExhausted, hk.trans hexec⟩
    subst hi
    exact absurd (Fmt.sps.inj hf).symm h2

end Sys2Proof.Machine
end

section
/-! SUPPORT. The element at the cursor (43_sps_decoder.md R200, R230, 30_encoding.md R108): a complete one is run, the start of none
aborts the decode; and the obligations on the step at an element. -/

namespace Sys2Proof.Machine

open Sys2Proof

/-! ## A complete element -/

/-- A well-formed element is no wider than the bits its place looks at. -/
theorem encode_length_le_maxBits {i : Instr} {e : SpsElem} {c : Cfg} (hf : i.fmt = .sps e) (hw : i.wf c = true) :
    (encode c i).length ≤ maxBits e := by
  cases i <;> simp only [Instr.fmt, reduceCtorEq, Fmt.sps.injEq] at hf <;> subst hf
  case spsConformanceWindowOffsets => exact Laws.EncodedWidth.spsConformanceWindowOffsets _ _ _ _ c hw
  case spsSeqParameterSetId | spsChromaFormatIdc | spsPicWidth | spsPicHeight | spsBitDepthLuma | spsBitDepthChroma =>
    exact UeCode.bits_length_le _ hw
  case spsSubLayerPresentFlags p l => exact Laws.EncodedWidth.spsSubLayerPresentFlags p l c hw
  all_goals exact (bitsOfBv_length _).le

/-- A complete element at the cursor is what the step finds. -/
theorem codeAt_complete {s : State} {e : SpsElem} {i : Instr} (hf : i.fmt = .sps e) (hw : i.wf s.cfg = true)
    (hat : s.CursorAt (encode s.cfg i)) : s.codeAt e = .found i := by
  obtain ⟨r, hr⟩ := window_known hat (encode_length_le_maxBits hf hw)
  simp only [State.codeAt, State.elementBits, hr, decode, decodeSps_encode s.cfg hf hw r]

/-- Settles O45: the element that stands at the cursor is found there, and run. -/
theorem stepRunsElement : Obligations.StepRunsElement := by
  unfold Obligations.StepRunsElement
  intro s e i hh hp hf hw hat
  rw [step_sps hh hp, fetchElement, codeAt_complete hf hw hat, runFetched]

/-! ## A code that is cut short -/

/-- Reading a code and going on is taking it first (40_bitreader.md R133). -/
theorem withUe_eq_takeUe {α : Type} (bs : Bits) (k : UeCode → Bits → Except Reject α) :
    withUe bs k = match takeUe bs with
      | .ok (c, r) => k c r
      | .error e => .error e := by
  rw [takeUe, withUe, withUe]
  cases ueScan 0 bs with
  | error e => rfl
  | ok p =>
    rcases Nat.lt_or_ge p.2.length p.1 with hl | hl
    · simp only [withU, if_pos hl]
    · simp only [withU, if_neg (Nat.not_lt.2 hl)]

/-- A code that stops on an error stops whatever is to follow it. -/
theorem withUe_of_takeUe_error {α : Type} {bs : Bits} {e : Reject} (h : takeUe bs = .error e)
    (k : UeCode → Bits → Except Reject α) : withUe bs k = .error e := by
  rw [withUe_eq_takeUe, h]

/-- The format `UE` stops where a code does. -/
theorem takeUe_error_of_decode {c : Cfg} {bs : Bits} {e : Reject} (h : decode c .ue bs = .error e) : takeUe bs = .error e := by
  rw [decode, withUe_eq_takeUe] at h
  cases ht : takeUe bs with
  | error e' => rw [ht] at h; cases h; rfl
  | ok p => rw [ht] at h; cases h

/-- What a scan of the zeros that stops has seen: the end before the 33rd zero, or the 33rd. -/
theorem ueScan_error {bs : Bits} {lz : Nat} {e : Reject} (h : ueScan lz bs = .error e) (hl : lz ≤ 32) :
    (e = .exhausted 1 ∧ lz + bs.length ≤ 32) ∨ (e = .malformedCode ∧ ∃ r, bs = List.replicate (33 - lz) false ++ r) := by
  induction bs generalizing lz with
  | nil => cases h; exact .inl ⟨rfl, hl⟩
  | cons b r ih =>
    cases b with
    | true => cases h
    | false =>
      rw [ueScan] at h
      split at h
      · rename_i hz
        rw [Config.ueMaxLz] at hz
        cases h
        obtain rfl : lz = 32 := by omega
        exact .inr ⟨rfl, r, rfl⟩
      · rename_i hz
        rw [Config.ueMaxLz] at hz
        obtain ⟨he, hlen⟩ | ⟨he, t, ht⟩ := ih h (by omega)
        · exact .inl ⟨he, by rw [List.length_cons]; omega⟩
        · refine .inr ⟨he, t, ?_⟩
          rw [ht, show 33 - lz = (33 - (lz + 1)) + 1 by omega, List.replicate_succ, List.cons_append]

/-- A code that stops has met the end within 64 bits, or the 33rd zero (R102, R108). -/
theorem takeUe_error {bs : Bits} {e : Reject} (h : takeUe bs = .error e) :
    (∃ m, e = .exhausted m ∧ bs.length < 65) ∨ (e = .malformedCode ∧ ∃ r, bs = List.replicate 33 false ++ r) := by
  rcases ueScan_cases 0 bs with hs | hs | ⟨z, r, hs, hbs, hz⟩
  · rw [takeUe, withUe, hs] at h
    obtain ⟨he, hl⟩ | ⟨he, -⟩ := ueScan_error hs (Nat.zero_le _)
    · cases h; exact .inl ⟨1, rfl, by omega⟩
    · cases he
  · rw [takeUe, withUe, hs] at h
    obtain ⟨he, -⟩ | ⟨-, hr⟩ := ueScan_error hs (Nat.zero_le _)
    · cases he
    · cases h; exact .inr ⟨rfl, hr⟩
  · have hz32 : z ≤ 32 := by simpa [Config.ueMaxLz] using hz
    simp only [takeUe, withUe, hs, Nat.zero_add] at h
    rcases withU_cases z r (fun s rest => (.ok ({ k := BitVec.ofNat 6 z, s := BitVec.ofNat 32 s }, rest) :
      Except Reject (UeCode × Bits))) with ⟨hl, hu⟩ | ⟨hl, hu⟩ <;> rw [hu] at h
    · cases h
      refine .inl ⟨_, rfl, ?_⟩
      rw [hbs, List.length_append, List.length_replicate, List.length_cons]
      omega
    · cases h

/-- Its first 65 bits show the same error. -/
theorem takeUe_take {bs : Bits} {e : Reject} (h : takeUe bs = .error e) {n : Nat} (hn : 65 ≤ n) :
    takeUe (bs.take n) = .error e := by
  obtain ⟨m, -, hl⟩ | ⟨rfl, r, rfl⟩ := takeUe_error h
  · rw [List.take_of_length_le (by omega), h]
  · rw [List.take_append, List.take_of_length_le (by rw [List.length_replicate]; omega)]
    exact takeUe_malformed _

/-! ## The bits left are the start of no element -/

section
variable {s : State} {bs : Bits} (hat : s.CursorAt bs) (hrem : s.remain = bs.length)
include hat hrem

/-- All the bits left are known: every window shows its part of them. -/
theorem window_all (n : Nat) : s.window n = (bs.take n, none) := by
  have hlen : (bs.take n).length = min n s.remain := by rw [List.length_take, hrem]
  have hpart : s.CursorAt (bs.take n) := by
    refine ⟨by omega, fun k hk => ?_⟩
    rw [List.getElem_take]
    exact hat.2 k (by rw [List.length_take] at hk; omega)
  have hwin : s.window n = s.window (bs.take n).length := by
    rw [State.window, State.window, hlen, Nat.min_eq_left (Nat.min_le_right n s.remain)]
  rw [hwin, window_exact hpart]

variable (hh : s.host = []) {e : SpsElem} (hp : s.phase = .sps e)
include hh hp

/-- Too few of them abort with `BitstreamExhausted`, past the requests that fit. -/
theorem step_abort_exhausted {m : Nat} (h : decodeSps e (bs.take (maxBits e)) = .error (.exhausted m)) :
    step s = .next ((s.passed e (bs.take (maxBits e))).raiseSps .bitstreamExhausted) := by
  have hwin := window_all hat hrem (maxBits e)
  have hcode : s.codeAt e = .raises .bitstreamExhausted := by
    simp only [State.codeAt, State.elementBits, hwin, decode, h]
  rw [step_sps hh hp, fetchElement, hcode, State.elementBits, hwin, runFetched]

/-- A 33rd zero aborts with `MalformedCode`, past the requests before its own. -/
theorem step_abort_malformed (h : decodeSps e (bs.take (maxBits e)) = .error .malformedCode) :
    step s = .next ((s.passed e (bs.take (maxBits e))).raiseSps .malformedCode) := by
  have hwin := window_all hat hrem (maxBits e)
  have hcode : s.codeAt e = .raises .malformedCode := by
    simp only [State.codeAt, State.elementBits, hwin, decode, h]
  rw [step_sps hh hp, fetchElement, hcode, State.elementBits, hwin, runFetched]

end

/-- An element of one fixed field that stops shows it within its own bits. -/
theorem withU_take_error {n : Nat} {bs : Bits} {mk : Nat → Instr} {e : Reject}
    (h : (withU n bs fun v r => accept (mk v) r) = .error e) : (withU n (bs.take n) fun v r => accept (mk v) r) = .error e := by
  rcases Nat.lt_or_ge bs.length n with hl | hl
  · rwa [List.take_of_length_le hl.le]
  · rw [withU, if_neg (Nat.not_lt.2 hl)] at h
    cases h

/-- And so does an element of one code. -/
theorem withUe_take_error {bs : Bits} {mk : UeCode → Instr} {e : Reject}
    (h : (withUe bs fun c r => accept (mk c) r) = .error e) : (withUe (bs.take 65) fun c r => accept (mk c) r) = .error e := by
  rw [withUe_eq_takeUe] at h
  cases ht : takeUe bs with
  | error e' =>
    rw [ht] at h
    cases h
    exact withUe_of_takeUe_error (takeUe_take ht le_rfl) _
  | ok p => rw [ht] at h; cases h

/-- The bits its place looks at show why an element of one request stops. -/
theorem decodeSps_take_error {e : SpsElem} (h1 : e ≠ .generalConstraintBlock) (h2 : e ≠ .subLayerPresentFlags)
    (h3 : e ≠ .conformanceWindowOffsets) {bs : Bits} {r : Reject} (h : decodeSps e bs = .error r) :
    decodeSps e (bs.take (maxBits e)) = .error r := by
  cases e
  case generalConstraintBlock => exact absurd rfl h1
  case subLayerPresentFlags => exact absurd rfl h2
  case conformanceWindowOffsets => exact absurd rfl h3
  case seqParameterSetId | chromaFormatIdc | picWidth | picHeight | bitDepthLuma | bitDepthChroma =>
    exact withUe_take_error h
  all_goals
    rw [decodeSps] at h ⊢
    exact withU_take_error h

/-- Such an element has no request before the one that stops. -/
theorem passed_single {e : SpsElem} (h1 : e ≠ .generalConstraintBlock) (h2 : e ≠ .subLayerPresentFlags)
    (h3 : e ≠ .conformanceWindowOffsets) (s : State) (bs : Bits) : s.passed e bs = s := by
  cases e
  case generalConstraintBlock => exact absurd rfl h1
  case subLayerPresentFlags => exact absurd rfl h2
  case conformanceWindowOffsets => exact absurd rfl h3
  all_goals rfl

/-- A block of fewer than 44 bits is short (R208). -/
theorem decodeSps_block_short {bs : Bits} (h : bs.length < 44) : ∃ m, decodeSps .generalConstraintBlock bs = .error (.exhausted m) := by
  rcases withU_cases 32 bs (fun hi r => withU 12 r fun lo r' =>
      accept (.spsGeneralConstraintBlock (BitVec.ofNat 44 (hi * 2 ^ 12 + lo))) r') with ⟨-, hu⟩ | ⟨hl, hu⟩
  · exact ⟨_, hu⟩
  · exact ⟨_, hu.trans (if_pos (by rw [List.length_drop]; omega))⟩

/-- Past the first 32 bits of a short block, if they are there. -/
theorem passed_block (s : State) (bs : Bits) : s.passed .generalConstraintBlock bs =
    { s with pos := BitVec.ofNat 36 (s.pos.toNat + if bs.length < 32 then 0 else 32) } := by
  rw [State.passed]
  split
  · exact (advance_zero s).symm
  · rfl

/-- The window offsets stop where their first incomplete code does (R226). -/
theorem decodeSps_offsets_error {codes : List UeCode} {rest : Bits} {e : Reject} (hn : codes.length < 4)
    (hw : ∀ c ∈ codes, c.wf = true) (h : takeUe rest = .error e) :
    decodeSps .conformanceWindowOffsets ((codes.map UeCode.bits).flatten ++ rest) = .error e := by
  have stop := fun (k : UeCode → Bits → Except Reject (Instr × Bits)) => withUe_of_takeUe_error h k
  match codes, hn with
  | [], _ => simp [decodeSps, stop]
  | [c1], _ => simp [decodeSps, stop, hw c1]
  | [c1, c2], _ => simp [decodeSps, stop, hw c1, hw c2]
  | [c1, c2, c3], _ => simp [decodeSps, stop, hw c1, hw c2, hw c3]

/-- Codes in a row have at most 65 bits each. -/
theorem flatten_bits_length_le {codes : List UeCode} (hw : ∀ c ∈ codes, c.wf = true) :
    ((codes.map UeCode.bits).flatten).length ≤ 65 * codes.length := by
  induction codes with
  | nil => exact Nat.zero_le _
  | cons c cs ih =>
    have hc := c.bits_length_le (hw c (by simp))
    have hcs := ih fun d hd => hw d (by simp [hd])
    rw [List.map_cons, List.flatten_cons, List.length_append, List.length_cons]
    omega

/-- The step at window offsets that stop: past the codes that are complete, with the error of the first that is not. -/
theorem offsets_window {codes : List UeCode} {rest : Bits} {e : Reject} (hn : codes.length < 4) (hw : ∀ c ∈ codes, c.wf = true)
    (h : takeUe rest = .error e) (s : State) :
    decodeSps .conformanceWindowOffsets (((codes.map UeCode.bits).flatten ++ rest).take 260) = .error e ∧
      s.passed .conformanceWindowOffsets (((codes.map UeCode.bits).flatten ++ rest).take 260) =
        s.advance (codes.map UeCode.bits).flatten.length := by
  have hlen := flatten_bits_length_le hw
  have hrest := takeUe_take h (n := 260 - (codes.map UeCode.bits).flatten.length) (by omega)
  rw [List.take_append, List.take_of_length_le (by omega)]
  refine ⟨decodeSps_offsets_error hn hw hrest, ?_⟩
  rw [State.passed, completeCodes_codes codes _ 3 (by omega) hw fun c r hr => by rw [hrest] at hr; cases hr]

/-- Settles O46: the bits left are all the decoder is given; what it stops on is the error, past the requests that fit. -/
theorem stepAbortsElement : Obligations.StepAbortsElement := by
  unfold Obligations.StepAbortsElement
  intro s e bs hh hp hat hrem
  have exhausted := fun m => step_abort_exhausted hat hrem hh hp (m := m)
  have malformed := step_abort_malformed hat hrem hh hp
  refine ⟨fun h1 h2 h3 => ⟨fun m hd => ⟨_, ?_, exhausted m (decodeSps_take_error h1 h2 h3 hd)⟩,
    fun hd => ⟨_, ?_, malformed (decodeSps_take_error h1 h2 h3 hd)⟩⟩, ?_, ?_, ?_⟩
  · rw [passed_single h1 h2 h3]
    exact abortedTo_raiseSps s _
  · rw [passed_single h1 h2 h3]
    exact abortedTo_raiseSps s _
  · rintro rfl hl
    obtain ⟨m, hd⟩ := decodeSps_block_short hl
    rw [← List.take_of_length_le (i := maxBits .generalConstraintBlock) (l := bs) hl.le] at hd
    refine ⟨_, ?_, exhausted m hd⟩
    rw [List.take_of_length_le (i := maxBits .generalConstraintBlock) (l := bs) hl.le, passed_block]
    exact abortedTo_raiseSps _ _
  · rintro rfl
    refine ⟨?_, ?_⟩
    · rintro rfl
      exact ⟨_, abortedTo_raiseSps s _, exhausted 1 rfl⟩
    · rintro p rfl
      refine ⟨_, _, rfl, fun k hk => ?_, abortedTo_raiseSps (s.firstFlag (BitVec.ofBool p)) _, exhausted 1 rfl⟩
      rw [State.firstFlag, getLsbD_putFlag _ _ _ _ hk]
      cases p <;> rfl
  · rintro rfl codes rest hn hw rfl
    refine ⟨fun m hd => ?_, fun hd => ?_⟩
    · obtain ⟨hdec, hpass⟩ := offsets_window hn hw (takeUe_error_of_decode hd) s
      refine ⟨_, ?_, exhausted m hdec⟩
      rw [maxBits, hpass]
      exact abortedTo_raiseSps _ _
    · obtain ⟨hdec, hpass⟩ := offsets_window hn hw (takeUe_error_of_decode hd) s
      refine ⟨_, ?_, malformed hdec⟩
      rw [maxBits, hpass]
      exact abortedTo_raiseSps _ _

end Sys2Proof.Machine
end

section
/-! SUPPORT. What a step at an element of the SPS can do, said once (43_sps_decoder.md R200 to R231): it aborts the decode, moves on
to another element, or commits. -/

namespace Sys2Proof.Machine

open Sys2Proof

/-- `t` is `s` but for the cursor, the registers the elements stage their values in, and the place (10_state.md R23). -/
abbrev State.SpsFrame (s t : State) : Prop :=
  t = { s with
    pos := t.pos, nSub := t.nSub, pp := t.pp, lp := t.lp, c44 := t.c44, tProfile := t.tProfile, tRext := t.tRext
    tLevel := t.tLevel, tChroma := t.tChroma, tDepth := t.tDepth, subI := t.subI, phase := t.phase }

/-- The index of the sub-layer loops at an element (R211 to R213): within `N_SUB`, in the padding within 7. -/
def State.SubIndexOk (s : State) (e : SpsElem) : Prop :=
  match e with
  | .subLayerPresentFlags | .subLayerProfile | .subLayerLevelIdc => s.subI.toNat < s.nSub.toNat
  | .subLayerPadding => 1 ≤ s.subI.toNat ∧ s.subI.toNat ≤ 7
  | _ => True

/-- From `e` in `s` the decode is at `e'` in `t`: the index stays in bounds, a staged depth is legal, and fewer elements are left. -/
structure ElementNext (s t : State) (e e' : SpsElem) : Prop where
  index : s.SubIndexOk e → t.SubIndexOk e'
  depth : e' = .bitDepthChroma → 8 ≤ t.tDepth.toNat ∧ t.tDepth.toNat ≤ 16
  steps : s.SubIndexOk e → t.elementSteps e' < s.elementSteps e

/-- What a step at the element `e` can make of `s`. -/
inductive ElementStep (s : State) (e : SpsElem) : State → Prop where
  | aborted (v : State) (err : Err) (hv : v = { s with pos := v.pos, pp := v.pp })
      (hp : s.pos.toNat ≤ s.total.toNat → v.pos.toNat ≤ s.total.toNat) : ElementStep s e (v.raiseSps err)
  | moved (t : State) (e' : SpsElem) (hf : s.SpsFrame t) (ht : t.phase = .sps e')
      (hp : s.pos.toNat ≤ s.total.toNat → t.pos.toNat ≤ s.total.toNat) (hn : ElementNext s t e e') : ElementStep s e t
  | committed (p : BitVec 36) (he : e = .bitDepthChroma) (hp : s.pos.toNat ≤ s.total.toNat → p.toNat ≤ s.total.toNat) :
      ElementStep s e { State.commit { s with pos := p } with spsOk := s.spsOk + 1 }.nalReturn

/-- Bits that are left can be passed. -/
theorem advance_pos_le {s : State} {n : Nat} (h : n ≤ s.remain) (hp : s.pos.toNat ≤ s.total.toNat) :
    (s.advance n).pos.toNat ≤ s.total.toNat := by
  have ht := s.total.isLt
  rw [State.remain] at h
  rw [advance_pos, BitVec.toNat_ofNat, Nat.mod_eq_of_lt (by omega)]
  omega

section
variable {s t : State} {e e' : SpsElem} {n : Nat} {k : State → State}

/-- An element of one request aborts, or goes on past its bits. -/
theorem elementStep_of_element (h : element n s k = .next t) (hk : n ≤ s.remain → ElementStep s e (k (s.advance n))) :
    ElementStep s e t := by
  rcases Nat.lt_or_ge s.remain n with hr | hr
  · rw [element, request_short hr] at h
    cases h
    exact .aborted s _ rfl id
  · rw [element, request_room hr] at h
    cases h
    exact hk hr

/-- It goes on to a fixed element, one nearer to the end. -/
theorem elementStep_onward (h : element n s k = .next t) (hf : s.SpsFrame (k (s.advance n)))
    (hp : (k (s.advance n)).pos = (s.advance n).pos) (ht : (k (s.advance n)).phase = .sps e')
    (hi : (k (s.advance n)).SubIndexOk e') (hd : e' = .bitDepthChroma → 8 ≤ (k (s.advance n)).tDepth.toNat ∧
      (k (s.advance n)).tDepth.toNat ≤ 16) (hlt : (k (s.advance n)).elementSteps e' < s.elementSteps e) : ElementStep s e t :=
  elementStep_of_element h fun hr =>
    .moved _ e' hf ht (fun h => by rw [hp]; exact advance_pos_le hr h) ⟨fun _ => hi, hd, fun _ => hlt⟩

/-- The loop of R213 goes on at a sub-layer from `i` on, or past it. -/
theorem elementStep_gotoSubLayer {u : State} {i : Nat} (hf : s.SpsFrame u)
    (hp : s.pos.toNat ≤ s.total.toNat → u.pos.toNat ≤ s.total.toNat)
    (hs : s.SubIndexOk e → 23 - 2 * i < s.elementSteps e ∧ 9 < s.elementSteps e) : ElementStep s e (u.gotoSubLayer i) := by
  obtain ⟨j, e', ⟨hij, hj, -, he'⟩, ht⟩ | ⟨-, ht⟩ := atSubLayer_gotoSubLayer u i <;> rw [ht]
  · have hn := u.nSub.isLt
    have hsub : (BitVec.ofNat 4 j).toNat = j := by rw [BitVec.toNat_ofNat, Nat.mod_eq_of_lt (by omega)]
    refine .moved _ e' (by rw [hf]) rfl hp ⟨fun _ => ?_, ?_, fun h => ?_⟩
    · obtain ⟨-, rfl⟩ | ⟨-, -, rfl⟩ := he' <;> exact hsub.trans_lt hj
    · obtain ⟨-, rfl⟩ | ⟨-, -, rfl⟩ := he' <;> exact nofun
    · have hlt := hs h
      obtain ⟨-, rfl⟩ | ⟨-, -, rfl⟩ := he' <;> simp only [State.elementSteps, hsub] at hlt ⊢ <;> omega
  · exact .moved _ .seqParameterSetId (by rw [hf]) rfl hp ⟨fun _ => trivial, nofun, fun h => (hs h).2⟩

end

/-! ## Every element -/

section
variable {s t : State}

/-- The last two bits of a pair of flags lead on to the next pair, the padding or the data of R213. -/
theorem elementStep_presentFlags {p l : BitVec 1} (h : exec (.spsSubLayerPresentFlags p l) s = .next t) :
    ElementStep s .subLayerPresentFlags t := by
  have hn := s.nSub.isLt
  rw [exec_presentFlags] at h
  rcases Nat.lt_or_ge s.remain 2 with hr | hr
  · rcases Nat.eq_zero_or_pos s.remain with h0 | h1
    · rw [request_short (by omega)] at h
      cases h
      exact .aborted s _ rfl id
    · rw [request_room h1, element, request_short (by rw [firstFlag_remain h1]; omega)] at h
      cases h
      exact .aborted (s.firstFlag p) _ rfl (advance_pos_le h1)
  · rw [← exec_presentFlags, exec_presentFlags_room hr] at h
    cases h
    have hp : s.pos.toNat ≤ s.total.toNat → (s.presentFlags p l).pos.toNat ≤ s.total.toNat := advance_pos_le hr
    rcases Nat.lt_or_ge (s.subI.toNat + 1) s.nSub.toNat with hlt | hge
    · have hi : (BitVec.ofNat 4 (s.subI.toNat + 1)).toNat = s.subI.toNat + 1 := by
        rw [BitVec.toNat_ofNat, Nat.mod_eq_of_lt (by omega)]
      rw [afterPair_next (s := s.presentFlags p l) hlt]
      refine .moved _ .subLayerPresentFlags rfl rfl hp ⟨fun _ => hi.trans_lt hlt, nofun, fun _ => ?_⟩
      change 37 - (BitVec.ofNat 4 (s.subI.toNat + 1)).toNat < 37 - s.subI.toNat
      omega
    · rw [afterPair_last (s := s.presentFlags p l) hge]
      cases hpad : s.cfg.ptlPad with
      | hevc =>
        rw [afterPresentFlags_hevc (s := s.presentFlags p l) hpad]
        have hi : (BitVec.ofNat 4 s.nSub.toNat).toNat = s.nSub.toNat := by
          rw [BitVec.toNat_ofNat, Nat.mod_eq_of_lt (by omega)]
        refine .moved _ .subLayerPadding rfl rfl hp ⟨fun hs => ?_, nofun, fun hs => ?_⟩ <;>
          have hs : s.subI.toNat < s.nSub.toNat := hs
        · change 1 ≤ (BitVec.ofNat 4 s.nSub.toNat).toNat ∧ (BitVec.ofNat 4 s.nSub.toNat).toNat ≤ 7
          omega
        · change 31 - (BitVec.ofNat 4 s.nSub.toNat).toNat < 37 - s.subI.toNat
          omega
      | none =>
        rw [afterPresentFlags_none (s := s.presentFlags p l) hpad]
        refine elementStep_gotoSubLayer rfl hp fun hs => ?_
        have hs : s.subI.toNat < s.nSub.toNat := hs
        simp only [State.elementSteps]
        omega

theorem elementStep_padding {v : BitVec 2} (h : exec (.spsSubLayerPadding v) s = .next t) : ElementStep s .subLayerPadding t := by
  change execSpsSubLayerPadding v s = _ at h
  refine elementStep_of_element h fun hr => ?_
  rcases Nat.lt_or_ge s.subI.toNat 7 with hlt | hge
  · have hi : (BitVec.ofNat 4 (s.subI.toNat + 1)).toNat = s.subI.toNat + 1 := by
      rw [BitVec.toNat_ofNat, Nat.mod_eq_of_lt (by omega)]
    rw [if_pos (show (s.advance 2).subI.toNat < 7 from hlt)]
    refine .moved _ .subLayerPadding rfl rfl (advance_pos_le hr) ⟨fun _ => ?_, nofun, fun _ => ?_⟩
    · change 1 ≤ (BitVec.ofNat 4 (s.subI.toNat + 1)).toNat ∧ (BitVec.ofNat 4 (s.subI.toNat + 1)).toNat ≤ 7
      omega
    · change 31 - (BitVec.ofNat 4 (s.subI.toNat + 1)).toNat < 31 - s.subI.toNat
      omega
  · rw [if_neg (show ¬ (s.advance 2).subI.toNat < 7 from Nat.not_lt.2 hge)]
    refine elementStep_gotoSubLayer rfl (advance_pos_le hr) fun ⟨_, h7⟩ => ?_
    simp only [State.elementSteps]
    omega

theorem elementStep_subLayerProfile {v : BitVec 88} (h : exec (.spsSubLayerProfile v) s = .next t) :
    ElementStep s .subLayerProfile t := by
  change execSpsSubLayerProfile v s = _ at h
  have hn := s.nSub.isLt
  refine elementStep_of_element h fun hr => ?_
  have hidx : s.SubIndexOk .subLayerProfile → s.subI.toNat < s.nSub.toNat := id
  cases hl : s.lp.getLsbD s.subI.toNat with
  | true =>
    rw [if_pos (show (s.advance 88).lp.getLsbD (s.advance 88).subI.toNat = true from hl)]
    refine .moved _ .subLayerLevelIdc rfl rfl (advance_pos_le hr) ⟨id, nofun, fun hs => ?_⟩
    have := hidx hs
    change 22 - 2 * s.subI.toNat < 23 - 2 * s.subI.toNat
    omega
  | false =>
    rw [if_neg (by rw [advance_lp, advance_subI, hl]; exact Bool.false_ne_true)]
    refine elementStep_gotoSubLayer rfl (advance_pos_le hr) fun hs => ?_
    have := hidx hs
    simp only [State.elementSteps, advance_subI]
    omega

theorem elementStep_subLayerLevelIdc {v : BitVec 8} (h : exec (.spsSubLayerLevelIdc v) s = .next t) :
    ElementStep s .subLayerLevelIdc t := by
  change execSpsSubLayerLevelIdc v s = _ at h
  have hn := s.nSub.isLt
  refine elementStep_of_element h fun hr => elementStep_gotoSubLayer rfl (advance_pos_le hr) fun hs => ?_
  have hs : s.subI.toNat < s.nSub.toNat := hs
  simp only [State.elementSteps, advance_subI]
  omega

theorem elementStep_generalLevelIdc {v : BitVec 8} (h : exec (.spsGeneralLevelIdc v) s = .next t) :
    ElementStep s .generalLevelIdc t := by
  change execSpsGeneralLevelIdc v s = _ at h
  refine elementStep_of_element h fun hr => ?_
  by_cases h0 : s.nSub = 0
  · exact .moved _ .seqParameterSetId rfl (if_pos h0) (advance_pos_le hr) ⟨fun _ => trivial, nofun, fun _ => by simp [State.elementSteps]⟩
  · have hpos : (0 : BitVec 4).toNat < s.nSub.toNat := Nat.pos_of_ne_zero fun hz => h0 (BitVec.eq_of_toNat_eq hz)
    exact .moved _ .subLayerPresentFlags rfl (if_neg h0) (advance_pos_le hr)
      ⟨fun _ => hpos, nofun, fun _ => by simp [State.elementSteps]⟩

theorem elementStep_generalConstraintBlock {v : BitVec 44} (h : exec (.spsGeneralConstraintBlock v) s = .next t) :
    ElementStep s .generalConstraintBlock t := by
  rcases Nat.lt_or_ge s.remain 44 with hr | hr
  · obtain ⟨k, hk⟩ := exec_eq_requestAll (i := .spsGeneralConstraintBlock v) rfl nofun s
    obtain ⟨done, w, later, -, hd, -, hexec⟩ := requestAll_short [32, 12] k hr
    rw [hk, requests, hexec] at h
    cases h
    exact .aborted _ _ rfl (advance_pos_le hd)
  · rw [exec_constraintBlock_room hr] at h
    exact elementStep_onward h rfl rfl rfl trivial nofun (Nat.lt_add_one _)

theorem elementStep_windowOffsets {c1 c2 c3 c4 : UeCode} (h : exec (.spsConformanceWindowOffsets c1 c2 c3 c4) s = .next t) :
    ElementStep s .conformanceWindowOffsets t := by
  rcases Nat.lt_or_ge s.remain (ueLength c1 + ueLength c2 + ueLength c3 + ueLength c4) with hr | hr
  · obtain ⟨k, hk⟩ := exec_eq_requestAll (i := .spsConformanceWindowOffsets c1 c2 c3 c4) rfl nofun s
    have hsum : s.remain < (requests s.cfg (.spsConformanceWindowOffsets c1 c2 c3 c4)).sum := by
      simp only [requests, UeCode.bits_length, List.sum_cons, List.sum_nil]
      simp only [ueLength] at hr
      omega
    obtain ⟨done, w, later, -, hd, -, hexec⟩ := requestAll_short _ k hsum
    rw [hk, hexec] at h
    cases h
    exact .aborted _ _ rfl (advance_pos_le hd)
  · rw [exec_windowOffsets_room hr] at h
    exact elementStep_onward h rfl rfl rfl trivial nofun (Nat.lt_add_one _)

theorem elementStep_chromaFormatIdc {c : UeCode} (h : exec (.spsChromaFormatIdc c) s = .next t) :
    ElementStep s .chromaFormatIdc t := by
  change execSpsChromaFormatIdc c s = _ at h
  refine elementStep_of_element h fun hr => ?_
  split
  · exact .aborted _ _ rfl (advance_pos_le hr)
  · by_cases h3 : ueValue c = 3
    · exact .moved _ .separateColourPlaneFlag rfl (if_pos h3) (advance_pos_le hr)
        ⟨fun _ => trivial, nofun, fun _ => by simp [State.elementSteps]⟩
    · exact .moved _ .picWidth rfl (if_neg h3) (advance_pos_le hr) ⟨fun _ => trivial, nofun, fun _ => by simp [State.elementSteps]⟩

theorem elementStep_windowFlag {v : BitVec 1} (h : exec (.spsConformanceWindowFlag v) s = .next t) :
    ElementStep s .conformanceWindowFlag t := by
  change execSpsConformanceWindowFlag v s = _ at h
  refine elementStep_of_element h fun hr => ?_
  by_cases h1 : v = 1
  · exact .moved _ .conformanceWindowOffsets rfl (if_pos h1) (advance_pos_le hr)
      ⟨fun _ => trivial, nofun, fun _ => by simp [State.elementSteps]⟩
  · exact .moved _ .bitDepthLuma rfl (if_neg h1) (advance_pos_le hr) ⟨fun _ => trivial, nofun, fun _ => by simp [State.elementSteps]⟩

theorem elementStep_bitDepthLuma {c : UeCode} (h : exec (.spsBitDepthLuma c) s = .next t) : ElementStep s .bitDepthLuma t := by
  change execSpsBitDepthLuma c s = _ at h
  refine elementStep_of_element h fun hr => ?_
  split
  · exact .aborted _ _ rfl (advance_pos_le hr)
  · have hd : (BitVec.ofNat 5 (ueValue c + 8)).toNat = ueValue c + 8 := by rw [BitVec.toNat_ofNat, Nat.mod_eq_of_lt (by omega)]
    exact .moved _ .bitDepthChroma rfl rfl (advance_pos_le hr)
      ⟨fun _ => trivial, fun _ => by rw [hd]; omega, fun _ => by simp [State.elementSteps]⟩

theorem elementStep_bitDepthChroma {c : UeCode} (h : exec (.spsBitDepthChroma c) s = .next t) :
    ElementStep s .bitDepthChroma t := by
  change execSpsBitDepthChroma c s = _ at h
  exact elementStep_of_element h fun hr => .committed _ rfl (advance_pos_le hr)

/-- Running an element instruction is one of the cases of `ElementStep`. -/
theorem elementStep_of_exec {i : Instr} {e : SpsElem} (hf : i.fmt = .sps e) (h : exec i s = .next t) : ElementStep s e t := by
  cases i <;> simp only [Instr.fmt, reduceCtorEq, Fmt.sps.injEq] at hf <;> subst hf
  case spsGeneralConstraintBlock => exact elementStep_generalConstraintBlock h
  case spsGeneralLevelIdc => exact elementStep_generalLevelIdc h
  case spsSubLayerPresentFlags => exact elementStep_presentFlags h
  case spsSubLayerPadding => exact elementStep_padding h
  case spsSubLayerProfile => exact elementStep_subLayerProfile h
  case spsSubLayerLevelIdc => exact elementStep_subLayerLevelIdc h
  case spsChromaFormatIdc => exact elementStep_chromaFormatIdc h
  case spsConformanceWindowFlag => exact elementStep_windowFlag h
  case spsConformanceWindowOffsets => exact elementStep_windowOffsets h
  case spsBitDepthLuma => exact elementStep_bitDepthLuma h
  case spsBitDepthChroma => exact elementStep_bitDepthChroma h
  all_goals
    simp only [exec, execSpsVideoParameterSetId, execSpsMaxSubLayersMinus1, execSpsTemporalIdNestingFlag,
      execSpsGeneralProfileSpace, execSpsGeneralTierFlag, execSpsGeneralProfileIdc, execSpsGeneralCompatibilityFlags,
      execSpsGeneralSourceFlags, execSpsSeqParameterSetId, execSpsSeparateColourPlaneFlag, execSpsPicWidth,
      execSpsPicHeight] at h
    exact elementStep_onward h rfl rfl rfl trivial nofun (Nat.lt_add_one _)

/-- No more bits are looked at than asked for. -/
theorem viewBits_length_le (s : State) (n p : Nat) : (s.viewBits n p).1.length ≤ n := by
  induction n generalizing p with
  | zero => exact le_rfl
  | succ n ih =>
    rw [viewBits_succ]
    cases s.viewBit p with
    | error f => exact Nat.zero_le _
    | ok b => exact Nat.succ_le_succ (ih (p + 1))

/-- A step of the engine at an element is one of the cases of `ElementStep`, whether it finds the element or an error. -/
theorem elementStep_of_fetch {e : SpsElem} (hp : s.phase = .sps e) (h : runFetched (fetchEngine s) = .next t) :
    ElementStep s e t := by
  have abort : ∀ err, ElementStep s e ((s.passed e (s.elementBits e)).raiseSps err) := fun err => by
    have hlen : (s.elementBits e).length ≤ s.remain := (viewBits_length_le _ _ _).trans (Nat.min_le_right _ _)
    refine .aborted _ err (passed_frame s e _) fun hc => ?_
    have hpos := (passed_pos e hlen).2
    rw [State.remain] at hlen
    omega
  simp only [fetchEngine, hp, fetchElement] at h
  cases hc : s.codeAt e with
  | found i =>
    rw [hc] at h
    exact elementStep_of_exec (codeAt_found_fmt hc) h
  | raises err =>
    rw [hc] at h
    cases h
    exact abort err
  | faults f => rw [hc] at h; cases h
  | rejected r => rw [hc] at h; cases h

end

end Sys2Proof.Machine
end

section
/-! SUPPORT. What every step of the engine leaves (10_state.md R22, R30, 42_epb_removal.md R194, 60_exceptions.md R255). -/

namespace Sys2Proof.Machine

open Sys2Proof

/-- `t` is `s` but for the registers and memories the engine itself writes. -/
abbrev State.EngineFrame (s t : State) : Prop :=
  t = { s with
    status := t.status, valid := t.valid, profile := t.profile, rextProfile := t.rextProfile, level := t.level
    chromaFormat := t.chromaFormat, bitDepth := t.bitDepth, nalCount := t.nalCount, spsSeen := t.spsSeen, spsOk := t.spsOk
    lastErr := t.lastErr, errOff := t.errOff, off := t.off, nalOff := t.nalOff, nalLen := t.nalLen, nalType := t.nalType
    scrLen := t.scrLen, pos := t.pos, total := t.total, nSub := t.nSub, pp := t.pp, lp := t.lp, c44 := t.c44
    tProfile := t.tProfile, tRext := t.tRext, tLevel := t.tLevel, tChroma := t.tChroma, tDepth := t.tDepth, scr := t.scr
    view := t.view, phase := t.phase, epbI := t.epbI, epbK := t.epbK, subI := t.subI }

section
variable {s t : State}

/-- The return to the scan loop writes `OFF` and the place. -/
theorem nalReturn_frame (u : State) : u.nalReturn = { u with off := u.nalReturn.off, phase := .scan } :=
  (scanGoesOn_nalReturn u).1

/-- A step of the engine is one at an element of the SPS, or one at another place. -/
theorem engine_cases (h : runFetched (fetchEngine s) = .next t) :
    (∃ e, s.phase = .sps e ∧ ElementStep s e t) ∨ ((∀ e, s.phase ≠ .sps e) ∧ EngineStep s t) := by
  by_cases hp : ∃ e, s.phase = .sps e
  · obtain ⟨e, he⟩ := hp
    exact .inl ⟨e, he, elementStep_of_fetch he h⟩
  · exact .inr ⟨not_exists.1 hp, engineStep_of_next h⟩

theorem engineFrame_of_elementStep {e : SpsElem} (h : ElementStep s e t) : s.EngineFrame t := by
  cases h with
  | aborted v err hv _ => rw [State.raiseSps, nalReturn_frame, State.EngineFrame, State.record, hv]
  | moved t e' hf _ _ _ => rw [State.EngineFrame, hf]
  | committed p _ _ => rw [nalReturn_frame]; rfl

theorem engineFrame_of_engineStep (hs : ∀ e, s.phase ≠ .sps e) (h : EngineStep s t) : s.EngineFrame t := by
  cases h with
  | malformed _ => rw [nalReturn_frame]; rfl
  | skip _ _ => rw [nalReturn_frame]
  | abort e he => exact absurd he (hs e)
  | element e he => exact absurd he (hs e)
  | _ => rfl

/-- No step of the engine writes anything else. -/
theorem engineFrame_of_step (hh : s.host = []) (h : step s = .next t) : s.EngineFrame t := by
  rcases engine_cases ((step_engine hh).symm.trans h) with ⟨e, -, he⟩ | ⟨hs, he⟩
  · exact engineFrame_of_elementStep he
  · exact engineFrame_of_engineStep hs he

/-- `SCR` is written at `EPBREMOVE` alone. -/
theorem scr_of_step (hh : s.host = []) (hp : s.phase ≠ .epb) (h : step s = .next t) : t.scr = s.scr := by
  rcases engine_cases ((step_engine hh).symm.trans h) with ⟨e, -, he⟩ | ⟨hs, he⟩
  · cases he with
    | aborted v err hv _ => rw [State.raiseSps, nalReturn_scr, State.record, hv]
    | moved t e' hf _ _ _ => rw [hf]
    | committed p _ _ => rw [nalReturn_scr]; rfl
  · cases he with
    | malformed _ => exact nalReturn_scr _
    | skip _ _ => exact nalReturn_scr _
    | keep he _ _ _ => exact absurd he hp
    | drop he _ _ => exact absurd he hp
    | abort e he => exact absurd he (hs e)
    | element e he => exact absurd he (hs e)
    | _ => rfl

/-- Settles O54: the frame of a step, and the one place that writes `SCR`. -/
theorem engineKeepsInputs : Obligations.EngineKeepsInputs := by
  intro s t hh h
  have hf := engineFrame_of_step hh h
  exact ⟨fun a => by rw [hf], by rw [hf], by rw [hf], by rw [hf], fun hp a => by rw [scr_of_step hh hp h]⟩

/-- Settles O53: the commit writes the record; an abort, another element and every other place leave it. -/
theorem onlyCommitWritesResults : Obligations.OnlyCommitWritesResults := by
  intro s t hh h
  rcases engine_cases ((step_engine hh).symm.trans h) with ⟨e, hp, he⟩ | ⟨hs, he⟩
  · cases he with
    | aborted v err hv _ =>
      left
      simp only [State.raiseSps, State.record, nalReturn_profile, nalReturn_rextProfile, nalReturn_level,
        nalReturn_chromaFormat, nalReturn_bitDepth, nalReturn_valid]
      rw [hv]
      exact ⟨rfl, rfl, rfl, rfl, rfl, id⟩
    | moved t e' hf _ _ _ => left; rw [hf]; exact ⟨rfl, rfl, rfl, rfl, rfl, id⟩
    | committed p he _ => right; subst he; simpa using hp
  · left
    cases he with
    | parsenals _ _ => exact ⟨rfl, rfl, rfl, rfl, rfl, nofun⟩
    | parsesps _ => exact ⟨rfl, rfl, rfl, rfl, rfl, nofun⟩
    | malformed _ => simp
    | skip _ _ => simp
    | abort e he => exact absurd he (hs e)
    | element e he => exact absurd he (hs e)
    | _ => exact ⟨rfl, rfl, rfl, rfl, rfl, id⟩

/-! ## The bits of `STATUS` -/

/-- `t` has every sticky bit of `s`, and its reserved bits (10_state.md R22). -/
def State.StickyKept (s t : State) : Prop :=
  (∀ e : Err, s.sticky e = true → t.sticky e = true) ∧ ∀ j, 3 ≤ j → j ≤ 7 → t.status.getLsbD j = s.status.getLsbD j

theorem stickyKept_of_status (h : t.status = s.status) : s.StickyKept t :=
  ⟨fun e => by rw [State.sticky, State.sticky, h]; exact id, fun j _ _ => by rw [h]⟩

theorem stickyKept_of_record {e : Err} {o : BitVec 32} (h : t.status = (s.record e o).status) : s.StickyKept t := by
  refine ⟨fun k hk => ?_, fun j h3 h7 => ?_⟩
  · have hr := record_sticky s e k o
    rw [hk, Bool.or_true, State.sticky, ← h] at hr
    exact hr
  · rw [h, record_statusBit _ _ _ _ (by omega), if_neg (by cases e <;> simp only [Err.bit] <;> omega)]

theorem stickyKept_ended (s : State) (b : Bool) (p : Phase) :
    s.StickyKept { s with status := Status.ended s.status b, phase := p } := by
  have hbit : ∀ j, 3 ≤ j → j < 13 → (Status.ended s.status b).getLsbD j = s.status.getLsbD j := fun j h3 hj => by
    rw [Status.get_ended _ _ _ hj, if_neg (by omega), if_neg (by omega), if_neg (by omega)]
  exact ⟨fun k hk => (hbit k.bit (by cases k <;> decide) k.bit_lt).trans hk, fun j h3 h7 => hbit j h3 (by omega)⟩

/-- Settles O55: an error sets its own bit, `ENDCALL` writes bits 0 to 2, and only the start of the scan clears. -/
theorem stickyBitsStaySet : Obligations.StickyBitsStaySet := by
  intro s t hh hp h
  change s.StickyKept t
  rcases engine_cases ((step_engine hh).symm.trans h) with ⟨e, -, he⟩ | ⟨hs, he⟩
  · cases he with
    | aborted v err hv _ =>
      refine stickyKept_of_record (e := err) (o := s.nalOff) ?_
      rw [State.raiseSps, nalReturn_status, State.record, hv]
      rfl
    | moved t e' hf _ _ _ => exact stickyKept_of_status (by rw [hf])
    | committed p _ _ => exact stickyKept_of_status (nalReturn_status _)
  · cases he with
    | parsenals he _ => exact absurd he hp
    | lpShort _ _ _ _ _ => exact stickyKept_of_record (e := .truncatedNal) (o := BitVec.ofNat 32 s.off.toNat) rfl
    | lpOver _ _ _ => exact stickyKept_of_record (e := .truncatedNal) (o := BitVec.ofNat 32 s.off.toNat) rfl
    | malformed _ => exact stickyKept_of_record (nalReturn_status _)
    | skip _ _ => exact stickyKept_of_status (nalReturn_status _)
    | endcall _ => exact stickyKept_ended s _ _
    | abort e he => exact absurd he (hs e)
    | element e he => exact absurd he (hs e)
    | _ => exact stickyKept_of_status rfl

end

end Sys2Proof.Machine
end

section
/-! SUPPORT. The invariant, read place by place: what holds everywhere (`State.Core`), and what holds at each place of the
pseudocode (`State.Place`).  Each step of the engine is then one short case. -/

namespace Sys2Proof.Machine

open Sys2Proof

/-! ## The parts of the invariant -/

/-- Both memories are canonical. -/
def State.MemOk (s : State) : Prop := s.buf.wf = true ∧ s.scr.wf = true

/-- The reserved bits are 0 and `LAST_ERR` is a code (10_state.md R22, 60_exceptions.md R240). -/
def State.StatusOk (s : State) : Prop := (∀ i, 3 ≤ i → i ≤ 7 → s.status.getLsbD i = false) ∧ s.lastErr.toNat ≤ 5

/-- The cursor is in its view (10_state.md R25, R26). -/
def State.CursorOk (s : State) : Prop := s.pos.toNat ≤ s.total.toNat ∧ s.total.toNat = 8 * s.view.len.toNat

/-- The reader used on its own, and the bytes it may bind (40_bitreader.md R130). -/
def State.ReaderOk (s : State) : Prop :=
  s.reader.pos.toNat ≤ s.reader.total.toNat ∧ s.reader.view.length < 2 ^ 32 ∧ s.viewArg.length < 2 ^ 32

/-- A valid record is legal, and some SPS decoded (10_state.md R29). -/
def State.RecordOk (s : State) : Prop :=
  s.valid = true → (8 ≤ s.bitDepth.toNat ∧ s.bitDepth.toNat ≤ 16) ∧ 0 < s.spsOk.toNat

/-- What holds at every place. -/
def State.Core (s : State) : Prop := s.MemOk ∧ s.StatusOk ∧ s.CursorOk ∧ s.ReaderOk ∧ s.RecordOk

/-- A call is in progress, in a mode that is not reserved (10_state.md R22, 41_nal_scanner.md R161). -/
def State.Running (s : State) : Prop := (s.busy = true ∧ s.done = false ∧ s.ok = false) ∧ s.nsw.toNat ≤ 4

/-- The NAL unit in hand lies in the buffer, after its length field or start code (41_nal_scanner.md R162, R164). -/
def State.UnitSpan (s : State) : Prop :=
  s.off.toNat ≤ s.len.toNat ∧ s.nalOff.toNat = s.off.toNat + s.nsw.toNat ∧ s.nalOff.toNat + s.nalLen.toNat ≤ s.len.toNat

/-- The counters, with room for the unit in hand, and the bytes passed (41_nal_scanner.md R166). -/
def State.Counts (s : State) (ok seen count bound : Nat) : Prop :=
  s.spsOk.toNat + ok ≤ s.spsSeen.toNat ∧ s.spsSeen.toNat + seen ≤ s.nalCount.toNat ∧ s.nalCount.toNat + count ≤ bound

/-- The scan is at its head, or about to end. -/
def State.Scanning (s : State) : Prop := s.Running ∧ s.off.toNat ≤ s.len.toNat ∧ s.Counts 0 0 0 s.off.toNat

/-- A unit is in hand, with this room in the counters. -/
def State.InUnit (s : State) (ok seen count : Nat) : Prop :=
  s.Running ∧ s.UnitSpan ∧ s.Counts ok seen count (s.off.toNat + s.nsw.toNat)

/-- The payload of an SPS is in hand. -/
def State.InSps (s : State) : Prop := s.InUnit 1 0 0 ∧ 2 ≤ s.nalLen.toNat

/-- What holds at an element of the SPS (43_sps_decoder.md R200, R211 to R213, R228). -/
def State.AtElement (s : State) (e : SpsElem) : Prop :=
  s.InSps ∧ (s.view = { base := 0, len := s.scrLen } ∧ s.ScrWritten s.scrLen.toNat ∧ s.valid = false) ∧
    (e = .bitDepthChroma → 8 ≤ s.tDepth.toNat ∧ s.tDepth.toNat ≤ 16) ∧ s.SubIndexOk e

/-- What holds at each place. -/
def State.Place (s : State) : Phase → Prop
  | .idle => s.busy = false ∧ (s.ok = true ↔ 0 < s.spsOk.toNat) ∧ s.spsOk.toNat ≤ s.spsSeen.toNat ∧
      s.spsSeen.toNat ≤ s.nalCount.toNat
  | .parsenals => s.Running ∧ s.spsOk.toNat ≤ s.spsSeen.toNat ∧ s.spsSeen.toNat ≤ s.nalCount.toNat
  | .scan | .endcall => s.Scanning
  | .lpField => s.Scanning ∧ 1 ≤ s.nsw.toNat ∧ s.off.toNat + s.nsw.toNat ≤ s.len.toNat
  | .delim => s.Running ∧ s.off.toNat ≤ s.len.toNat ∧ s.nsw = 0 ∧ s.Counts 0 0 1 s.off.toNat
  | .nalunit => s.InUnit 0 0 1
  | .header => s.InUnit 0 1 0
  | .dispatch => s.InUnit 0 1 0 ∧ 2 ≤ s.nalLen.toNat
  | .epb => s.InSps ∧ s.epbK.toNat ≤ s.epbI.toNat ∧ s.epbI.toNat ≤ s.payloadLen ∧ s.ScrWritten s.epbK.toNat
  | .parsesps => s.InSps ∧ s.ScrWritten s.scrLen.toNat
  | .sps e => s.AtElement e

section
variable {s t : State}

/-- The payload of an SPS is part of a unit. -/
theorem Phase.inUnit_of_inSps {p : Phase} (h : p.inSps = true) : p.inUnit = true := by cases p <;> simp_all [Phase.inSps, Phase.inUnit]

theorem State.Inv.core (h : s.Inv) : s.Core :=
  ⟨⟨h.bufWf, h.scrWf⟩, ⟨h.reserved, h.lastErrCode⟩, ⟨h.cursor, h.totalBytes⟩, ⟨h.readerCursor, h.readerView⟩,
    fun hv => ⟨h.depth hv, h.validOk hv⟩⟩

theorem State.Inv.running (h : s.Inv) (hp : s.phase ≠ .idle) : s.Running :=
  have hb := h.busyPhase.2 hp
  ⟨⟨hb, h.busyDone hb⟩, h.mode hp⟩

theorem State.Inv.scanning (h : s.Inv) (hp : s.phase = .scan ∨ s.phase = .lpField ∨ s.phase = .endcall) : s.Scanning := by
  have hne : s.phase ≠ .idle ∧ s.phase ≠ .parsenals := by rcases hp with hp | hp | hp <;> simp [hp]
  exact ⟨h.running hne.1, h.offLen hne.1 hne.2, (Nat.le_add_right _ _).trans h.okSeen,
    (Nat.le_add_right _ _).trans h.seenCount, h.countOff hp⟩

theorem State.Inv.unit (h : s.Inv) (hp : s.phase.inUnit = true) :
    s.InUnit (if s.phase.inSps then 1 else 0) (if s.phase = .header ∨ s.phase = .dispatch then 1 else 0)
      (if s.phase = .nalunit then 1 else 0) := by
  have hne : s.phase ≠ .idle ∧ s.phase ≠ .parsenals := by
    constructor <;> exact fun hz => by rw [hz] at hp; exact Bool.noConfusion hp
  exact ⟨h.running hne.1, ⟨h.offLen hne.1 hne.2, h.unitOff hp, h.unitLen hp⟩, h.okSeen, h.seenCount, h.countUnit hp⟩

theorem State.Inv.inSps (h : s.Inv) (hp : s.phase.inSps = true) : s.InSps := by
  have hne : ¬ (s.phase = .header ∨ s.phase = .dispatch) ∧ s.phase ≠ .nalunit := by
    cases hs : s.phase <;> rw [hs] at hp <;> simp [Phase.inSps] at hp ⊢
  have hunit := h.unit (Phase.inUnit_of_inSps hp)
  rw [if_pos hp, if_neg hne.1, if_neg hne.2] at hunit
  exact ⟨hunit, h.header (.inr hp)⟩

/-- The index of the sub-layer loops is in bounds at each of their elements. -/
theorem State.Inv.subIndexOk (h : s.Inv) {e : SpsElem} (hp : s.phase = .sps e) : s.SubIndexOk e := by
  cases e with
  | subLayerPresentFlags => exact h.subIndex (.inl hp)
  | subLayerProfile => exact h.subIndex (.inr (.inl hp))
  | subLayerLevelIdc => exact h.subIndex (.inr (.inr hp))
  | subLayerPadding => exact h.padIndex hp
  | _ => exact trivial

/-- The invariant gives what holds at the place the engine is at. -/
theorem State.Inv.place {p : Phase} (h : s.Inv) (hp : s.phase = p) : s.Place p := by
  have unit := h.unit
  have sps := h.inSps
  have ok := h.okSeen
  have seen := h.seenCount
  rw [hp] at unit sps ok seen
  cases p with
  | idle =>
    exact ⟨Bool.eq_false_iff.2 fun hb => h.busyPhase.1 hb hp, h.okIdle hp, ok, by simpa using seen⟩
  | parsenals => exact ⟨h.running (by simp [hp]), ok, by simpa using seen⟩
  | scan => exact h.scanning (.inl hp)
  | lpField => exact ⟨h.scanning (.inr (.inl hp)), h.lpRoom hp⟩
  | delim =>
    exact ⟨h.running (by simp [hp]), h.offLen (by simp [hp]) (by simp [hp]), h.delimMode hp, ok, by simpa using seen, h.countDelim hp⟩
  | nalunit => exact (by simpa [Phase.inSps] using unit rfl : s.InUnit 0 0 1)
  | header => exact (by simpa [Phase.inSps] using unit rfl : s.InUnit 0 1 0)
  | dispatch => exact ⟨by simpa [Phase.inSps] using unit rfl, h.header (.inl hp)⟩
  | epb => exact ⟨sps rfl, h.epbLoop hp⟩
  | parsesps => exact ⟨sps rfl, h.scrReady hp⟩
  | sps e => exact ⟨sps rfl, h.spsView e hp, fun he => h.staged (he ▸ hp), h.subIndexOk hp⟩
  | endcall => exact h.scanning (.inr (.inr hp))

/-! ## The invariant from its parts -/

theorem State.Place.running {p : Phase} (h : s.Place p) (hp : p ≠ .idle) : s.Running := by
  cases p with
  | idle => exact absurd rfl hp
  | parsenals | scan | endcall | delim | nalunit | header => exact h.1
  | lpField | dispatch => exact h.1.1
  | epb | parsesps | sps => exact h.1.1.1

/-- The counters, with room for the unit in hand. -/
theorem State.Place.counts {p : Phase} (h : s.Place p) : s.spsOk.toNat + (if p.inSps then 1 else 0) ≤ s.spsSeen.toNat ∧
    s.spsSeen.toNat + (if p = .header ∨ p = .dispatch then 1 else 0) ≤ s.nalCount.toNat := by
  cases p with
  | idle => exact ⟨h.2.2.1, by simpa using h.2.2.2⟩
  | parsenals => exact ⟨h.2.1, by simpa using h.2.2⟩
  | scan | endcall => exact ⟨h.2.2.1, by simpa using h.2.2.2.1⟩
  | lpField => exact ⟨h.1.2.2.1, by simpa using h.1.2.2.2.1⟩
  | delim => exact ⟨h.2.2.2.1, by simpa using h.2.2.2.2.1⟩
  | nalunit => exact ⟨h.2.2.1, by simpa using h.2.2.2.1⟩
  | header => exact ⟨h.2.2.1, by simpa using h.2.2.2.1⟩
  | dispatch => exact ⟨h.1.2.2.1, by simpa using h.1.2.2.2.1⟩
  | epb | parsesps | sps => exact ⟨h.1.1.2.2.1, by simpa using h.1.1.2.2.2.1⟩

theorem State.Place.unit {p : Phase} (h : s.Place p) (hp : p.inUnit = true) :
    s.UnitSpan ∧ s.nalCount.toNat + (if p = .nalunit then 1 else 0) ≤ s.off.toNat + s.nsw.toNat := by
  cases p with
  | idle | parsenals | scan | lpField | delim | endcall => exact Bool.noConfusion hp
  | nalunit => exact ⟨h.2.1, by simpa using h.2.2.2.2⟩
  | header => exact ⟨h.2.1, by simpa using h.2.2.2.2⟩
  | dispatch => exact ⟨h.1.2.1, by simpa using h.1.2.2.2.2⟩
  | epb | parsesps | sps => exact ⟨h.1.1.2.1, by simpa using h.1.1.2.2.2.2⟩

theorem State.Place.offLen {p : Phase} (h : s.Place p) (hi : p ≠ .idle) (hp : p ≠ .parsenals) : s.off.toNat ≤ s.len.toNat := by
  cases p with
  | idle => exact absurd rfl hi
  | parsenals => exact absurd rfl hp
  | scan | endcall | delim => exact h.2.1
  | lpField => exact h.1.2.1
  | nalunit | header | dispatch | epb | parsesps | sps => exact (h.unit rfl).1.1

theorem State.Place.header {p : Phase} (h : s.Place p) (hp : p = .dispatch ∨ p.inSps = true) : 2 ≤ s.nalLen.toNat := by
  cases p with
  | dispatch => exact h.2
  | epb | parsesps | sps => exact h.1.2
  | idle | parsenals | scan | lpField | delim | nalunit | header | endcall => simp [Phase.inSps] at hp

theorem State.Place.countOff {p : Phase} (h : s.Place p) (hp : p = .scan ∨ p = .lpField ∨ p = .endcall) :
    s.nalCount.toNat ≤ s.off.toNat := by
  obtain rfl | rfl | rfl := hp
  · exact h.2.2.2.2
  · exact h.1.2.2.2.2
  · exact h.2.2.2.2

theorem State.Place.subIndex {e : SpsElem} (h : s.Place (.sps e))
    (he : e = .subLayerPresentFlags ∨ e = .subLayerProfile ∨ e = .subLayerLevelIdc) : s.subI.toNat < s.nSub.toNat := by
  obtain rfl | rfl | rfl := he <;> exact h.2.2.2

/-- What holds everywhere and what holds at the place make the invariant. -/
theorem inv_of_place {p : Phase} (hc : s.Core) (hp : s.phase = p) (h : s.Place p) : s.Inv := by
  obtain ⟨hmem, hstat, hcur, hread, hrec⟩ := hc
  subst hp
  have at_ : ∀ {q}, s.phase = q → s.Place q := fun hq => hq ▸ h
  have idle : s.phase = .idle → s.busy = false := fun hq => (at_ hq).1
  exact {
    bufWf := hmem.1
    scrWf := hmem.2
    reserved := hstat.1
    lastErrCode := hstat.2
    cursor := hcur.1
    totalBytes := hcur.2
    readerCursor := hread.1
    readerView := hread.2
    busyPhase := ⟨fun hb hq => by rw [idle hq] at hb; exact Bool.noConfusion hb, fun hq => (h.running hq).1.1⟩
    busyDone := fun hb => (h.running fun hq => by rw [idle hq] at hb; exact Bool.noConfusion hb).1.2
    depth := fun hv => (hrec hv).1
    validOk := fun hv => (hrec hv).2
    okIdle := fun hq => (at_ hq).2.1
    mode := fun hq => (h.running hq).2
    offLen := h.offLen
    lpRoom := fun hq => (at_ hq).2
    delimMode := fun hq => (at_ hq).2.2.1
    unitOff := fun hq => (h.unit hq).1.2.1
    unitLen := fun hq => (h.unit hq).1.2.2
    header := h.header
    epbLoop := fun hq => (at_ hq).2
    scrReady := fun hq => (at_ hq).2
    spsView := fun e hq => (at_ hq).2.1
    staged := fun hq => (at_ hq).2.2.1 rfl
    subIndex := fun hq => by
      obtain hq | hq | hq := hq
      · exact (at_ hq).subIndex (.inl rfl)
      · exact (at_ hq).subIndex (.inr (.inl rfl))
      · exact (at_ hq).subIndex (.inr (.inr rfl))
    padIndex := fun hq => (at_ hq).2.2.2
    okSeen := h.counts.1
    seenCount := h.counts.2
    countOff := h.countOff
    countDelim := fun hq => (at_ hq).2.2.2.2.2
    countUnit := fun hq => (h.unit hq).2 }

end

end Sys2Proof.Machine
end

section
/-! SUPPORT. Every step of the engine keeps the invariant. -/

namespace Sys2Proof.Machine

open Sys2Proof

section
variable {s t : State}

/-! ## What the parts of the invariant make of the shared operations -/

theorem code_le (e : Err) : e.code.toNat ≤ 5 := by cases e <;> decide

theorem statusOk_record (h : s.StatusOk) (e : Err) (o : BitVec 32) : (s.record e o).StatusOk := by
  refine ⟨fun i h3 h7 => ?_, code_le e⟩
  rw [record_statusBit _ _ _ _ (by omega), if_neg (by cases e <;> simp only [Err.bit] <;> omega)]
  exact h.1 i h3 h7

theorem running_record (h : s.Running) (e : Err) (o : BitVec 32) : (s.record e o).Running := by
  rw [State.Running, record_busy, record_done, record_ok]
  exact h

theorem core_record (h : s.Core) (e : Err) (o : BitVec 32) : (s.record e o).Core :=
  ⟨h.1, statusOk_record h.2.1 e o, h.2.2⟩

theorem core_beginCall (h : s.Core) : s.beginCall.Core := by
  obtain ⟨hm, hs, hc, hr, -⟩ := h
  refine ⟨hm, ⟨fun i h3 h7 => ?_, Nat.zero_le _⟩, hc, hr, nofun⟩
  rw [beginCall_status, Status.get_started _ _ (by omega), if_neg (by omega), if_neg (by omega)]
  exact hs.1 i h3 h7

theorem running_beginCall (h : s.nsw.toNat ≤ 4) : s.beginCall.Running :=
  ⟨⟨beginCall_busy s, beginCall_done s, beginCall_ok s⟩, h⟩

/-- `OFF` after the return from a unit: past the unit, or at its begin, and in the buffer. -/
theorem nalReturn_off_bounds (h : s.UnitSpan) :
    s.off.toNat + s.nsw.toNat ≤ s.nalReturn.off.toNat ∧ s.nalReturn.off.toNat ≤ s.len.toNat := by
  obtain ⟨ho, hn, hl⟩ := h
  have hlen := s.len.isLt
  rw [nalReturn_off]
  split
  next hz => rw [hz]; exact ⟨le_rfl, ho⟩
  next => rw [BitVec.toNat_ofNat, Nat.mod_eq_of_lt (by omega)]; omega

/-- The return from a unit is at the head of the scan. -/
theorem inv_nalReturn (hc : s.Core) (hu : s.InUnit 0 0 0) : s.nalReturn.Inv := by
  obtain ⟨hr, hs, h1, h2, h3⟩ := hu
  obtain ⟨hlo, hhi⟩ := nalReturn_off_bounds hs
  rw [nalReturn_frame]
  exact inv_of_place (p := .scan) hc rfl ⟨hr, hhi, h1, h2, (by omega : s.nalCount.toNat + 0 ≤ s.nalReturn.off.toNat)⟩

theorem inUnit_record {a b c : Nat} (h : s.InUnit a b c) (e : Err) (o : BitVec 32) : (s.record e o).InUnit a b c :=
  ⟨running_record h.1 e o, h.2⟩

theorem inUnit_weaken {a b c : Nat} (h : s.InUnit a b c) : s.InUnit 0 0 0 := by
  obtain ⟨hr, hs, h1, h2, h3⟩ := h
  exact ⟨hr, hs, by omega, by omega, by omega⟩

/-- An error in a unit is recorded, and the scan goes on. -/
theorem inv_raiseSps {a b c : Nat} (hc : s.Core) (hu : s.InUnit a b c) (e : Err) : (s.raiseSps e).Inv :=
  inv_nalReturn (core_record hc e _) (inUnit_record (inUnit_weaken hu) e _)

/-- An error of the scanner ends the scan. -/
theorem inv_raiseScan (hc : s.Core) (hs : s.Scanning) (e : Err) (o : BitVec 32) : (s.raiseScan e o).Inv :=
  inv_of_place (p := .endcall) (core_record hc e o) rfl ⟨running_record hs.1 e o, hs.2⟩

/-- A span of the buffer is handed on. -/
theorem inv_openNal {o : BitVec 33} {st e : Nat} (hc : s.Core) (hr : s.Running) (ho : st = o.toNat + s.nsw.toNat) (hse : st ≤ e)
    (he : e ≤ s.len.toNat) (hn : State.Counts s 0 0 1 st) : ({ s with off := o }.openNal st e).Inv := by
  have hlen := s.len.isLt
  have hst : (BitVec.ofNat 32 st).toNat = st := by rw [BitVec.toNat_ofNat, Nat.mod_eq_of_lt (by omega)]
  have hel : (BitVec.ofNat 32 (e - st)).toNat = e - st := by rw [BitVec.toNat_ofNat, Nat.mod_eq_of_lt (by omega)]
  have hspan : ({ s with off := o }.openNal st e).UnitSpan :=
    ⟨(by omega : o.toNat ≤ s.len.toNat), hst.trans ho,
      (by omega : (BitVec.ofNat 32 st).toNat + (BitVec.ofNat 32 (e - st)).toNat ≤ s.len.toNat)⟩
  exact inv_of_place (p := .nalunit) hc rfl ⟨hr, hspan, hn.1, hn.2.1, ho ▸ hn.2.2⟩

/-! ## The steps at the elements of the SPS -/

theorem inv_of_elementStep {e : SpsElem} (hi : s.Inv) (hp : s.phase = .sps e) (h : ElementStep s e t) : t.Inv := by
  obtain ⟨hm, hs, hcur, hr, hv⟩ := hi.core
  obtain ⟨hsps, hready, hdepth, hidx⟩ : s.AtElement e := hi.place hp
  cases h with
  | aborted v err hv' hpos =>
    rw [State.raiseSps, hv']
    have hc : State.Core { s with pos := v.pos, pp := v.pp } := ⟨hm, hs, ⟨hpos hcur.1, hcur.2⟩, hr, hv⟩
    exact inv_raiseSps hc hsps.1 err
  | moved t e' hf ht hpos hn =>
    have hidx' := hn.index hidx
    have hdepth' := hn.depth
    rw [hf] at hidx' hdepth' ⊢
    exact inv_of_place (p := .sps e') ⟨hm, hs, ⟨hpos hcur.1, hcur.2⟩, hr, hv⟩ ht ⟨hsps, hready, hdepth', hidx'⟩
  | committed p he hpos =>
    obtain ⟨hrun, hspan, h1, h2, h3⟩ := hsps.1
    have hseen := s.spsSeen.isLt
    have hok : (s.spsOk + 1).toNat = s.spsOk.toNat + 1 := by
      rw [BitVec.toNat_add, Nat.mod_eq_of_lt (by simp; omega)]
      rfl
    refine inv_nalReturn ⟨hm, hs, ⟨hpos hcur.1, hcur.2⟩, hr, fun _ => ⟨hdepth he, ?_⟩⟩ ⟨hrun, hspan, ?_, h2, h3⟩
    · exact (by omega : 0 < (s.spsOk + 1).toNat)
    · exact (by omega : (s.spsOk + 1).toNat + 0 ≤ s.spsSeen.toNat)

/-! ## The steps at the other places -/

/-- One more byte of `SCR` is written. -/
theorem scrWritten_write {k : Nat} (h : s.ScrWritten k) (b : Byte) : (s.scrWrite k b).ScrWritten (k + 1) := by
  intro i hi
  change ((s.scr.write k b).read? i).isSome = true
  rw [Memory.read_write]
  split
  · rfl
  · exact h i (by omega)

theorem toNat_succ {n : Nat} {v : BitVec n} (h : v.toNat + 1 < 2 ^ n) : (v + 1).toNat = v.toNat + 1 := by
  have hn : n ≠ 0 := fun h0 => by subst h0; simp at h
  change (v + 1#n).toNat = _
  rw [BitVec.toNat_add, BitVec.toNat_one (by omega), Nat.mod_eq_of_lt h]

/-- A start code found from `OFF` on ends in the buffer. -/
theorem findSc_room {f j : Nat} (h : s.findSc f = .ok (some j)) : f ≤ j ∧ j + 3 ≤ s.len.toNat := by
  obtain ⟨hfj, ⟨hroom, -⟩, -⟩ := findSc_some h
  exact ⟨hfj, hroom⟩

/-- The head of the scan in start-code mode. -/
theorem inv_startCodeHead {i : Nat} (hi : s.Inv) (hp : s.phase = .scan) (hm : s.nsw = 0)
    (hf : s.findSc s.off.toNat = .ok (some i)) :
    ({ s with off := BitVec.ofNat 33 (i + 3) }.openNal (i + 3) s.len.toNat).Inv ∧
      ({ s with off := BitVec.ofNat 33 (i + 3) }.goto .delim).Inv := by
  obtain ⟨hr, -, h1, h2, h3⟩ : s.Scanning := hi.place hp
  obtain ⟨hlo, hhi⟩ := findSc_room hf
  have hlen := s.len.isLt
  have hoff : (BitVec.ofNat 33 (i + 3)).toNat = i + 3 := by rw [BitVec.toNat_ofNat, Nat.mod_eq_of_lt (by omega)]
  have hz : s.nsw.toNat = 0 := by rw [hm]; rfl
  have hcount : s.Counts 0 0 1 (i + 3) := ⟨h1, h2, by omega⟩
  refine ⟨inv_openNal hi.core hr (by rw [hoff, hz]) hhi le_rfl hcount, inv_of_place (p := .delim) hi.core rfl ⟨hr, ?_, hm, h1, h2, ?_⟩⟩
  · exact hoff.trans_le hhi
  · exact (hoff.symm ▸ hcount.2.2 : s.nalCount.toNat + 1 ≤ (BitVec.ofNat 33 (i + 3)).toNat)

/-- The de-emulation loop. -/
theorem inv_epb (hi : s.Inv) (hp : s.phase = .epb) (h : EngineStep s t) : t.Inv := by
  obtain ⟨hm, hs, hc, hr, hv⟩ := hi.core
  obtain ⟨hsps, hki, him, hw⟩ : s.InSps ∧ _ := hi.place hp
  have hpay : s.payloadLen < 2 ^ 32 := (Nat.sub_le _ _).trans_lt s.nalLen.isLt
  cases h with
  | keep _ hlt b hb =>
    have hI : (s.epbI + 1).toNat = s.epbI.toNat + 1 := toNat_succ (by omega)
    have hK : (s.epbK + 1).toNat = s.epbK.toNat + 1 := toNat_succ (by omega)
    refine inv_of_place (p := .epb) ⟨⟨hm.1, Memory.write_wf _ _ _ hm.2⟩, hs, hc, hr, hv⟩ rfl ⟨hsps, ?_, ?_, ?_⟩
    · exact (by omega : (s.epbK + 1).toNat ≤ (s.epbI + 1).toNat)
    · exact (by omega : (s.epbI + 1).toNat ≤ s.payloadLen)
    · change (s.scrWrite s.epbK.toNat b).ScrWritten (s.epbK + 1).toNat
      rw [hK]
      exact scrWritten_write hw b
  | drop _ _ hlt =>
    have hI : (s.epbI + 1).toNat = s.epbI.toNat + 1 := toNat_succ (by omega)
    refine inv_of_place (p := .epb) hi.core rfl ⟨hsps, ?_, ?_, hw⟩
    · exact (by omega : s.epbK.toNat ≤ (s.epbI + 1).toNat)
    · exact (by omega : (s.epbI + 1).toNat ≤ s.payloadLen)
  | epbEnd _ _ => exact inv_of_place (p := .parsesps) hi.core rfl ⟨hsps, hw⟩
  | scNone h => simp [hp] at h
  | idle h | parsenals h | scLast h | scNext h | close h | lpEnd h | lpShort h | lpHead h | lpOver h | lpUnit h | nalunit h
  | malformed h | typed h | skip h | sps h | parsesps h | abort _ h | element _ h | endcall h => simp [hp] at h

/-- At any place but an element. -/
theorem inv_of_engineStep (hi : s.Inv) (hs : ∀ e, s.phase ≠ .sps e) (h : EngineStep s t) : t.Inv := by
  have hc := hi.core
  have h' := h
  cases h with
  | idle _ => exact hi
  | parsenals hp hn =>
    exact inv_of_place (p := .scan) (core_beginCall hc) rfl ⟨running_beginCall hn, Nat.zero_le _, le_rfl, le_rfl, le_rfl⟩
  | scNone hp hf =>
    obtain ⟨hp, -⟩ | hp := hp
    · exact inv_of_place (p := .endcall) hc rfl (hi.place hp)
    · obtain ⟨hr, ho, -, h1, h2, h3⟩ : s.Running ∧ _ := hi.place hp
      exact inv_of_place (p := .endcall) hc rfl ⟨hr, ho, h1, h2, Nat.le_of_succ_le h3⟩
  | scLast hp hm i hf _ => exact (inv_startCodeHead hi hp hm hf).1
  | scNext hp hm i j hf _ => exact (inv_startCodeHead hi hp hm hf).2
  | close hp j e hf he =>
    obtain ⟨hr, ho, hz, hn⟩ : s.Running ∧ _ := hi.place hp
    obtain ⟨hlo, hhi⟩ := findSc_room hf
    have hz : s.nsw.toNat = 0 := by rw [hz]; rfl
    exact inv_openNal hc hr (by rw [hz, Nat.add_zero]) (by omega) (by omega) hn
  | lpEnd hp _ _ _ => exact inv_of_place (p := .endcall) hc rfl (hi.place hp)
  | lpShort hp _ _ _ _ => exact inv_raiseScan hc (hi.place hp) _ _
  | lpHead hp hm _ _ hroom =>
    exact inv_of_place (p := .lpField) hc rfl ⟨hi.place hp, Nat.pos_of_ne_zero fun hz => hm (BitVec.eq_of_toNat_eq hz), hroom⟩
  | lpOver hp n _ => exact inv_raiseScan hc (hi.place hp : _ ∧ _).1 _ _
  | lpUnit hp _ n hroom =>
    obtain ⟨⟨hr, -, h1, h2, h3⟩, hw, -⟩ : s.Scanning ∧ _ := hi.place hp
    exact inv_openNal hc hr rfl (Nat.le_add_right _ _) hroom ⟨h1, h2, by omega⟩
  | nalunit hp =>
    obtain ⟨hr, hspan, h1, h2, h3⟩ : s.InUnit 0 0 1 := hi.place hp
    have hlen := s.len.isLt
    have ⟨_, ho, hl⟩ := hspan
    have hN : (s.nalCount + 1).toNat = s.nalCount.toNat + 1 := toNat_succ (by omega)
    refine inv_of_place (p := .header) hc rfl ⟨hr, hspan, h1, ?_, ?_⟩
    · exact (by omega : s.spsSeen.toNat + 1 ≤ (s.nalCount + 1).toNat)
    · exact (by omega : (s.nalCount + 1).toNat + 0 ≤ s.off.toNat + s.nsw.toNat)
  | malformed hp => exact inv_raiseSps hc (hi.place hp) _
  | typed hp hl ty => exact inv_of_place (p := .dispatch) hc rfl ⟨hi.place hp, hl⟩
  | skip hp _ => exact inv_nalReturn hc (inUnit_weaken (hi.place hp : _ ∧ _).1)
  | sps hp _ =>
    obtain ⟨⟨hr, hspan, h1, h2, h3⟩, hl⟩ : s.InUnit 0 1 0 ∧ _ := hi.place hp
    have hlt := s.nalCount.isLt
    have hS : (s.spsSeen + 1).toNat = s.spsSeen.toNat + 1 := toNat_succ (by omega)
    refine inv_of_place (p := .epb) hc rfl ⟨⟨⟨hr, hspan, ?_, ?_, h3⟩, hl⟩, le_rfl, Nat.zero_le _, nofun⟩
    · exact (by omega : s.spsOk.toNat + 1 ≤ (s.spsSeen + 1).toNat)
    · exact (by omega : (s.spsSeen + 1).toNat + 0 ≤ s.nalCount.toNat)
  | keep hp _ _ _ => exact inv_epb hi hp h'
  | drop hp _ _ => exact inv_epb hi hp h'
  | epbEnd hp _ => exact inv_epb hi hp h'
  | parsesps hp =>
    obtain ⟨hsps, hw⟩ : s.InSps ∧ _ := hi.place hp
    obtain ⟨hm, hst, -, hr, -⟩ := hc
    have hl := s.scrLen.isLt
    have ht : (BitVec.ofNat 36 (8 * s.scrLen.toNat)).toNat = 8 * s.scrLen.toNat := by
      rw [BitVec.toNat_ofNat, Nat.mod_eq_of_lt (by omega)]
    exact inv_of_place (p := .sps .videoParameterSetId) ⟨hm, hst, ⟨Nat.zero_le _, ht⟩, hr, nofun⟩ rfl
      ⟨hsps, ⟨rfl, hw, rfl⟩, nofun, trivial⟩
  | abort e hp => exact absurd hp (hs e)
  | element e hp => exact absurd hp (hs e)
  | endcall hp =>
    obtain ⟨hr, ho, h1, h2, h3⟩ : s.Scanning := hi.place hp
    obtain ⟨hm, ⟨hbits, hcode⟩, hcur, hrd, hv⟩ := hc
    have bit : ∀ j < 13, _ := Status.get_ended s.status (decide (s.spsOk.toNat > 0))
    refine inv_of_place (p := .idle) ⟨hm, ⟨fun i h3 h7 => ?_, hcode⟩, hcur, hrd, hv⟩ rfl ⟨bit 0 (by decide), ?_, h1, h2⟩
    · rw [bit i (by omega), if_neg (by omega), if_neg (by omega), if_neg (by omega)]
      exact hbits i h3 h7
    · rw [State.ok, bit _ (by decide)]
      exact decide_eq_true_iff

/-- Every step of the engine keeps the invariant. -/
theorem inv_of_engine (hi : s.Inv) (h : runFetched (fetchEngine s) = .next t) : t.Inv := by
  rcases engine_cases h with ⟨e, hp, he⟩ | ⟨hs, he⟩
  · exact inv_of_elementStep hi hp he
  · exact inv_of_engineStep hi hs he

end

end Sys2Proof.Machine
end

section
/-! SUPPORT. The host's accesses keep the invariant (10_state.md R21, 70_reset_and_hazards.md R270, 40_bitreader.md R130 to R137). -/

namespace Sys2Proof.Machine

open Sys2Proof

section
variable {s t : State}

/-! ## The reader used on its own -/

/-- `TOTAL` of a view that `BR.INIT` can bind, without wrap. -/
theorem reader_total_toNat {r : Reader} (h : r.view.length < 2 ^ 32) : r.total.toNat = 8 * r.view.length := by
  rw [Reader.total, BitVec.toNat_ofNat, Nat.mod_eq_of_lt (by omega)]

/-- Consuming bits leaves the cursor in the view. -/
theorem answerBits_cursor {n : Nat} {rp : BrReply} (hs : s.reader.pos.toNat ≤ s.reader.total.toNat)
    (h : answerBits n rp s = .next t) : t.reader.pos.toNat ≤ t.reader.total.toNat := by
  rcases Nat.lt_or_ge s.reader.remain n with hn | hn
  · rw [answerBits_short hn] at h
    cases h
    exact hs
  · rw [answerBits_room hn] at h
    cases h
    have ht := s.reader.total.isLt
    rw [Reader.remain] at hn
    change (BitVec.ofNat 36 (s.reader.pos.toNat + n)).toNat ≤ s.reader.total.toNat
    rw [BitVec.toNat_ofNat, Nat.mod_eq_of_lt (by omega)]
    omega

theorem readGolomb_cursor {v : UeCode → BitVec 33} (hs : s.reader.pos.toNat ≤ s.reader.total.toNat)
    (h : readGolomb v s = .next t) : t.reader.pos.toNat ≤ t.reader.total.toNat := by
  rw [readGolomb] at h
  split at h
  · exact answerBits_cursor hs h
  · cases h
    exact hs

/-- A width that is accepted reads. -/
theorem refused_or_cursor {n : Nat} {o : Out} (h : (if n = 0 ∨ n > Config.brMaxN then .refused .readBitsRange else o) = .next t) :
    o = .next t := by
  split at h
  · cases h
  · exact h

/-- Every request leaves the cursor in the view. -/
theorem reader_cursor_of_exec {i : Instr} (hf : i.fmt = .br ∨ i.fmt = .ue ∨ i.fmt = .se ∨ ∃ n, i.fmt = .u n) (hs : s.ReaderOk)
    (h : exec i s = .next t) : t.reader.pos.toNat ≤ t.reader.total.toNat := by
  obtain ⟨hcur, hview, -⟩ := hs
  cases i
  case brInit => cases h; exact Nat.zero_le _
  case readbits => exact answerBits_cursor hcur (refused_or_cursor h)
  case readflag => exact answerBits_cursor hcur h
  case readue => exact readGolomb_cursor hcur h
  case readse => exact readGolomb_cursor hcur h
  case skipbits => exact answerBits_cursor hcur h
  case bytealign =>
    cases h
    have htot := reader_total_toNat hview
    change (BitVec.ofNat 36 (8 * ((s.reader.pos.toNat + 7) / 8))).toNat ≤ s.reader.total.toNat
    rw [BitVec.toNat_ofNat, Nat.mod_eq_of_lt (by omega)]
    omega
  case brReserved => cases h
  case u => exact answerBits_cursor hcur (refused_or_cursor h)
  case ue => exact answerBits_cursor hcur h
  case se => exact answerBits_cursor hcur h
  all_goals simp [Instr.fmt] at hf

/-- A request keeps the invariant: it reaches the port alone. -/
theorem inv_of_request {i : Instr} (hf : i.fmt = .br ∨ i.fmt = .ue ∨ i.fmt = .se ∨ ∃ n, i.fmt = .u n) (hi : s.Inv)
    (h : exec i s = .next t) : t.Inv := by
  obtain ⟨hm, hst, hc, hr, hv⟩ := hi.core
  have hcur := reader_cursor_of_exec hf hr h
  obtain ⟨-, hview, harg⟩ := hr
  obtain ⟨rd, rp, hstep, rfl, -⟩ := exec_reader_next hf h
  have hlen : rd.view.length < 2 ^ 32 := by cases hstep <;> assumption
  exact inv_of_place ⟨hm, hst, hc, ⟨hcur, hlen, harg⟩, hv⟩ rfl (hi.place rfl)

/-! ## The registers and the buffer -/

/-- While no call is in progress the engine is idle. -/
theorem State.Inv.idle_of_not_busy (hi : s.Inv) (hb : ¬ s.busy = true) : s.phase = .idle :=
  Classical.not_not.1 fun hp => hb (hi.busyPhase.2 hp)

theorem inv_of_start (hi : s.Inv) (h : exec .start s = .next t) : t.Inv := by
  by_cases hb : s.busy = true
  · rw [exec_start_of_busy hb] at h
    cases h
    exact hi
  · change execStart s = _ at h
    rw [execStart, if_neg hb] at h
    split at h
    · cases h
    · split at h
      · cases h
      next hn =>
        cases h
        exact inv_of_place (p := .parsenals) (core_beginCall hi.core) rfl ⟨running_beginCall (Nat.not_lt.1 hn), le_rfl, le_rfl⟩

theorem inv_of_hostWrite {reg : Nat} {v : BitVec 32} (hi : s.Inv) (h : runFetched (hostWrite reg v s) = .next t) : t.Inv := by
  unfold hostWrite at h
  split at h
  · cases hv : v.getLsbD 0 <;> rw [hv] at h
    · rw [decode_ctrl_zero] at h
      cases h
      exact hi
    · exact inv_of_start hi h
  · split at h
    · cases h
    next hb =>
      cases h
      have hp := hi.idle_of_not_busy hb
      exact inv_of_place (p := .idle) hi.core hp (hi.place hp)
  · split at h
    · cases h
    next hb =>
      cases h
      have hp := hi.idle_of_not_busy hb
      exact inv_of_place (p := .idle) hi.core hp (hi.place hp)
  case h_16 => cases h
  all_goals
    cases h
    exact hi

theorem inv_of_hostWriteBuf {o : BitVec 32} {b : Byte} (hi : s.Inv) (h : runFetched (hostWriteBuf o b s) = .next t) : t.Inv := by
  unfold hostWriteBuf at h
  split at h
  · cases h
  · cases h
    obtain ⟨hm, hrest⟩ := hi.core
    exact inv_of_place ⟨⟨Memory.write_wf _ _ _ hm.1, hm.2⟩, hrest⟩ rfl (hi.place rfl)

theorem inv_of_hostRead {reg : Nat} (hi : s.Inv) (h : runFetched (hostRead reg s) = .next t) : t.Inv := by
  have data : ∀ v k, State.Inv { s with hostData := v, free := k } := fun v k => inv_of_place hi.core rfl (hi.place rfl)
  unfold hostRead at h
  split at h
  · cases h
  · split at h
    · split at h
      · cases h
        exact data _ _
      · cases h
    · split at h
      · cases h
      · cases h
        exact data _ _

theorem inv_of_hostCode {f : CodeFmt} (hi : s.Inv) (h : runFetched (hostCode f s) = .next t) : t.Inv := by
  unfold hostCode at h
  extract_lets fmt at h
  have hfmt : fmt = .ue ∨ fmt = .se ∨ ∃ n, fmt = .u n := by cases f <;> simp [fmt]
  split at h
  next i r hd =>
    refine inv_of_request (.inr ?_) hi h
    rw [(decoded_of_decode hd).2.1]
    exact hfmt
  · cases h
  · cases h
    exact inv_of_place hi.core rfl (hi.place rfl)

/-- Reset leaves the reader used on its own. -/
theorem inv_resetInput (hi : s.Inv) : s.resetInput.Inv := by
  obtain ⟨hm, hs, hc, -, hv⟩ := resetMeetsInvariant.core
  exact inv_of_place (p := .idle) ⟨hm, hs, hc, hi.core.2.2.2.1, hv⟩ rfl (resetMeetsInvariant.place (p := .idle) rfl)

theorem inv_of_host {a : HostAct} (hi : s.Inv) (h : runFetched (fetchHost a s) = .next t) : t.Inv := by
  cases a with
  | write reg v => exact inv_of_hostWrite hi h
  | read reg => exact inv_of_hostRead hi h
  | writeBuf o b => exact inv_of_hostWriteBuf hi h
  | reset => cases h; exact inv_resetInput hi
  | bindView v =>
    rw [fetchHost] at h
    split at h
    next hl =>
      cases h
      obtain ⟨hm, hs, hc, ⟨hcur, hview, -⟩, hv⟩ := hi.core
      exact inv_of_place ⟨hm, hs, hc, ⟨hcur, hview, hl⟩, hv⟩ rfl (hi.place rfl)
    · cases h
  | request w =>
    rw [fetchHost] at h
    obtain ⟨i, rest, hd, h⟩ := runFetched_decoded h
    exact inv_of_request (.inl (decoded_of_decode hd).2.1) hi h
  | code f => exact inv_of_hostCode hi h
  | pass => exact inv_of_engine hi h

/-- Every step keeps the invariant. -/
theorem inv_of_step (hi : s.Inv) (h : step s = .next t) : t.Inv := by
  cases hh : s.host with
  | nil => exact inv_of_engine hi ((step_engine hh).symm.trans h)
  | cons a rest =>
    have hi' : State.Inv { s with host := rest } := inv_of_place hi.core rfl (hi.place rfl)
    exact inv_of_host hi' ((step_host hh).symm.trans h)

/-- Settles O49: the engine's steps by the place they start from, the host's by the access. -/
theorem stepKeepsInvariant : Obligations.StepKeepsInvariant := fun _ _ => inv_of_step

end

end Sys2Proof.Machine
end

section
/-! SUPPORT. The path of `OFF` (10_state.md R24), and that the engine always has a next step over a filled buffer (20_memory.md R62,
60_exceptions.md R252). -/

namespace Sys2Proof.Machine

open Sys2Proof

section
variable {s t : State}

/-! ## `OFF` -/

/-- Away from the start of the scan a step leaves `OFF` or moves it on, within the buffer. -/
theorem off_of_step (hi : s.Inv) (hh : s.host = []) (h0 : s.phase ≠ .idle) (h1 : s.phase ≠ .parsenals) (h : step s = .next t) :
    s.off.toNat ≤ t.off.toNat ∧ t.off.toNat ≤ s.len.toNat := by
  have same : t.off = s.off → s.off.toNat ≤ t.off.toNat ∧ t.off.toNat ≤ s.len.toNat := fun heq => by
    rw [heq]
    exact ⟨le_rfl, hi.offLen h0 h1⟩
  have past : ∀ {u : State}, u.UnitSpan → u.off = s.off → u.len = s.len →
      s.off.toNat ≤ u.nalReturn.off.toNat ∧ u.nalReturn.off.toNat ≤ s.len.toNat := fun hu ho hl => by
    obtain ⟨hlo, hhi⟩ := nalReturn_off_bounds hu
    rw [ho] at hlo
    rw [hl] at hhi
    exact ⟨by omega, hhi⟩
  have code : ∀ {i}, s.findSc s.off.toNat = .ok (some i) →
      s.off.toNat ≤ (BitVec.ofNat 33 (i + 3)).toNat ∧ (BitVec.ofNat 33 (i + 3)).toNat ≤ s.len.toNat := fun hf => by
    obtain ⟨hlo, hhi⟩ := findSc_room hf
    have hlen := s.len.isLt
    rw [BitVec.toNat_ofNat, Nat.mod_eq_of_lt (by omega)]
    omega
  rcases engine_cases ((step_engine hh).symm.trans h) with ⟨e, hp, he⟩ | ⟨hs, he⟩
  · have hspan : s.UnitSpan := (hi.place hp : s.AtElement e).1.1.2.1
    cases he with
    | aborted v err hv _ => rw [State.raiseSps, hv]; exact past hspan rfl rfl
    | moved t e' hf _ _ _ => exact same (by rw [hf])
    | committed p _ _ => exact past hspan rfl rfl
  · cases he with
    | parsenals hp _ => exact absurd hp h1
    | scLast _ _ i hf _ => exact code hf
    | scNext _ _ i j hf _ => exact code hf
    | malformed hp => exact past (hi.place hp : s.InUnit 0 1 0).2.1 rfl rfl
    | skip hp _ => exact past (hi.place hp : s.InUnit 0 1 0 ∧ _).1.2.1 rfl rfl
    | abort e hp => exact absurd hp (hs e)
    | element e hp => exact absurd hp (hs e)
    | _ => exact same rfl

/-- Settles O52. -/
theorem offsetOnlyIncreases : Obligations.OffsetOnlyIncreases := fun _ _ => off_of_step

/-! ## Progress -/

theorem lengthField_next (w n : Nat) (s : State) : ∃ t, lengthField w n s = .next t := by
  rcases Nat.lt_or_ge s.len.toNat (s.off.toNat + w + n) with h | h
  · exact ⟨_, lengthField_truncated h⟩
  · exact ⟨_, lengthField_unit h⟩

/-- A length field of 1 to 4 bytes is an instruction that has a next state. -/
theorem decodeLp_next {w : Nat} (h1 : 1 ≤ w) (h4 : w ≤ 4) (v : Nat) (s : State) :
    ∃ i, decodeLp w v = .ok i ∧ ∃ t, exec i s = .next t := by
  match w, h1, h4 with
  | 1, _, _ | 2, _, _ | 3, _, _ | 4, _, _ => exact ⟨_, rfl, lengthField_next _ _ s⟩

theorem scanPrefixed_next (w : Nat) (s : State) : ∃ t, scanPrefixed w s = .next t := by
  rcases Nat.lt_or_ge s.off.toNat s.len.toNat with h | h
  · rcases Nat.lt_or_ge s.len.toNat (s.off.toNat + w) with hw | hw
    · exact ⟨_, scanPrefixed_truncated h hw⟩
    · exact ⟨_, scanPrefixed_field h hw⟩
  · exact ⟨_, scanPrefixed_end h⟩

/-- The search for start codes reads the buffer alone. -/
theorem scanStartCode_next (hw : s.BufWritten) : ∃ t, scanStartCode s = .next t := by
  obtain ⟨r, hr⟩ := findSc_written hw s.off.toNat
  rw [scanStartCode, hr]
  cases r with
  | none => exact ⟨_, rfl⟩
  | some i =>
    obtain ⟨r, hr⟩ := findSc_written hw (i + 3)
    simp only [ofRead, hr]
    cases r <;> exact ⟨_, rfl⟩

theorem closeSpan_total (hw : s.BufWritten) (trim : Bool) : ∃ t, closeSpan trim s = .next t := by
  obtain ⟨r, hr⟩ := findSc_written hw s.off.toNat
  rw [closeSpan, hr]
  cases r <;> exact ⟨_, rfl⟩

theorem exec_decodeNh_next (c : Cfg) (v : Nat) (s : State) : ∃ t, exec (decodeNh c v) s = .next t := by
  rw [decodeNh]
  split
  · exact ⟨_, rfl⟩
  · split <;> exact ⟨_, rfl⟩

section
variable (hi : s.Inv) (hh : s.host = []) (hw : s.BufWritten)
include hi hh hw

theorem step_scan_next (hp : s.phase = .scan) : ∃ t, step s = .next t := by
  rw [step_scan hh hp]
  rcases Nat.eq_zero_or_pos s.nsw.toNat with h0 | h1
  · rw [h0]
    exact scanStartCode_next hw
  · rw [exec_decodeNsw_prefixed h1 (hi.mode (by simp [hp]))]
    exact scanPrefixed_next _ s

theorem step_lpField_next (hp : s.phase = .lpField) : ∃ t, step s = .next t := by
  obtain ⟨-, h1, hroom⟩ : s.Scanning ∧ _ := hi.place hp
  obtain ⟨bs, hbs, hlen, -⟩ := bufBytes_written hw s.nsw.toNat s.off.toNat hroom
  obtain ⟨i, hd, t, ht⟩ := decodeLp_next h1 (hi.mode (by simp [hp])) (natOfBits (bitsOfBytes bs)) s
  refine ⟨t, ?_⟩
  rw [step_lpField hh hp, fetchLengthField, hbs]
  simp only [fetchRead, decode_lp s.cfg _ bs hlen, hd, runDecoded, runFetched, ht]

omit hi in
theorem step_delim_next (hp : s.phase = .delim) : ∃ t, step s = .next t := by
  rw [step_delim hh hp]
  obtain ⟨r, hr⟩ := findSc_written hw s.off.toNat
  cases r with
  | none =>
    rw [fetchDelimiter, hr]
    exact scanStartCode_next hw
  | some j =>
    have hj := findSc_some hr
    by_cases h4 : s.off.toNat < j ∧ s.buf.read? (j - 1) = some 0x00
    · rw [fetchDelimiter_sc4 hw hj h4.1 h4.2]
      exact closeSpan_total hw true
    · rw [fetchDelimiter_sc3 hw hj h4]
      exact closeSpan_total hw false

theorem step_header_next (hp : s.phase = .header) : ∃ t, step s = .next t := by
  have hroom := hi.unitLen (by rw [hp]; rfl)
  rw [step_header hh hp, fetchHeader]
  split
  · exact ⟨_, rfl⟩
  next hl =>
    obtain ⟨bs, hbs, hlen, -⟩ := bufBytes_written hw 2 s.nalOff.toNat (by omega)
    have hb : (bitsOfBytes bs).length = 16 := by rw [bitsOfBytes_length, hlen]
    have hd : decode s.cfg .nh (bitsOfBytes bs) = .ok (decodeNh s.cfg (natOfBits (bitsOfBytes bs)), []) := by
      rw [decode, if_neg (by omega), withU_exact 16 _ _ hb, accept]
    obtain ⟨t, ht⟩ := exec_decodeNh_next s.cfg (natOfBits (bitsOfBytes bs)) s
    exact ⟨t, by simp only [hbs, fetchRead, hd, runDecoded, runFetched, ht]⟩

theorem step_epb_next (hp : s.phase = .epb) : ∃ t, step s = .next t := by
  have hroom := hi.unitLen (by rw [hp]; rfl)
  have hlong := hi.header (.inr (by rw [hp]; rfl))
  have loop : ∃ t, exec .epbremove s = .next t := by
    rcases Nat.lt_or_ge s.epbI.toNat s.payloadLen with hlt | hge
    · have hlt' := hlt
      rw [State.payloadLen] at hlt'
      obtain ⟨b, hb, -⟩ := bufRead_written hw (i := s.payloadOff + s.epbI.toNat) (by rw [State.payloadOff]; omega)
      exact ⟨_, exec_epbremove_keep hlt hb⟩
    · exact ⟨_, exec_epbremove_end hge⟩
  rw [step_epb hh hp]
  by_cases hin : 2 ≤ s.epbI.toNat ∧ s.epbI.toNat < s.payloadLen
  · have hlt := hin.2
    rw [State.payloadLen] at hlt
    obtain ⟨bs, hbs, -, -⟩ := bufBytes_written hw 3 (s.nalOff.toNat + s.epbI.toNat) (by omega)
    rw [fetchEpb_inside hin.1 hin.2 hbs]
    split
    · exact ⟨_, rfl⟩
    · exact loop
  · rw [fetchEpb_outside (by omega)]
    exact loop

omit hw in
theorem step_sps_next {e : SpsElem} (hp : s.phase = .sps e) : ∃ t, step s = .next t := by
  obtain ⟨-, ⟨hv, hscr, -⟩, -⟩ : s.AtElement e := hi.place hp
  rw [step_sps hh hp, fetchElement]
  rcases codeAt_sps hv hscr hi.cursor hi.totalBytes e with h | h | ⟨i, h, hf, -⟩
  · rw [h]
    exact ⟨_, rfl⟩
  · rw [h]
    exact ⟨_, rfl⟩
  · rw [h]
    exact exec_element_next hf s

/-- The engine has a next step at every place. -/
theorem step_next : ∃ t, step s = .next t := by
  cases hp : s.phase with
  | idle => exact ⟨_, step_idle hh hp⟩
  | parsenals => exact ⟨_, (step_parsenals hh hp).trans (if_neg (Nat.not_lt.2 (hi.mode (by simp [hp]))))⟩
  | scan => exact step_scan_next hi hh hw hp
  | lpField => exact step_lpField_next hi hh hw hp
  | delim => exact step_delim_next hh hw hp
  | nalunit => exact ⟨_, step_nalunit hh hp⟩
  | header => exact step_header_next hi hh hw hp
  | dispatch =>
    rw [step_dispatch hh hp]
    change ∃ t, execDispatch s = .next t
    rw [execDispatch]
    split <;> exact ⟨_, rfl⟩
  | epb => exact step_epb_next hi hh hw hp
  | parsesps => exact ⟨_, step_parsesps hh hp⟩
  | sps e => exact step_sps_next hi hh hp
  | endcall => exact ⟨_, step_endcall hh hp⟩

end

/-- Settles O50. -/
theorem engineNeverStops : Obligations.EngineNeverStops := fun _ => step_next

end

end Sys2Proof.Machine
end

section
/-! SUPPORT. Every call ends (41_nal_scanner.md R171): each step inside a call makes `State.stepsLeft` smaller. -/

namespace Sys2Proof.Machine

open Sys2Proof

section
variable {s t : State}

/-! ## The parts of the measure -/

theorem scanSteps_congr (hb : t.buf = s.buf) (hl : t.len = s.len) (hn : t.nsw = s.nsw) (o : Nat) :
    t.scanSteps o = s.scanSteps o := by
  rw [State.scanSteps, State.scanSteps, hn, hl, findSc_congr hb hl]

theorem scanSteps_le (s : State) (o : Nat) : s.scanSteps o ≤ 60 * (s.len.toNat - o) + 2 := by
  rw [State.scanSteps]
  split
  · split
    next i hf =>
      have hlo := (findSc_room hf).1
      omega
    · omega
  · exact le_rfl

theorem scanSteps_found {o i : Nat} (hn : s.nsw = 0) (hf : s.findSc o = .ok (some i)) :
    s.scanSteps o = 60 * (s.len.toNat - i) + 2 := by rw [State.scanSteps, if_pos hn, hf]

theorem scanSteps_none {o : Nat} (hn : s.nsw = 0) (hf : s.findSc o = .ok none) : s.scanSteps o = 2 := by
  rw [State.scanSteps, if_pos hn, hf]

theorem scanSteps_prefixed (hn : s.nsw ≠ 0) (o : Nat) : s.scanSteps o = 60 * (s.len.toNat - o) + 2 := by
  rw [State.scanSteps, if_neg hn]

section
variable (hb : t.buf = s.buf) (hl : t.len = s.len) (hn : t.nsw = s.nsw)
include hb hl hn

theorem returnSteps_startCode (hm : s.nsw = 0) : t.returnSteps = s.scanSteps t.off.toNat := by
  rw [State.returnSteps, if_pos (hn.trans hm), scanSteps_congr hb hl hn]

theorem returnSteps_prefixed (hm : s.nsw ≠ 0) :
    t.returnSteps = s.scanSteps (t.off.toNat + s.nsw.toNat + t.nalLen.toNat) := by
  rw [State.returnSteps, if_neg (hn.trans_ne hm), scanSteps_congr hb hl hn, hn]

theorem returnSteps_congr (ho : t.off = s.off) (hL : t.nalLen = s.nalLen) : t.returnSteps = s.returnSteps := by
  rw [State.returnSteps, State.returnSteps, scanSteps_congr hb hl hn, scanSteps_congr hb hl hn, ho, hL, hn]

end

/-- The steps after the unit in hand are those of the scan it returns to. -/
theorem stepsLeft_nalReturn (h : s.UnitSpan) : s.nalReturn.stepsLeft = s.returnSteps := by
  have hsteps : s.nalReturn.stepsLeft = s.scanSteps s.nalReturn.off.toNat := by
    rw [State.stepsLeft, nalReturn_phase]
    exact scanSteps_congr (nalReturn_buf s) (nalReturn_len s) (nalReturn_nsw s) _
  obtain ⟨-, ho, hl⟩ := h
  have hlen := s.len.isLt
  rw [hsteps, State.returnSteps, nalReturn_off]
  split
  · rfl
  · rw [BitVec.toNat_ofNat, Nat.mod_eq_of_lt (by omega)]

theorem spanLen_found {o j : Nat} (hb : t.buf = s.buf) (hl : t.len = s.len) (ho : t.off.toNat = o)
    (hf : s.findSc o = .ok (some j)) : t.spanLen = j - o := by rw [State.spanLen, findSc_congr hb hl, ho, hf]

theorem elementSteps_pos {e : SpsElem} (h : s.SubIndexOk e) : 0 < s.elementSteps e := by
  have hi := s.subI.isLt
  have hn := s.nSub.isLt
  cases e <;> simp only [State.SubIndexOk, State.elementSteps] at h ⊢ <;> omega

/-! ## The measure at each place -/

theorem stepsLeft_parsenals (hp : s.phase = .parsenals) : s.stepsLeft = 60 * s.len.toNat + 3 := by rw [State.stepsLeft, hp]

theorem stepsLeft_scan (hp : s.phase = .scan) : s.stepsLeft = s.scanSteps s.off.toNat := by rw [State.stepsLeft, hp]

theorem stepsLeft_lpField (hp : s.phase = .lpField) : s.stepsLeft = 60 * (s.len.toNat - s.off.toNat) + 1 := by
  rw [State.stepsLeft, hp]

theorem stepsLeft_delim (hp : s.phase = .delim) : s.stepsLeft = 55 + s.spanLen + s.scanSteps s.off.toNat := by
  rw [State.stepsLeft, hp]

theorem stepsLeft_nalunit (hp : s.phase = .nalunit) : s.stepsLeft = 54 + s.nalLen.toNat + s.returnSteps := by
  rw [State.stepsLeft, hp]

theorem stepsLeft_header (hp : s.phase = .header) : s.stepsLeft = 53 + s.nalLen.toNat + s.returnSteps := by
  rw [State.stepsLeft, hp]

theorem stepsLeft_dispatch (hp : s.phase = .dispatch) : s.stepsLeft = 52 + s.nalLen.toNat + s.returnSteps := by
  rw [State.stepsLeft, hp]

theorem stepsLeft_epb (hp : s.phase = .epb) : s.stepsLeft = 49 + (s.payloadLen - s.epbI.toNat) + s.returnSteps := by
  rw [State.stepsLeft, hp]

theorem stepsLeft_parsesps (hp : s.phase = .parsesps) : s.stepsLeft = 48 + s.returnSteps := by rw [State.stepsLeft, hp]

theorem stepsLeft_sps {e : SpsElem} (hp : s.phase = .sps e) : s.stepsLeft = s.elementSteps e + s.returnSteps := by
  rw [State.stepsLeft, hp]

theorem stepsLeft_endcall (hp : s.phase = .endcall) : s.stepsLeft = 1 := by rw [State.stepsLeft, hp]

theorem stepsLeft_end (ht : t.phase = .endcall) (hs : 1 < s.stepsLeft) : t.stepsLeft < s.stepsLeft := by
  rwa [stepsLeft_endcall ht]

/-- Inside a unit the steps after it do not change. -/
theorem stepsLeft_inUnit {m n : Nat} (hs : s.stepsLeft = m + s.returnSteps) (ht : t.stepsLeft = n + t.returnSteps)
    (hb : t.buf = s.buf) (hl : t.len = s.len) (hn : t.nsw = s.nsw) (ho : t.off = s.off) (hL : t.nalLen = s.nalLen) (hlt : n < m) :
    t.stepsLeft < s.stepsLeft := by
  rw [hs, ht, returnSteps_congr hb hl hn ho hL]
  omega

/-- The return from it ends its own steps. -/
theorem stepsLeft_return {m : Nat} {u : State} (hs : s.stepsLeft = m + s.returnSteps) (hu : u.UnitSpan) (hb : u.buf = s.buf)
    (hl : u.len = s.len) (hn : u.nsw = s.nsw) (ho : u.off = s.off) (hL : u.nalLen = s.nalLen) (hm : 0 < m) :
    u.nalReturn.stepsLeft < s.stepsLeft := by
  rw [hs, stepsLeft_nalReturn hu, returnSteps_congr hb hl hn ho hL]
  omega

/-! ## Every step makes it smaller -/

section
variable (hi : s.Inv)
include hi

theorem stepsLeft_of_elementStep {e : SpsElem} (hp : s.phase = .sps e) (h : ElementStep s e t) : t.stepsLeft < s.stepsLeft := by
  obtain ⟨hsps, -, -, hidx⟩ : s.AtElement e := hi.place hp
  have hspan := hsps.1.2.1
  have hpos := elementSteps_pos hidx
  cases h with
  | aborted v err hv _ =>
    rw [State.raiseSps, hv]
    exact stepsLeft_return (stepsLeft_sps hp) (u := State.record _ _ _) hspan rfl rfl rfl rfl rfl hpos
  | moved t e' hf htp _ hn =>
    refine stepsLeft_inUnit (stepsLeft_sps hp) (stepsLeft_sps htp) ?_ ?_ ?_ ?_ ?_ (hn.steps hidx) <;> rw [hf]
  | committed p _ _ => exact stepsLeft_return (stepsLeft_sps hp) hspan rfl rfl rfl rfl rfl hpos

omit hi in
/-- The last unit in start-code mode, past a code of 3 bytes: nothing is left after it. -/
theorem stepsLeft_lastUnit {i : Nat} (hp : s.phase = .scan) (hm : s.nsw = 0) (hf : s.findSc s.off.toNat = .ok (some i))
    (hn : s.findSc (i + 3) = .ok none) (hb : t.buf = s.buf) (hl : t.len = s.len) (hw : t.nsw = s.nsw) (htp : t.phase = .nalunit)
    (ho : t.off.toNat = i + 3) (hL : t.nalLen.toNat = s.len.toNat - (i + 3)) : t.stepsLeft < s.stepsLeft := by
  obtain ⟨-, hhi⟩ := findSc_room hf
  rw [stepsLeft_scan hp, scanSteps_found hm hf, stepsLeft_nalunit htp, returnSteps_startCode hb hl hw hm, ho, scanSteps_none hm hn, hL]
  omega

omit hi in
/-- A unit in start-code mode with another one after it. -/
theorem stepsLeft_nextUnit {i j : Nat} (hp : s.phase = .scan) (hm : s.nsw = 0) (hf : s.findSc s.off.toNat = .ok (some i))
    (hn : s.findSc (i + 3) = .ok (some j)) (hb : t.buf = s.buf) (hl : t.len = s.len) (hw : t.nsw = s.nsw) (htp : t.phase = .delim)
    (ho : t.off.toNat = i + 3) : t.stepsLeft < s.stepsLeft := by
  obtain ⟨hlo, hhi⟩ := findSc_room hn
  rw [stepsLeft_scan hp, scanSteps_found hm hf, stepsLeft_delim htp, spanLen_found hb hl ho hn, scanSteps_congr hb hl hw, ho, scanSteps_found hm hn]
  omega

omit hi in
/-- A unit closed by the start code ahead. -/
theorem stepsLeft_closedUnit {j : Nat} (hp : s.phase = .delim) (hm : s.nsw = 0) (hf : s.findSc s.off.toNat = .ok (some j))
    (hb : t.buf = s.buf) (hl : t.len = s.len) (hw : t.nsw = s.nsw) (htp : t.phase = .nalunit) (ho : t.off = s.off)
    (hL : t.nalLen.toNat ≤ j - s.off.toNat) : t.stepsLeft < s.stepsLeft := by
  rw [stepsLeft_delim hp, stepsLeft_nalunit htp, spanLen_found rfl rfl rfl hf, returnSteps_startCode hb hl hw hm, ho]
  omega

omit hi in
/-- A unit after its length field. -/
theorem stepsLeft_prefixedUnit {n : Nat} (hp : s.phase = .lpField) (hm : s.nsw ≠ 0) (h1 : 1 ≤ s.nsw.toNat)
    (hroom : s.off.toNat + s.nsw.toNat + n ≤ s.len.toNat) (hb : t.buf = s.buf) (hl : t.len = s.len) (hw : t.nsw = s.nsw)
    (htp : t.phase = .nalunit) (ho : t.off = s.off) (hL : t.nalLen.toNat = n) : t.stepsLeft < s.stepsLeft := by
  rw [stepsLeft_lpField hp, stepsLeft_nalunit htp, returnSteps_prefixed hb hl hw hm, scanSteps_prefixed hm, ho, hL]
  omega

/-- At any place but an element. -/
theorem stepsLeft_of_engineStep (h0 : s.phase ≠ .idle) (hs : ∀ e, s.phase ≠ .sps e) (h : EngineStep s t) :
    t.stepsLeft < s.stepsLeft := by
  cases h with
  | idle hp => exact absurd hp h0
  | parsenals hp _ =>
    have hle : s.beginCall.scanSteps 0 ≤ 60 * (s.len.toNat - 0) + 2 := scanSteps_le s.beginCall 0
    have ht : (s.beginCall.goto .scan).stepsLeft = s.beginCall.scanSteps 0 :=
      (stepsLeft_scan rfl).trans (scanSteps_congr (s := s.beginCall) (t := s.beginCall.goto .scan) rfl rfl rfl 0)
    rw [stepsLeft_parsenals hp]
    omega
  | scNone hp hf =>
    obtain ⟨hp, hm⟩ | hp := hp
    · exact stepsLeft_end rfl (by rw [stepsLeft_scan hp, scanSteps_none hm hf]; exact Nat.one_lt_two)
    · exact stepsLeft_end rfl (by rw [stepsLeft_delim hp]; omega)
  | scLast hp hm i hf hn =>
    obtain ⟨-, hhi⟩ := findSc_room hf
    have hlen := s.len.isLt
    refine stepsLeft_lastUnit hp hm hf hn rfl rfl rfl rfl (?_ : (BitVec.ofNat 33 (i + 3)).toNat = _)
      (?_ : (BitVec.ofNat 32 (s.len.toNat - (i + 3))).toNat = _) <;> rw [BitVec.toNat_ofNat, Nat.mod_eq_of_lt (by omega)]
  | scNext hp hm i j hf hn =>
    obtain ⟨-, hhi⟩ := findSc_room hf
    have hlen := s.len.isLt
    refine stepsLeft_nextUnit hp hm hf hn rfl rfl rfl rfl (?_ : (BitVec.ofNat 33 (i + 3)).toNat = _)
    rw [BitVec.toNat_ofNat, Nat.mod_eq_of_lt (by omega)]
  | close hp j e hf he =>
    obtain ⟨-, ho, hm, -⟩ : s.Running ∧ _ := hi.place hp
    obtain ⟨hlo, hhi⟩ := findSc_room hf
    have hlen := s.len.isLt
    refine stepsLeft_closedUnit hp hm hf rfl rfl rfl rfl rfl (?_ : (BitVec.ofNat 32 (e - s.off.toNat)).toNat ≤ _)
    rw [BitVec.toNat_ofNat, Nat.mod_eq_of_lt (by omega)]
    omega
  | lpEnd hp hm _ _ | lpShort hp hm _ _ _ => exact stepsLeft_end rfl (by rw [stepsLeft_scan hp, scanSteps_prefixed hm]; omega)
  | lpHead hp hm _ _ _ =>
    rw [stepsLeft_scan hp, scanSteps_prefixed hm]
    exact Nat.lt_succ_self _
  | lpOver hp n _ =>
    obtain ⟨-, h1, hroom⟩ : s.Scanning ∧ _ := hi.place hp
    exact stepsLeft_end rfl (by rw [stepsLeft_lpField hp]; omega)
  | lpUnit hp hm n hroom =>
    obtain ⟨-, h1, -⟩ : s.Scanning ∧ _ := hi.place hp
    have hlen := s.len.isLt
    refine stepsLeft_prefixedUnit hp hm h1 hroom rfl rfl rfl rfl rfl
      (?_ : (BitVec.ofNat 32 (s.off.toNat + s.nsw.toNat + n - (s.off.toNat + s.nsw.toNat))).toNat = n)
    rw [Nat.add_sub_cancel_left, BitVec.toNat_ofNat, Nat.mod_eq_of_lt (by omega)]
  | nalunit hp =>
    exact stepsLeft_inUnit (stepsLeft_nalunit hp) (n := 53 + s.nalLen.toNat) rfl rfl rfl rfl rfl rfl (by omega)
  | malformed hp =>
    have hspan := (hi.place hp : s.InUnit 0 1 0).2.1
    exact stepsLeft_return (stepsLeft_header hp) hspan rfl rfl rfl rfl rfl (by omega)
  | typed hp _ _ => exact stepsLeft_inUnit (stepsLeft_header hp) (n := 52 + s.nalLen.toNat) rfl rfl rfl rfl rfl rfl (by omega)
  | skip hp _ =>
    have hspan := (hi.place hp : s.InUnit 0 1 0 ∧ _).1.2.1
    exact stepsLeft_return (stepsLeft_dispatch hp) hspan rfl rfl rfl rfl rfl (by omega)
  | sps hp _ =>
    exact stepsLeft_inUnit (stepsLeft_dispatch hp) (n := 49 + (s.nalLen.toNat - 2 - 0)) rfl rfl rfl rfl rfl rfl (by omega)
  | keep hp hlt _ _ | drop hp _ hlt =>
    have hpay : s.payloadLen < 2 ^ 32 := (Nat.sub_le _ _).trans_lt s.nalLen.isLt
    have hI : (s.epbI + 1).toNat = s.epbI.toNat + 1 := toNat_succ (by omega)
    exact stepsLeft_inUnit (stepsLeft_epb hp) (n := 49 + (s.payloadLen - (s.epbI + 1).toNat)) rfl rfl rfl rfl rfl rfl (by omega)
  | epbEnd hp _ => exact stepsLeft_inUnit (stepsLeft_epb hp) (n := 48) rfl rfl rfl rfl rfl rfl (by omega)
  | parsesps hp => exact stepsLeft_inUnit (stepsLeft_parsesps hp) (n := 47) rfl rfl rfl rfl rfl rfl (by omega)
  | abort e hp => exact absurd hp (hs e)
  | element e hp => exact absurd hp (hs e)
  | endcall hp => rw [stepsLeft_endcall hp]; exact Nat.zero_lt_one

theorem stepsLeft_of_step (hh : s.host = []) (h0 : s.phase ≠ .idle) (h : step s = .next t) : t.stepsLeft < s.stepsLeft := by
  rcases engine_cases ((step_engine hh).symm.trans h) with ⟨e, hp, he⟩ | ⟨hs, he⟩
  · exact stepsLeft_of_elementStep hi hp he
  · exact stepsLeft_of_engineStep hi h0 hs he

end

/-! ## The end of the call -/

/-- Only `ENDCALL` makes the engine idle, and it sets `DONE`. -/
theorem done_of_step (hh : s.host = []) (h0 : s.phase ≠ .idle) (h : step s = .next t) (ht : t.phase = .idle) : t.done = true := by
  rcases engine_cases ((step_engine hh).symm.trans h) with ⟨e, hp, he⟩ | ⟨hs, he⟩
  · cases he with
    | aborted v err _ _ => rw [State.raiseSps, nalReturn_phase] at ht; cases ht
    | moved t e' _ htp _ _ => rw [htp] at ht; cases ht
    | committed p _ _ => rw [nalReturn_phase] at ht; cases ht
  · cases he with
    | idle hp => exact absurd hp h0
    | malformed _ => rw [nalReturn_phase] at ht; cases ht
    | skip _ _ => rw [nalReturn_phase] at ht; cases ht
    | abort e hp => exact absurd hp (hs e)
    | element e hp => exact absurd hp (hs e)
    | endcall _ => exact Status.get_ended s.status _ 1 (by decide)
    | _ => cases ht

theorem bufWritten_of_step (hw : s.BufWritten) (hh : s.host = []) (h : step s = .next t) : t.BufWritten ∧ t.host = [] := by
  have hf := engineFrame_of_step hh h
  rw [hf]
  exact ⟨hw, hh⟩

/-- A call in progress ends, within the measure. -/
theorem call_ends (n : Nat) (hi : s.Inv) (hh : s.host = []) (hw : s.BufWritten) (h0 : s.phase ≠ .idle) (hn : s.stepsLeft ≤ n) :
    ∃ k ≤ s.stepsLeft, ∃ t, Sys2Proof.core.run k s = .next t ∧ t.Inv ∧ t.phase = .idle ∧ t.done = true := by
  induction n generalizing s with
  | zero =>
    obtain ⟨u, hu⟩ := step_next hi hh hw
    have hlt := stepsLeft_of_step hi hh h0 hu
    omega
  | succ n ih =>
    obtain ⟨u, hu⟩ := step_next hi hh hw
    have hlt := stepsLeft_of_step hi hh h0 hu
    have hui := inv_of_step hi hu
    obtain ⟨hwu, hhu⟩ := bufWritten_of_step hw hh hu
    by_cases hp : u.phase = .idle
    · exact ⟨1, by omega, u, run_succ 0 hu, hui, hp, done_of_step hh h0 hu hp⟩
    · obtain ⟨k, hk, t, ht, hend⟩ := ih hui hhu hwu hp (by omega)
      exact ⟨k + 1, by omega, t, (run_succ k hu).trans ht, hend⟩

/-- Settles O51: `START` leaves the measure at `60 * LEN + 3`. -/
theorem callTerminates : Obligations.CallTerminates := by
  intro s hi hh hw hp hl hn h4
  have hb : s.busy = false := (hi.place hp : s.busy = false ∧ _).1
  have hstart : exec .start s = .next (s.beginCall.goto .parsenals) := by
    rw [exec_start_of_idle hb hl hn, if_neg (Nat.not_lt.2 h4)]
  obtain ⟨k, hk, t, ht, hti, htp, hd⟩ := call_ends _ (inv_of_start hi hstart) hh hw nofun le_rfl
  obtain ⟨hbt, hok, -⟩ : t.busy = false ∧ _ := hti.place htp
  exact ⟨_, hstart, k, hk, t, ht, htp, hbt, hd, fun hv => hok.2 (hti.validOk hv)⟩

end

end Sys2Proof.Machine
end

section
/-! SUPPORT. The SPS decode of a payload too short for `general_level_idc` (43_sps_decoder.md R232): the ten elements up to it
take 104 bits, 13 bytes, and every code after it takes at least one more. -/

namespace Sys2Proof.Machine

open Sys2Proof

/-- The bits from an element to the end of `general_level_idc`; none past it. -/
def preambleBits : SpsElem → Nat
  | .videoParameterSetId => 104
  | .maxSubLayersMinus1 => 100
  | .temporalIdNestingFlag => 97
  | .generalProfileSpace => 96
  | .generalTierFlag => 94
  | .generalProfileIdc => 93
  | .generalCompatibilityFlags => 88
  | .generalSourceFlags => 56
  | .generalConstraintBlock => 52
  | .generalLevelIdc => 8
  | _ => 0

/-- A fixed-width field is never malformed. -/
theorem withU_ne_malformed {n : Nat} {bs : Bits} {k : Nat → Bits → Except Reject (Instr × Bits)}
    (hk : ∀ v r, k v r ≠ .error .malformedCode) : withU n bs k ≠ .error .malformedCode := by
  rcases withU_cases n bs k with ⟨-, h⟩ | ⟨-, h⟩ <;> rw [h]
  · nofun
  · exact hk _ _

theorem accept_ne_malformed {i : Instr} {r : Bits} : accept i r ≠ .error .malformedCode := fun h => by cases h

/-- Only the codes past the preamble can be malformed, and only where bits are left. -/
theorem preambleBits_of_malformed {e : SpsElem} {bs : Bits} (h : decodeSps e bs = .error .malformedCode) :
    preambleBits e = 0 ∧ bs ≠ [] := by
  have fixed : ∀ {n} {mk : Nat → Instr}, (withU n bs fun v r => accept (mk v) r) ≠ .error .malformedCode :=
    withU_ne_malformed fun _ _ => accept_ne_malformed
  refine ⟨?_, fun hnil => by rw [hnil] at h; cases e <;> cases h⟩
  cases e
  case generalConstraintBlock =>
    rw [decodeSps] at h
    exact absurd h (withU_ne_malformed fun _ _ => withU_ne_malformed fun _ _ => accept_ne_malformed)
  case videoParameterSetId | maxSubLayersMinus1 | temporalIdNestingFlag | generalProfileSpace | generalTierFlag | generalProfileIdc
    | generalCompatibilityFlags | generalSourceFlags | generalLevelIdc =>
    rw [decodeSps] at h
    exact absurd h fixed
  all_goals rfl

/-- No element is empty. -/
theorem encode_length_pos {c : Cfg} {i : Instr} {e : SpsElem} (hf : i.fmt = .sps e) : 0 < (encode c i).length := by
  cases i <;> simp only [Instr.fmt, reduceCtorEq, Fmt.sps.injEq] at hf <;> subst hf <;>
    simp [encode, bitsOfBv_length, UeCode.bits_length]

section
variable {s t : State} {e : SpsElem}

/-- What a step at an element does with the bits left: too few abort it, a 33rd zero does, and else it runs an instruction whose
encoding fits. -/
theorem step_sps_outcome (hi : s.Inv) (hh : s.host = []) (hp : s.phase = .sps e) :
    step s = .next ((s.passed e (s.elementBits e)).raiseSps .bitstreamExhausted) ∨
      decodeSps e (s.elementBits e) = .error .malformedCode ∨
      ∃ i, i.fmt = .sps e ∧ (encode s.cfg i).length ≤ s.remain ∧ step s = exec i s := by
  obtain ⟨-, ⟨hv, hw, -⟩, -⟩ : s.AtElement e := hi.place hp
  obtain ⟨hnone, hlen⟩ := window_scr hv hw hi.cursor hi.totalBytes (maxBits e)
  have hstep := step_sps hh hp
  rw [fetchElement, State.codeAt, decode] at hstep
  rcases decodeSps_cases s.cfg e (s.elementBits e) with ⟨m, hd⟩ | hd | ⟨i, rest, hd, hf, hwf⟩
  · simp only [hd, hnone] at hstep
    exact .inl hstep
  · exact .inr (.inl hd)
  · refine .inr (.inr ⟨i, hf, ?_, by simpa only [hd, runFetched] using hstep⟩)
    obtain ⟨-, -, hbits⟩ := decoded_of_decode (c := s.cfg) (f := .sps e) hd
    have hne : i ≠ .nalShort := fun h => by rw [h] at hf; cases hf
    have hle := congrArg List.length (hbits hne)
    rw [List.length_append, State.elementBits, hlen] at hle
    omega

/-- An instruction of the preamble with room for its bits moves on by them. -/
theorem exec_preamble {i : Instr} (hf : i.fmt = .sps e) (he : 0 < preambleBits e) (hr : (encode s.cfg i).length ≤ s.remain) :
    ∃ t e', exec i s = .next t ∧ t.phase = .sps e' ∧ t.pos = (s.advance (encode s.cfg i).length).pos ∧
      preambleBits e = preambleBits e' + (encode s.cfg i).length := by
  have run : ∀ {n : Nat} {k : State → State} {e' : SpsElem}, n ≤ s.remain → (k (s.advance n)).phase = .sps e' →
      (k (s.advance n)).pos = (s.advance n).pos → preambleBits e = preambleBits e' + n →
      ∃ t e', element n s k = .next t ∧ t.phase = .sps e' ∧ t.pos = (s.advance n).pos ∧ preambleBits e = preambleBits e' + n :=
    fun hr hph hpos hle => ⟨_, _, element_room hr rfl, hph, hpos, hle⟩
  cases i <;> simp only [Instr.fmt, reduceCtorEq, Fmt.sps.injEq] at hf <;> subst hf
  case spsGeneralConstraintBlock v =>
    simp only [encode, bitsOfBv_length] at hr ⊢
    rw [exec_constraintBlock_room hr]
    exact run hr rfl rfl (by decide)
  case spsGeneralLevelIdc v =>
    simp only [exec, execSpsGeneralLevelIdc, encode, bitsOfBv_length] at hr ⊢
    by_cases h0 : s.nSub = 0
    · exact run (e' := .seqParameterSetId) hr (if_pos h0) rfl (by decide)
    · exact run (e' := .subLayerPresentFlags) hr (if_neg h0) rfl (by decide)
  case spsVideoParameterSetId | spsMaxSubLayersMinus1 | spsTemporalIdNestingFlag | spsGeneralProfileSpace | spsGeneralTierFlag
    | spsGeneralProfileIdc | spsGeneralCompatibilityFlags | spsGeneralSourceFlags =>
    simp only [exec, execSpsVideoParameterSetId, execSpsMaxSubLayersMinus1, execSpsTemporalIdNestingFlag,
      execSpsGeneralProfileSpace, execSpsGeneralTierFlag, execSpsGeneralProfileIdc, execSpsGeneralCompatibilityFlags,
      execSpsGeneralSourceFlags, encode, bitsOfBv_length] at hr ⊢
    exact run hr rfl rfl (by decide)
  all_goals exact absurd he (Nat.lt_irrefl 0)

theorem State.SpsFrame.trans {u : State} (h : s.SpsFrame t) (h' : t.SpsFrame u) : s.SpsFrame u := by
  rw [State.SpsFrame, h', h]

theorem spsFrame_passed (s : State) (e : SpsElem) (bs : Bits) : s.SpsFrame (s.passed e bs) := by
  rw [State.SpsFrame, passed_frame]

/-- An element that leads to another one writes the cursor and the staging registers. -/
theorem spsFrame_of_step {e' : SpsElem} (hh : s.host = []) (hp : s.phase = .sps e) (h : step s = .next t) (ht : t.phase = .sps e') :
    s.SpsFrame t := by
  cases elementStep_of_fetch hp ((step_engine hh).symm.trans h) with
  | aborted v err _ _ => rw [State.raiseSps, nalReturn_phase] at ht; cases ht
  | moved _ _ hf _ _ _ => exact hf
  | committed p _ _ => rw [nalReturn_phase] at ht; cases ht

/-- Where no more bits are left than the preamble still needs, the decode ends in `BitstreamExhausted`. -/
theorem short_decode_aborts (n : Nat) (hi : s.Inv) (hh : s.host = []) (hp : s.phase = .sps e) (hr : s.remain ≤ preambleBits e)
    (hn : preambleBits e < n) :
    ∃ k v, Sys2Proof.core.run k s = .next (v.raiseSps .bitstreamExhausted) ∧ s.SpsFrame v := by
  induction n generalizing s e with
  | zero => exact absurd hn (Nat.not_lt_zero _)
  | succ n ih =>
    rcases step_sps_outcome hi hh hp with h | h | ⟨i, hf, hroom, h⟩
    · exact ⟨1, _, run_succ 0 h, spsFrame_passed s e _⟩
    · obtain ⟨he, hne⟩ := preambleBits_of_malformed h
      have hempty : (s.elementBits e).length = 0 :=
        Nat.le_zero.1 ((viewBits_length_le _ _ _).trans ((Nat.min_le_right _ _).trans (hr.trans he.le)))
      exact absurd (List.length_eq_zero_iff.1 hempty) hne
    · have hpos := encode_length_pos (c := s.cfg) hf
      obtain ⟨t, e', ht, hpt, hadv, hbits⟩ := exec_preamble hf (by omega) hroom
      have hstep := h.trans ht
      have hframe := spsFrame_of_step hh hp hstep hpt
      have htotal : t.total = s.total := by rw [hframe]
      have hrem : t.remain = s.remain - (encode s.cfg i).length := by
        rw [← remain_advance hroom, State.remain, hadv, htotal]
        rfl
      obtain ⟨k, v, hrun, hv⟩ := ih (inv_of_step hi hstep) (by rw [hframe]; exact hh) hpt (by omega) (by omega)
      exact ⟨k + 1, v, (run_succ k hstep).trans hrun, hframe.trans hv⟩

/-- Settles O58: `PARSESPS` binds at most 104 bits, all of which the preamble needs. -/
theorem shortPayloadNeverCommits : Obligations.ShortPayloadNeverCommits := by
  intro s hi hh hp hl
  have hstep : step s = .next (({ s with valid := false }.bind { base := 0, len := s.scrLen }).goto (.sps .videoParameterSetId)) :=
    step_parsesps hh hp
  have hr : State.remain (({ s with valid := false }.bind { base := 0, len := s.scrLen }).goto (.sps .videoParameterSetId)) ≤
      preambleBits .videoParameterSetId := by
    change (BitVec.ofNat 36 (8 * s.scrLen.toNat)).toNat - 0 ≤ 104
    rw [BitVec.toNat_ofNat, Nat.mod_eq_of_lt (by omega)]
    omega
  obtain ⟨k, v, hrun, hv⟩ := short_decode_aborts _ (inv_of_step hi hstep) hh rfl hr (Nat.lt_succ_self _)
  refine ⟨k + 1, _, (run_succ k hstep).trans hrun, ?_⟩
  rw [State.raiseSps, hv]
  simp [Err.code]

end

end Sys2Proof.Machine
end

section
/-! SUPPORT. A whole SPS up to its last element (43_sps_decoder.md R200 to R231): each element whose bits stand at the cursor leads to the next, and
the chain of them to the commit. -/

namespace Sys2Proof.Machine

open Sys2Proof

section
variable {s t u : State}

/-! ## The bits at the cursor, element after element -/

theorem advance_pos_toNat {n : Nat} (h : n ≤ s.remain) : (s.advance n).pos.toNat = s.pos.toNat + n := by
  have ht := s.total.isLt
  have hp := s.pos.isLt
  rw [State.remain] at h
  rw [advance_pos, BitVec.toNat_ofNat, Nat.mod_eq_of_lt (by omega)]

theorem cursorAt_left {a b : Bits} (h : s.CursorAt (a ++ b)) : s.CursorAt a := by
  obtain ⟨hl, hk⟩ := h
  rw [List.length_append] at hl
  refine ⟨by omega, fun k hka => ?_⟩
  have := hk k (by rw [List.length_append]; omega)
  rwa [List.getElem_append_left hka] at this

/-- Past the first bits the others stand at the cursor. -/
theorem cursorAt_right {a b : Bits} (h : s.CursorAt (a ++ b)) (hf : s.SpsFrame t) (hp : t.pos = (s.advance a.length).pos) :
    t.CursorAt b := by
  obtain ⟨hl, hk⟩ := h
  rw [List.length_append] at hl
  have hpos : t.pos.toNat = s.pos.toNat + a.length := by rw [hp, advance_pos_toNat (by omega)]
  have htotal : t.total = s.total := by rw [hf]
  have hbit : ∀ p, t.viewBit p = s.viewBit p := fun p => by rw [hf]; rfl
  refine ⟨?_, fun k hkb => ?_⟩
  · rw [State.remain] at hl ⊢
    rw [htotal, hpos]
    omega
  · have := hk (a.length + k) (by rw [List.length_append]; omega)
    rw [List.getElem_append_right (by omega)] at this
    rw [hbit, hpos, Nat.add_assoc, this]
    simp

/-! ## What the elements of an SPS without sub-layers stage -/

/-- The registers the elements stage the record in (10_state.md R23), and `N_SUB`. -/
structure Staging where
  nSub : BitVec 3
  profile : BitVec 5
  rext : BitVec 8
  level : BitVec 8
  chroma : BitVec 2
  depth : BitVec 5

/-- Those of a state. -/
def State.staging (s : State) : Staging := ⟨s.nSub, s.tProfile, s.tRext, s.tLevel, s.tChroma, s.tDepth⟩

/-- The element after `i` and what is staged then, for an element that is decoded without error and without sub-layers. -/
def elementNext (c : Cfg) (st : Staging) : Instr → Option (SpsElem × Staging)
  | .spsVideoParameterSetId _ => some (.maxSubLayersMinus1, st)
  | .spsMaxSubLayersMinus1 v => some (.temporalIdNestingFlag, { st with nSub := v })
  | .spsTemporalIdNestingFlag _ => some (.generalProfileSpace, st)
  | .spsGeneralProfileSpace _ => some (.generalTierFlag, st)
  | .spsGeneralTierFlag _ => some (.generalProfileIdc, st)
  | .spsGeneralProfileIdc v => some (.generalCompatibilityFlags, { st with profile := v })
  | .spsGeneralCompatibilityFlags _ => some (.generalSourceFlags, st)
  | .spsGeneralSourceFlags _ => some (.generalConstraintBlock, st)
  | .spsGeneralConstraintBlock v =>
    some (.generalLevelIdc, { st with rext := if st.profile = c.rextIdc then Config.rextMap v else 0 })
  | .spsGeneralLevelIdc v => if st.nSub = 0 then some (.seqParameterSetId, { st with level := v }) else none
  | .spsSeqParameterSetId _ => some (.chromaFormatIdc, st)
  | .spsChromaFormatIdc c =>
    if 3 < ueValue c then none
    else some (if ueValue c = 3 then .separateColourPlaneFlag else .picWidth, { st with chroma := BitVec.ofNat 2 (ueValue c) })
  | .spsSeparateColourPlaneFlag _ => some (.picWidth, st)
  | .spsPicWidth _ => some (.picHeight, st)
  | .spsPicHeight _ => some (.conformanceWindowFlag, st)
  | .spsConformanceWindowFlag v => some (if v = 1 then .conformanceWindowOffsets else .bitDepthLuma, st)
  | .spsConformanceWindowOffsets _ _ _ _ => some (.bitDepthLuma, st)
  | .spsBitDepthLuma c =>
    if 8 < ueValue c then none else some (.bitDepthChroma, { st with depth := BitVec.ofNat 5 (ueValue c + 8) })
  | _ => none

/-- The same for elements one after the other, the first of them at `e`. -/
def elementsNext (c : Cfg) : SpsElem → Staging → List Instr → Option (SpsElem × Staging)
  | e, st, [] => some (e, st)
  | e, st, i :: is => if i.fmt = .sps e then (elementNext c st i).bind fun p => elementsNext c p.1 p.2 is else none

/-- `t` is past the bits of `i`, at `e`, with this staged, and else as `s`. -/
structure PastElement (s : State) (n : Nat) (e : SpsElem) (st : Staging) (t : State) : Prop where
  frame : s.SpsFrame t
  pos : t.pos = (s.advance n).pos
  phase : t.phase = .sps e
  staging : t.staging = st

/-- With room for its bits an element does what `elementNext` says. -/
theorem exec_elementNext {i : Instr} {e : SpsElem} {st : Staging} (h : elementNext s.cfg s.staging i = some (e, st))
    (hr : (encode s.cfg i).length ≤ s.remain) :
    ∃ t, exec i s = .next t ∧ PastElement s (encode s.cfg i).length e st t := by
  have run : ∀ {n : Nat} {k : State → State}, n ≤ s.remain → PastElement s n e st (k (s.advance n)) →
      ∃ t, element n s k = .next t ∧ PastElement s n e st t := fun hr hk => ⟨_, element_room hr rfl, hk⟩
  cases i <;> simp only [elementNext, reduceCtorEq, Option.some.injEq, Prod.mk.injEq] at h
  case spsGeneralConstraintBlock v =>
    obtain ⟨rfl, rfl⟩ := h
    simp only [encode, bitsOfBv_length] at hr ⊢
    rw [exec_constraintBlock_room hr]
    exact run hr ⟨rfl, rfl, rfl, rfl⟩
  case spsConformanceWindowOffsets c1 c2 c3 c4 =>
    obtain ⟨rfl, rfl⟩ := h
    have hlen : (encode s.cfg (.spsConformanceWindowOffsets c1 c2 c3 c4)).length =
        ueLength c1 + ueLength c2 + ueLength c3 + ueLength c4 := by simp [encode, UeCode.bits_length, ueLength]; omega
    rw [hlen] at hr ⊢
    rw [exec_windowOffsets_room hr]
    exact run hr ⟨rfl, rfl, rfl, rfl⟩
  case spsGeneralLevelIdc v =>
    split at h
    next h0 =>
      obtain ⟨rfl, rfl⟩ := Prod.mk.inj (Option.some.inj h)
      simp only [exec, execSpsGeneralLevelIdc, encode, bitsOfBv_length] at hr ⊢
      exact run hr ⟨rfl, rfl, if_pos h0, rfl⟩
    · cases h
  case spsChromaFormatIdc c =>
    split at h
    · cases h
    next h3 =>
      obtain ⟨rfl, rfl⟩ := Prod.mk.inj (Option.some.inj h)
      simp only [exec, execSpsChromaFormatIdc, if_neg h3, encode, UeCode.bits_length] at hr ⊢
      exact run hr ⟨rfl, rfl, (apply_ite Phase.sps _ _ _).symm, rfl⟩
  case spsBitDepthLuma c =>
    split at h
    · cases h
    next h8 =>
      obtain ⟨rfl, rfl⟩ := Prod.mk.inj (Option.some.inj h)
      simp only [exec, execSpsBitDepthLuma, if_neg h8, encode, UeCode.bits_length] at hr ⊢
      exact run hr ⟨rfl, rfl, rfl, rfl⟩
  case spsConformanceWindowFlag v =>
    obtain ⟨rfl, rfl⟩ := h
    simp only [exec, execSpsConformanceWindowFlag, encode, bitsOfBv_length] at hr ⊢
    exact run hr ⟨rfl, rfl, (apply_ite Phase.sps _ _ _).symm, rfl⟩
  all_goals
    obtain ⟨rfl, rfl⟩ := h
    simp only [exec, execSpsVideoParameterSetId, execSpsMaxSubLayersMinus1, execSpsTemporalIdNestingFlag,
      execSpsGeneralProfileSpace, execSpsGeneralTierFlag, execSpsGeneralProfileIdc, execSpsGeneralCompatibilityFlags,
      execSpsGeneralSourceFlags, execSpsSeqParameterSetId, execSpsSeparateColourPlaneFlag, execSpsPicWidth, execSpsPicHeight,
      encode, bitsOfBv_length, UeCode.bits_length] at hr ⊢
    exact run hr ⟨rfl, rfl, rfl, rfl⟩

theorem encodeAll_cons (c : Cfg) (i : Instr) (is : List Instr) : encodeAll c (i :: is) = encode c i ++ encodeAll c is := rfl

theorem encodeAll_append (c : Cfg) (is js : List Instr) : encodeAll c (is ++ js) = encodeAll c is ++ encodeAll c js := by
  rw [encodeAll, List.map_append, List.flatten_append, encodeAll, encodeAll]

/-- Where the encodings stand at the cursor, each step takes one element, and the cursor ends past them. -/
theorem run_elementsNext {is : List Instr} {e e' : SpsElem} {st : Staging} {bs : Bits} (hh : s.host = []) (hp : s.phase = .sps e)
    (hw : ∀ i ∈ is, i.wf s.cfg = true) (hat : s.CursorAt (encodeAll s.cfg is ++ bs))
    (h : elementsNext s.cfg e s.staging is = some (e', st)) :
    ∃ t, (∀ m, Sys2Proof.core.run (is.length + m) s = Sys2Proof.core.run m t) ∧ t.CursorAt bs ∧
      PastElement s (encodeAll s.cfg is).length e' st t := by
  induction is generalizing s e with
  | nil =>
    obtain ⟨rfl, rfl⟩ := Prod.mk.inj (Option.some.inj h)
    refine ⟨s, fun m => by rw [List.length_nil, Nat.zero_add], hat, rfl, ?_, hp, rfl⟩
    exact congrArg State.pos (advance_zero s).symm
  | cons i is ih =>
    rw [elementsNext] at h
    split at h
    next hf =>
      obtain ⟨⟨e1, st1⟩, hnext, hrest⟩ := Option.bind_eq_some_iff.1 h
      rw [encodeAll_cons, List.append_assoc] at hat
      have hroom := (cursorAt_left hat).1
      obtain ⟨u, hexec, hframe, hpos, hphase, hst⟩ := exec_elementNext hnext hroom
      have hstep : step s = .next u :=
        (stepRunsElement s e i hh hp hf (hw i (by simp)) (cursorAt_left hat)).trans hexec
      have hcfg : u.cfg = s.cfg := by rw [hframe]
      have hat' := cursorAt_right hat hframe hpos
      rw [← hcfg] at hat' hrest
      obtain ⟨t, hrun, hend, hframe', hpos', hphase', hst'⟩ := ih (by rw [hframe]; exact hh) hphase
        (fun j hj => by rw [hcfg]; exact hw j (by simp [hj])) hat' (hst ▸ hrest)
      refine ⟨t, fun m => ?_, hend, hframe.trans hframe', ?_, hphase', hst'⟩
      · rw [List.length_cons, Nat.add_right_comm]
        exact (run_succ _ hstep).trans (hrun m)
      · have hadv := congrArg BitVec.toNat hpos
        rw [advance_pos_toNat hroom] at hadv
        rw [hpos', hcfg, advance_pos, advance_pos, hadv, encodeAll_cons, List.length_append, Nat.add_assoc]
    · cases h

/-! ## From the first element to the commit -/

theorem viewBit_of_read {p : Nat} {b : Byte} (h : s.scrRead (s.view.base.toNat + p / 8) = .ok b) :
    s.viewBit p = .ok (b.getLsbD (7 - p % 8)) := by rw [State.viewBit, State.viewByte, h]

/-- What `PARSESPS` makes of a state: the payload bound, the first element next (R200). -/
def State.bound (s : State) : State :=
  ({ s with valid := false }.bind { base := 0, len := s.scrLen }).goto (.sps .videoParameterSetId)

theorem step_parsesps_bound (hh : s.host = []) (hp : s.phase = .parsesps) : step s = .next s.bound := step_parsesps hh hp

/-- The de-emulated payload is what `PARSESPS` binds. -/
theorem cursorAt_of_payload {bs : Bits} (h : s.PayloadBegins bs) :
    s.bound.CursorAt bs := by
  obtain ⟨hl, hk⟩ := h
  have hlen := s.scrLen.isLt
  refine ⟨?_, fun k hkb => ?_⟩
  · change bs.length ≤ (BitVec.ofNat 36 (8 * s.scrLen.toNat)).toNat - 0
    rw [BitVec.toNat_ofNat, Nat.mod_eq_of_lt (by omega)]
    exact hl
  · obtain ⟨b, hb, hbit⟩ := hk k hkb
    have hread : s.scrRead (k / 8) = .ok b := (scrRead_ok_iff s _ b).2 ⟨by omega, hb⟩
    refine (viewBit_of_read (b := b) ?_).trans ?_
    · change s.scrRead (0 + (0 + k) / 8) = .ok b
      rwa [Nat.zero_add, Nat.zero_add]
    · change Except.ok (b.getLsbD (7 - (0 + k) % 8)) = _
      rw [Nat.zero_add, hbit]

/-- The last element commits what is staged (R231). -/
theorem exec_bitDepthChroma {c : UeCode} (hr : ueLength c ≤ s.remain) : exec (.spsBitDepthChroma c) s =
    .next { State.commit (s.advance (ueLength c)) with spsOk := s.spsOk + 1 }.nalReturn := by
  change execSpsBitDepthChroma c s = _
  exact element_room hr rfl

theorem elementsNext_append {c : Cfg} {is js : List Instr} {e e1 : SpsElem} {st st1 : Staging} {r : Option (SpsElem × Staging)}
    (h : elementsNext c e st is = some (e1, st1)) (h' : elementsNext c e1 st1 js = r) : elementsNext c e st (is ++ js) = r := by
  induction is generalizing e st with
  | nil => cases h; exact h'
  | cons i is ih =>
    rw [elementsNext] at h
    rw [List.cons_append, elementsNext]
    split at h
    next hf =>
      obtain ⟨p, hp, hrest⟩ := Option.bind_eq_some_iff.1 h
      rw [if_pos hf, hp]
      exact ih hrest
    · cases h

theorem elementsNext_cons {c : Cfg} {e e' : SpsElem} {st st' : Staging} {i : Instr} (hf : i.fmt = .sps e)
    (hn : elementNext c st i = some (e', st')) (is : List Instr) : elementsNext c e st (i :: is) = elementsNext c e' st' is := by
  rw [elementsNext, if_pos hf, hn]
  rfl

section
variable (c : Cfg) (st : Staging)

theorem elementNext_chroma {chroma : UeCode} (h : ueValue chroma ≤ 3) : elementNext c st (.spsChromaFormatIdc chroma) =
    some (if ueValue chroma = 3 then .separateColourPlaneFlag else .picWidth,
      { st with chroma := BitVec.ofNat 2 (ueValue chroma) }) := if_neg (Nat.not_lt.2 h)

theorem elementNext_luma {luma : UeCode} (h : ueValue luma ≤ 8) : elementNext c st (.spsBitDepthLuma luma) =
    some (.bitDepthChroma, { st with depth := BitVec.ofNat 5 (ueValue luma + 8) }) := if_neg (Nat.not_lt.2 h)

/-- Up to `chroma_format_idc`. -/
theorem elementsNext_toChroma (vps src : BitVec 4) (nest tier : BitVec 1) (space : BitVec 2) (idc : BitVec 5) (compat : BitVec 32)
    (block : BitVec 44) (lvl : BitVec 8) (spsId : UeCode) {chroma : UeCode} (h : ueValue chroma ≤ 3) :
    elementsNext c .videoParameterSetId st
      [.spsVideoParameterSetId vps, .spsMaxSubLayersMinus1 0, .spsTemporalIdNestingFlag nest, .spsGeneralProfileSpace space,
        .spsGeneralTierFlag tier, .spsGeneralProfileIdc idc, .spsGeneralCompatibilityFlags compat, .spsGeneralSourceFlags src,
        .spsGeneralConstraintBlock block, .spsGeneralLevelIdc lvl, .spsSeqParameterSetId spsId, .spsChromaFormatIdc chroma] =
      some (if ueValue chroma = 3 then .separateColourPlaneFlag else .picWidth,
        { st with
          nSub := 0, profile := idc, rext := if idc = c.rextIdc then Config.rextMap block else 0, level := lvl
          chroma := BitVec.ofNat 2 (ueValue chroma) }) := by
  change elementsNext c .seqParameterSetId
    ⟨0, idc, if idc = c.rextIdc then Config.rextMap block else 0, lvl, st.chroma, st.depth⟩
    [.spsSeqParameterSetId spsId, .spsChromaFormatIdc chroma] = _
  rw [elementsNext_cons rfl rfl, elementsNext_cons rfl (elementNext_chroma c _ h)]
  rfl

/-- The colour plane flag, where the format has one (R222). -/
theorem elementsNext_plane (plane : BitVec 1) (chroma : UeCode) :
    elementsNext c (if ueValue chroma = 3 then .separateColourPlaneFlag else .picWidth) st
      (if ueValue chroma = 3 then [.spsSeparateColourPlaneFlag plane] else []) = some (.picWidth, st) := by
  split <;> rfl

theorem elementsNext_size (width height : UeCode) : elementsNext c .picWidth st [.spsPicWidth width, .spsPicHeight height] =
    some (.conformanceWindowFlag, st) := rfl

/-- The window, with its offsets or without (R225, R226). -/
theorem elementsNext_window (window : Option (UeCode × UeCode × UeCode × UeCode)) :
    elementsNext c .conformanceWindowFlag st
      (match window with
        | none => [.spsConformanceWindowFlag 0]
        | some (c1, c2, c3, c4) => [.spsConformanceWindowFlag 1, .spsConformanceWindowOffsets c1 c2 c3 c4]) =
      some (.bitDepthLuma, st) := by
  rcases window with _ | ⟨c1, c2, c3, c4⟩ <;> rfl

theorem elementsNext_luma {luma : UeCode} (h : ueValue luma ≤ 8) :
    elementsNext c .bitDepthLuma st [.spsBitDepthLuma luma] =
      some (.bitDepthChroma, { st with depth := BitVec.ofNat 5 (ueValue luma + 8) }) := by
  rw [elementsNext_cons rfl (elementNext_luma c st h), elementsNext]

end

/-- A payload of elements that stage `st`, and the last of them, is decoded and committed. -/
theorem commit_of_elementsNext {init : List Instr} {depth : UeCode} {st : Staging} (hh : s.host = []) (hp : s.phase = .parsesps)
    (hw : ∀ i ∈ init ++ [Instr.spsBitDepthChroma depth], i.wf s.cfg = true)
    (hbegin : s.PayloadBegins (encodeAll s.cfg (init ++ [.spsBitDepthChroma depth])))
    (hnext : elementsNext s.cfg .videoParameterSetId s.staging init = some (.bitDepthChroma, st)) :
    ∃ u : State, Sys2Proof.core.run ((init ++ [Instr.spsBitDepthChroma depth]).length + 1) s =
        .next { State.commit (u.advance (ueLength depth)) with spsOk := u.spsOk + 1 }.nalReturn ∧
      u.staging = st ∧ s.bound.SpsFrame u ∧
      (u.advance (ueLength depth)).pos.toNat = (encodeAll s.cfg (init ++ [.spsBitDepthChroma depth])).length := by
  have hat := cursorAt_of_payload hbegin
  rw [encodeAll_append] at hat
  obtain ⟨u, hrun, hlast, hframe, hpos, hphase, hst⟩ := run_elementsNext (s := s.bound) hh rfl
    (fun i hi => hw i (List.mem_append_left _ hi)) hat hnext
  have hcfg : u.cfg = s.cfg := by rw [hframe]; rfl
  have hlast' : u.CursorAt (encode u.cfg (.spsBitDepthChroma depth)) := by
    rw [hcfg]
    exact cursorAt_left (b := []) hlast
  have hroom : ueLength depth ≤ u.remain := by
    have hl := hlast'.1
    rwa [encode, UeCode.bits_length] at hl
  have hwf : (Instr.spsBitDepthChroma depth).wf u.cfg = true := hw _ (List.mem_append_right _ (List.mem_singleton_self _))
  have hcommit := (stepRunsElement u .bitDepthChroma _ (by rw [hframe]; exact hh) hphase rfl hwf hlast').trans
    (exec_bitDepthChroma hroom)
  refine ⟨u, ?_, hst, hframe, ?_⟩
  · rw [List.length_append, List.length_singleton]
    exact (run_succ _ (step_parsesps_bound hh hp)).trans ((hrun 1).trans (run_succ 0 hcommit))
  · have hstart : s.bound.pos.toNat = 0 := rfl
    have hlen : (encodeAll s.cfg [.spsBitDepthChroma depth]).length = ueLength depth := by
      rw [encodeAll_cons, List.length_append, encode, UeCode.bits_length]
      rfl
    have hmid : u.pos.toNat = s.bound.pos.toNat + (encodeAll s.cfg init).length := by
      rw [hpos]
      exact advance_pos_toNat (cursorAt_left hat).1
    rw [advance_pos_toNat hroom, hmid, hstart, Nat.zero_add, encodeAll_append, List.length_append, hlen]

/-- Settles O59: the elements before the last stage the record, and the last commits it. -/
theorem spsWithoutSubLayersCommits : Obligations.SpsWithoutSubLayersCommits := by
  intro s vps src nest tier plane space idc compat block lvl spsId chroma width height luma depth window elems helems hw hchroma
    hluma hh hp hbegin
  obtain ⟨init, hinit, hnext⟩ : ∃ init, elems = init ++ [.spsBitDepthChroma depth] ∧
      elementsNext s.cfg .videoParameterSetId s.staging init =
        some (.bitDepthChroma, ⟨0, idc, if idc = s.cfg.rextIdc then Config.rextMap block else 0, lvl,
          BitVec.ofNat 2 (ueValue chroma), BitVec.ofNat 5 (ueValue luma + 8)⟩) := by
    refine ⟨_, helems.trans (List.append_assoc _ [Instr.spsBitDepthLuma luma] [.spsBitDepthChroma depth]).symm, ?_⟩
    exact elementsNext_append (elementsNext_append (elementsNext_append (elementsNext_append
      (elementsNext_toChroma s.cfg s.staging vps src nest tier space idc compat block lvl spsId hchroma)
      (elementsNext_plane s.cfg _ plane chroma)) (elementsNext_size s.cfg _ width height)) (elementsNext_window s.cfg _ window))
      (elementsNext_luma s.cfg _ hluma)
  clear helems
  subst hinit
  obtain ⟨u, hrun, hst, hframe, hpos⟩ := commit_of_elementsNext hh hp hw hbegin hnext
  obtain ⟨-, hprofile, hrext, hlevel, hchr, hdep⟩ := Staging.mk.inj hst
  have hc : ueValue chroma < 2 ^ 2 := Nat.lt_succ_of_le hchroma
  have hl : ueValue luma + 8 < 2 ^ 5 := by have : ueValue luma ≤ 8 := hluma; omega
  refine ⟨_, hrun, nalReturn_phase _, ?_⟩
  simp only [nalReturn_valid, nalReturn_profile, nalReturn_rextProfile, nalReturn_level, nalReturn_chromaFormat,
    nalReturn_bitDepth, nalReturn_spsOk, nalReturn_pos, nalReturn_status, nalReturn_lastErr, nalReturn_errOff]
  refine ⟨rfl, hprofile, hrext, hlevel, ?_, ?_, ?_, hpos, ?_, ?_, ?_⟩
  · change u.tChroma.toNat = ueValue chroma
    rw [hchr, BitVec.toNat_ofNat, Nat.mod_eq_of_lt hc]
  · change u.tDepth.toNat = ueValue luma + 8
    rw [hdep, BitVec.toNat_ofNat, Nat.mod_eq_of_lt hl]
  all_goals
    rw [hframe]
    rfl

end

end Sys2Proof.Machine
end

section
/-! SUPPORT. Two states that differ only in what the engine no longer reads (10_state.md R34, 41_nal_scanner.md R172): at each place
the registers still to be read are the same, and a step keeps that. -/

namespace Sys2Proof.Machine

open Sys2Proof

/-! ## Outcomes that correspond -/

/-- Both next states are related, or both stop for the same reason. -/
inductive OutRel (R : State → State → Prop) : Out → Out → Prop where
  | next {t t' : State} (h : R t t') : OutRel R (.next t) (.next t')
  | fault (f : Fault) : OutRel R (.fault f) (.fault f)
  | refused (r : Refusal) : OutRel R (.refused r) (.refused r)

section
variable {R : State → State → Prop}

theorem OutRel.ite {p : Prop} [Decidable p] {a b a' b' : Out} (ha : p → OutRel R a a') (hb : ¬ p → OutRel R b b') :
    OutRel R (if p then a else b) (if p then a' else b') := by
  split
  · exact ha ‹_›
  · exact hb ‹_›

/-- Going on with the value of a read that both states answer alike. -/
theorem OutRel.ofRead {α : Type} {r r' : Except Fault α} {k k' : α → Out} (hr : r' = r) (hk : ∀ a, r = .ok a → OutRel R (k a) (k' a)) :
    OutRel R (ofRead r k) (ofRead r' k') := by
  subst hr
  cases r' with
  | ok a => exact hk a rfl
  | error f => exact .fault f

theorem OutRel.fetchRead {α : Type} {r r' : Except Fault α} {k k' : α → Fetched} (hr : r' = r)
    (hk : ∀ a, r = .ok a → OutRel R (runFetched (k a)) (runFetched (k' a))) :
    OutRel R (runFetched (fetchRead r k)) (runFetched (fetchRead r' k')) := by
  subst hr
  cases r' with
  | ok a => exact hk a rfl
  | error f => exact .fault f

theorem OutRel.decoded {s s' : State} {r : Except Reject (Instr × Bits)} (h : ∀ i rest, r = .ok (i, rest) → OutRel R (exec i s) (exec i s')) :
    OutRel R (runFetched (runDecoded s r)) (runFetched (runDecoded s' r)) := by
  cases r with
  | ok p => exact h p.1 p.2 rfl
  | error e => exact .refused _

end

/-! ## States that are alike -/

/-- `s` with every register and memory of `d` that a call writes before it reads it, and `BUF` of `d`. -/
def State.over (s d : State) : State :=
  { s with
    profile := d.profile, rextProfile := d.rextProfile, level := d.level, chromaFormat := d.chromaFormat, bitDepth := d.bitDepth
    nalOff := d.nalOff, nalLen := d.nalLen, nalType := d.nalType, scrLen := d.scrLen, pos := d.pos, total := d.total
    nSub := d.nSub, pp := d.pp, lp := d.lp, c44 := d.c44, tProfile := d.tProfile, tRext := d.tRext, tLevel := d.tLevel
    tChroma := d.tChroma, tDepth := d.tDepth, buf := d.buf, scr := d.scr, view := d.view, reader := d.reader
    viewArg := d.viewArg, reply := d.reply, epbI := d.epbI, epbK := d.epbK, subI := d.subI, lenWritten := d.lenWritten
    nswWritten := d.nswWritten, hostData := d.hostData, free := d.free }

/-- What is alike at every place.  `K`: the states are the same but for `BUF`; `H`: so were the data registers before the call. -/
structure Alike (K H : Prop) (s s' : State) : Prop where
  frame : s' = s.over s'
  read : ∀ i, s'.bufRead i = s.bufRead i
  record : s.valid = true ∨ H → s.SameRecord s'
  same : K → s' = { s with buf := s'.buf }

/-- The NAL unit in hand is the same. -/
def UnitAlike (s s' : State) : Prop := s'.nalOff = s.nalOff ∧ s'.nalLen = s.nalLen

/-- The first `n` bytes of `SCR` are the same. -/
def ScrAlike (n : Nat) (s s' : State) : Prop := ∀ a < n, s'.scr.read? a = s.scr.read? a

/-- The staged general profile and level, and `N_SUB`, are the same. -/
def GeneralAlike (s s' : State) : Prop :=
  s'.nSub = s.nSub ∧ s'.tProfile = s.tProfile ∧ s'.tRext = s.tRext ∧ s'.tLevel = s.tLevel

/-- The flags of the first `n` sub-layers are the same. -/
def FlagsAlike (n : Nat) (s s' : State) : Prop :=
  ∀ k < n, s'.pp.getLsbD k = s.pp.getLsbD k ∧ s'.lp.getLsbD k = s.lp.getLsbD k

/-- What the elements before this one have staged is the same, as far as a later one reads it (10_state.md R23). -/
def StagedAlike (s s' : State) : SpsElem → Prop
  | .videoParameterSetId | .maxSubLayersMinus1 => True
  | .temporalIdNestingFlag | .generalProfileSpace | .generalTierFlag | .generalProfileIdc => s'.nSub = s.nSub
  | .generalCompatibilityFlags | .generalSourceFlags | .generalConstraintBlock => s'.nSub = s.nSub ∧ s'.tProfile = s.tProfile
  | .generalLevelIdc => s'.nSub = s.nSub ∧ s'.tProfile = s.tProfile ∧ s'.tRext = s.tRext
  | .subLayerPresentFlags => GeneralAlike s s' ∧ s'.subI = s.subI ∧ FlagsAlike s.subI.toNat s s'
  | .subLayerPadding | .subLayerLevelIdc => GeneralAlike s s' ∧ s'.subI = s.subI ∧ FlagsAlike s.nSub.toNat s s'
  | .subLayerProfile => GeneralAlike s s' ∧ s'.subI = s.subI ∧ FlagsAlike s.nSub.toNat s s' ∧
      s'.lp.getLsbD s.subI.toNat = s.lp.getLsbD s.subI.toNat
  | .seqParameterSetId | .chromaFormatIdc => GeneralAlike s s'
  | .separateColourPlaneFlag | .picWidth | .picHeight | .conformanceWindowFlag | .conformanceWindowOffsets | .bitDepthLuma =>
    GeneralAlike s s' ∧ s'.tChroma = s.tChroma
  | .bitDepthChroma => GeneralAlike s s' ∧ s'.tChroma = s.tChroma ∧ s'.tDepth = s.tDepth

/-- The bits left of the view are the same. -/
def CursorAlike (s s' : State) : Prop := s'.pos = s.pos ∧ s'.total = s.total ∧ ∀ p, s'.viewBit p = s.viewBit p

/-- What is alike at each place; `PARSENALS` starts from anything, and is no place of the scan. -/
def PlaceAlike (s s' : State) : Phase → Prop
  | .parsenals => False
  | .nalunit | .header => UnitAlike s s'
  | .dispatch => UnitAlike s s' ∧ s'.nalType = s.nalType
  | .epb => UnitAlike s s' ∧ s'.epbI = s.epbI ∧ s'.epbK = s.epbK ∧ ScrAlike s.epbK.toNat s s'
  | .parsesps => UnitAlike s s' ∧ s'.scrLen = s.scrLen ∧ ScrAlike s.scrLen.toNat s s'
  | .sps e => UnitAlike s s' ∧ CursorAlike s s' ∧ StagedAlike s s' e
  | _ => True

/-- Alike everywhere and at the place. -/
def RunAlike (K H : Prop) (s s' : State) : Prop := Alike K H s s' ∧ PlaceAlike s s' s.phase

section
variable {K H : Prop} {s s' t t' : State}

/-! ## What reads answer alike -/

theorem bufBytes_alike (h : ∀ i, s'.bufRead i = s.bufRead i) (n o : Nat) : s'.bufBytes n o = s.bufBytes n o := by
  induction n generalizing o with
  | zero => rfl
  | succ n ih => rw [State.bufBytes, State.bufBytes, h, ih]

theorem findSc_alike (h : ∀ i, s'.bufRead i = s.bufRead i) (hl : s'.len = s.len) (j : Nat) : s'.findSc j = s.findSc j := by
  have hcode : ∀ j, s'.startCodeAt j = s.startCodeAt j := fun j => by simp only [State.startCodeAt, h]
  have hfrom : ∀ fuel j, s'.findScFrom fuel j = s.findScFrom fuel j := fun fuel => by
    induction fuel with
    | zero => exact fun _ => rfl
    | succ fuel ih => exact fun j => by simp only [State.findScFrom, hl, hcode, ih]
  rw [State.findSc, State.findSc, hl, hfrom]

theorem viewBits_alike (h : ∀ p, s'.viewBit p = s.viewBit p) (n p : Nat) : s'.viewBits n p = s.viewBits n p := by
  induction n generalizing p with
  | zero => rfl
  | succ n ih => rw [viewBits_succ, viewBits_succ, h, ih]

theorem Alike.len (h : Alike K H s s') : s'.len = s.len := by rw [h.frame]; rfl

theorem Alike.findSc (h : Alike K H s s') (j : Nat) : s'.findSc j = s.findSc j := findSc_alike h.read h.len j

theorem CursorAlike.remain (h : CursorAlike s s') : s'.remain = s.remain := by rw [State.remain, State.remain, h.1, h.2.1]

theorem CursorAlike.window (h : CursorAlike s s') (n : Nat) : s'.window n = s.window n := by
  rw [State.window, State.window, h.remain, h.1, viewBits_alike h.2.2]

/-! ## The shared operations -/

theorem Alike.off (h : Alike K H s s') : s'.off = s.off := by rw [h.frame]; rfl

theorem Alike.nsw (h : Alike K H s s') : s'.nsw = s.nsw := by rw [h.frame]; rfl

theorem Alike.cfg (h : Alike K H s s') : s'.cfg = s.cfg := by rw [h.frame]; rfl

theorem Alike.goto (h : Alike K H s s') (p : Phase) : Alike K H (s.goto p) (s'.goto p) where
  frame := by rw [h.frame]; rfl
  read := h.read
  record := h.record
  same hk := by rw [h.same hk]; rfl

theorem Alike.raise (h : Alike K H s s') (e : Err) (o : BitVec 32) : Alike K H (s.record e o) (s'.record e o) where
  frame := by rw [h.frame]; rfl
  read := h.read
  record := h.record
  same hk := by rw [h.same hk]; rfl

theorem Alike.setOff (h : Alike K H s s') (o : BitVec 33) : Alike K H { s with off := o } { s' with off := o } where
  frame := by rw [h.frame]; rfl
  read := h.read
  record := h.record
  same hk := by rw [h.same hk]

theorem runAlike_openNal (h : Alike K H s s') (a b : Nat) : RunAlike K H (s.openNal a b) (s'.openNal a b) where
  left :=
    { frame := by rw [h.frame]; rfl
      read := h.read
      record := h.record
      same := fun hk => by rw [h.same hk]; rfl }
  right := (⟨rfl, rfl⟩ : UnitAlike _ _)

theorem runAlike_endcall (h : Alike K H s s') : RunAlike K H (s.goto .endcall) (s'.goto .endcall) := ⟨h.goto _, trivial⟩

theorem runAlike_raiseScan (h : Alike K H s s') (e : Err) (o : BitVec 32) : RunAlike K H (s.raiseScan e o) (s'.raiseScan e o) :=
  runAlike_endcall (h.raise e o)

theorem runAlike_nalReturn (h : Alike K H s s') (hl : s'.nalLen = s.nalLen) : RunAlike K H s.nalReturn s'.nalReturn := by
  have hoff : s'.nalReturn.off = s.nalReturn.off := by rw [nalReturn_off, nalReturn_off, h.nsw, h.off, hl]
  have hs : s.nalReturn = { s with off := s.nalReturn.off, phase := .scan } := nalReturn_frame s
  have hs' : s'.nalReturn = { s' with off := s.nalReturn.off, phase := .scan } := (nalReturn_frame s').trans (by rw [hoff])
  generalize s.nalReturn.off = o at hs hs'
  rw [hs, hs']
  refine ⟨⟨?_, h.read, h.record, fun hk => ?_⟩, trivial⟩
  · rw [h.frame]; rfl
  · rw [h.same hk]

theorem runAlike_raiseSps (h : Alike K H s s') (hu : UnitAlike s s') (e : Err) : RunAlike K H (s.raiseSps e) (s'.raiseSps e) := by
  rw [State.raiseSps, State.raiseSps, hu.1]
  exact runAlike_nalReturn (h.raise e _) hu.2

/-! ## The scan -/

theorem outRel_scanPrefixed (h : Alike K H s s') (w : Nat) : OutRel (RunAlike K H) (scanPrefixed w s) (scanPrefixed w s') := by
  rw [scanPrefixed, scanPrefixed, h.off, h.len]
  exact .ite (fun _ => .ite (fun _ => .next (runAlike_raiseScan h _ _)) fun _ => .next ⟨h.goto _, trivial⟩)
    fun _ => .next (runAlike_endcall h)

theorem outRel_lengthField (h : Alike K H s s') (w n : Nat) : OutRel (RunAlike K H) (lengthField w n s) (lengthField w n s') := by
  rw [lengthField, lengthField, h.off, h.len]
  exact .ite (fun _ => .next (runAlike_raiseScan h _ _)) fun _ => .next (runAlike_openNal h _ _)

theorem outRel_scanStartCode (h : Alike K H s s') : OutRel (RunAlike K H) (scanStartCode s) (scanStartCode s') := by
  have hlen : s'.len.toNat = s.len.toNat := by rw [h.len]
  rw [scanStartCode, scanStartCode, h.off, hlen]
  refine .ofRead (h.findSc _) fun r _ => ?_
  cases r with
  | none => exact .next (runAlike_endcall h)
  | some i =>
    refine .ofRead (h.findSc _) fun r _ => ?_
    cases r with
    | none => exact .next (runAlike_openNal (h.setOff _) _ _)
    | some j => exact .next ⟨(h.setOff _).goto _, trivial⟩

theorem outRel_closeSpan (h : Alike K H s s') (trim : Bool) : OutRel (RunAlike K H) (closeSpan trim s) (closeSpan trim s') := by
  rw [closeSpan, closeSpan, h.off, h.len]
  refine .ofRead (h.findSc _) fun r _ => ?_
  cases r with
  | none => exact .next (runAlike_openNal h _ _)
  | some j => exact .next (runAlike_openNal h _ _)

theorem outRel_decodeNsw (h : Alike K H s s') (w : Nat) :
    OutRel (RunAlike K H) (exec (decodeNsw w) s) (exec (decodeNsw w) s') := by
  match w with
  | 0 => exact outRel_scanStartCode h
  | 1 | 2 | 3 | 4 => exact outRel_scanPrefixed h _
  | 5 | 6 | _ + 7 => exact .refused _

theorem outRel_decodeLp (h : Alike K H s s') {w v : Nat} {i : Instr} (hi : decodeLp w v = .ok i) :
    OutRel (RunAlike K H) (exec i s) (exec i s') := by
  match w, hi with
  | 1, rfl | 2, rfl | 3, rfl | 4, rfl => exact outRel_lengthField h _ _

theorem outRel_fetchLengthField (h : Alike K H s s') :
    OutRel (RunAlike K H) (runFetched (fetchLengthField s)) (runFetched (fetchLengthField s')) := by
  rw [fetchLengthField, fetchLengthField, h.nsw, h.off, h.cfg]
  refine .fetchRead (bufBytes_alike h.read _ _) fun bs hbs => ?_
  rw [decode_lp s.cfg _ bs (bufBytes_ok hbs).1]
  cases hd : decodeLp s.nsw.toNat (natOfBits (bitsOfBytes bs)) with
  | ok i => exact outRel_decodeLp h hd
  | error e => exact .refused _

/-- A start code is one of the two. -/
theorem outRel_startCode (h : Alike K H s s') (bs : List Byte) :
    OutRel (RunAlike K H) (runFetched (runDecoded s (decode s.cfg .sc (bitsOfBytes bs))))
      (runFetched (runDecoded s' (decode s.cfg .sc (bitsOfBytes bs)))) := by
  refine .decoded fun i rest hd => ?_
  have hf := (decoded_of_decode hd).2.1
  cases i <;> simp only [Instr.fmt, reduceCtorEq] at hf
  case sc3 => exact outRel_closeSpan h false
  case sc4 => exact outRel_closeSpan h true

theorem outRel_fetchDelimiter (h : Alike K H s s') :
    OutRel (RunAlike K H) (runFetched (fetchDelimiter s)) (runFetched (fetchDelimiter s')) := by
  rw [fetchDelimiter, fetchDelimiter, h.off, h.cfg]
  refine .fetchRead (h.findSc _) fun r _ => ?_
  have three : ∀ j, OutRel (RunAlike K H)
      (runFetched (fetchRead (s.bufBytes 3 j) fun bs => runDecoded s (decode s.cfg .sc (bitsOfBytes bs))))
      (runFetched (fetchRead (s'.bufBytes 3 j) fun bs => runDecoded s' (decode s.cfg .sc (bitsOfBytes bs)))) := fun j =>
    .fetchRead (bufBytes_alike h.read _ _) fun bs _ => outRel_startCode h bs
  cases r with
  | none => exact outRel_scanStartCode h
  | some j =>
    dsimp only
    split
    · refine .fetchRead (h.read _) fun b _ => ?_
      split
      · exact .fetchRead (bufBytes_alike h.read _ _) fun bs _ => outRel_startCode h bs
      · exact three j
    · exact three j

/-! ## One unit -/

theorem outRel_decodeNh (h : Alike K H s s') (hu : UnitAlike s s') (v : Nat) :
    OutRel (RunAlike K H) (exec (decodeNh s.cfg v) s) (exec (decodeNh s.cfg v) s') := by
  have malformed : OutRel (RunAlike K H) (malformedNalUnit s) (malformedNalUnit s') := .next (runAlike_raiseSps h hu _)
  have typed : ∀ ty, RunAlike K H { s with nalType := ty, phase := .dispatch } { s' with nalType := ty, phase := .dispatch } :=
    fun ty => ⟨⟨by rw [h.frame]; rfl, h.read, h.record, fun hk => by rw [h.same hk]⟩, hu, rfl⟩
  rw [decodeNh]
  split
  · exact malformed
  · split
    · have hnut : s'.cfg.spsNut = s.cfg.spsNut := by rw [h.cfg]
      change OutRel _ (execNalSps (BitVec.ofNat 9 v) s) (execNalSps (BitVec.ofNat 9 v) s')
      rw [execNalSps, execNalSps, hnut]
      exact .next (typed _)
    · exact .next (typed _)

theorem outRel_fetchHeader (h : Alike K H s s') (hu : UnitAlike s s') :
    OutRel (RunAlike K H) (runFetched (fetchHeader s)) (runFetched (fetchHeader s')) := by
  rw [fetchHeader, fetchHeader, hu.1, hu.2, h.cfg]
  split
  · exact .next (runAlike_raiseSps h hu _)
  · refine .fetchRead (bufBytes_alike h.read _ _) fun bs hbs => ?_
    have hb : (bitsOfBytes bs).length = 16 := by rw [bitsOfBytes_length, (bufBytes_ok hbs).1]
    rw [decode, if_neg (by omega), withU_exact 16 _ _ hb, accept]
    exact outRel_decodeNh h hu _

theorem outRel_dispatch (h : Alike K H s s') (hu : UnitAlike s s') (ht : s'.nalType = s.nalType) :
    OutRel (RunAlike K H) (exec .dispatch s) (exec .dispatch s') := by
  change OutRel _ (execDispatch s) (execDispatch s')
  have hnut : s'.cfg.spsNut = s.cfg.spsNut := by rw [h.cfg]
  rw [execDispatch, execDispatch, ht, hnut]
  refine .ite (fun _ => .next (runAlike_nalReturn h hu.2)) fun _ => .next ⟨⟨?_, h.read, h.record, fun hk => ?_⟩, hu, rfl, rfl, nofun⟩
  · rw [h.frame]; rfl
  · rw [h.same hk]

/-! ## The payload of an SPS -/

theorem UnitAlike.payloadLen (hu : UnitAlike s s') : s'.payloadLen = s.payloadLen := by rw [State.payloadLen, State.payloadLen, hu.2]

theorem UnitAlike.payloadOff (hu : UnitAlike s s') : s'.payloadOff = s.payloadOff := by rw [State.payloadOff, State.payloadOff, hu.1]

theorem scrAlike_write (h : ScrAlike s.epbK.toNat s s') (k : s'.epbK = s.epbK) (b : Byte) :
    ScrAlike (s.epbK + 1).toNat (s.scrWrite s.epbK.toNat b) (s'.scrWrite s'.epbK.toNat b) := by
  intro a ha
  have hle : (s.epbK + 1).toNat ≤ s.epbK.toNat + 1 := by
    rw [BitVec.toNat_add]
    exact (Nat.mod_le _ _).trans (Nat.add_le_add_left (by decide) _)
  change (s'.scr.write s'.epbK.toNat b).read? a = (s.scr.write s.epbK.toNat b).read? a
  rw [Memory.read_write, Memory.read_write, k]
  split
  · rfl
  · exact h a (by omega)

section
variable (h : Alike K H s s') (hu : UnitAlike s s') (hi : s'.epbI = s.epbI) (hk : s'.epbK = s.epbK)
  (hscr : ScrAlike s.epbK.toNat s s')
include h hu hi hk hscr

theorem outRel_epbremove : OutRel (RunAlike K H) (exec .epbremove s) (exec .epbremove s') := by
  change OutRel _ (execEpbremove s) (execEpbremove s')
  have hI : s'.epbI.toNat = s.epbI.toNat := by rw [hi]
  rw [execEpbremove, execEpbremove, hu.payloadLen, hu.payloadOff, hI]
  refine .ite (fun _ => .ofRead (h.read _) fun b _ => .next ⟨⟨?_, h.read, h.record, fun hk => ?_⟩, hu, ?_, ?_, scrAlike_write hscr hk b⟩)
    fun _ => .next ⟨⟨?_, h.read, h.record, fun hk => ?_⟩, hu, hk, hscr⟩
  · rw [h.frame]; rfl
  · rw [h.same hk]; rfl
  · exact congrArg (· + 1) hi
  · exact congrArg (· + 1) hk
  · rw [h.frame]; rfl
  · rw [h.same hk]

theorem outRel_fetchEpb : OutRel (RunAlike K H) (runFetched (fetchEpb s)) (runFetched (fetchEpb s')) := by
  have loop := outRel_epbremove h hu hi hk hscr
  have hI : s'.epbI.toNat = s.epbI.toNat := by rw [hi]
  rw [fetchEpb, fetchEpb, hu.payloadLen, hu.payloadOff, hI, h.cfg]
  split
  · refine .fetchRead (bufBytes_alike h.read _ _) fun bs hbs => ?_
    rw [decode_epb _ (bufBytes_ok hbs).1]
    by_cases h3 : bs = [0x00, 0x00, 0x03]
    · simp only [if_pos h3]
      refine .next ⟨⟨?_, h.read, h.record, fun hk => ?_⟩, hu, congrArg (· + 1) hi, hk, hscr⟩
      · rw [h.frame]; rfl
      · rw [h.same hk]
    · simp only [if_neg h3]
      exact loop
  · exact loop

end

/-- The bits of a view of `SCR` that is the same. -/
theorem viewBit_alike (hv : s'.view = s.view) (hl : s'.scrLen = s.scrLen) (ha : ScrAlike s.scrLen.toNat s s') (p : Nat) :
    s'.viewBit p = s.viewBit p := by
  have hread : ∀ i, s'.scrRead i = s.scrRead i := fun i => by
    rw [State.scrRead, State.scrRead, hl]
    split
    next hi => rw [ha i hi]
    · rfl
  rw [State.viewBit, State.viewBit, State.viewByte, State.viewByte, hv, hread]

theorem outRel_parsesps (h : Alike K H s s') (hu : UnitAlike s s') (hl : s'.scrLen = s.scrLen) (ha : ScrAlike s.scrLen.toNat s s') :
    OutRel (RunAlike K H) (exec .parsesps s) (exec .parsesps s') := by
  refine .next ⟨⟨?_, h.read, fun hr => h.record (.inr (hr.resolve_left nofun)), fun hk => ?_⟩, hu,
    ⟨rfl, ?_, viewBit_alike ?_ hl ha⟩, trivial⟩
  · rw [h.frame]; rfl
  · rw [h.same hk]; rfl
  · exact congrArg (fun l : BitVec 32 => BitVec.ofNat 36 (8 * l.toNat)) hl
  · exact congrArg (View.mk 0) hl

end

end Sys2Proof.Machine
end

section
/-! SUPPORT. The elements of the SPS keep two states alike (43_sps_decoder.md R200 to R231): each reads the same bits, stages the same
values, and the commit writes the same record. -/

namespace Sys2Proof.Machine

open Sys2Proof

section
variable {K H : Prop} {s s' t t' : State}

/-- Alike states in a unit, with the same bits left. -/
structure AtAlike (K H : Prop) (s s' : State) : Prop where
  alike : Alike K H s s'
  unit : UnitAlike s s'
  cursor : CursorAlike s s'

/-- What writes only the registers of the elements keeps states alike. -/
theorem Alike.sps (h : Alike K H s s') (ht : s.SpsFrame t) (ht' : s'.SpsFrame t') (hp : t'.phase = t.phase)
    (hk : K → t' = { t with buf := t'.buf }) : Alike K H t t' where
  frame := by rw [ht', hp, ht, h.frame]; rfl
  read i := by rw [ht, ht']; exact h.read i
  record := by rw [ht, ht']; exact h.record
  same := hk

theorem AtAlike.sps (h : AtAlike K H s s') (ht : s.SpsFrame t) (ht' : s'.SpsFrame t') (hp : t'.phase = t.phase)
    (hpos : t'.pos = t.pos) (hk : K → t' = { t with buf := t'.buf }) : AtAlike K H t t' where
  alike := h.alike.sps ht ht' hp hk
  unit := by rw [ht, ht']; exact h.unit
  cursor := by
    obtain ⟨-, htotal, hbit⟩ := h.cursor
    refine ⟨hpos, ?_, fun p => ?_⟩
    · rw [ht, ht']; exact htotal
    · rw [ht, ht']; exact hbit p

theorem AtAlike.advance (h : AtAlike K H s s') (n : Nat) : AtAlike K H (s.advance n) (s'.advance n) :=
  h.sps rfl rfl (by rw [h.alike.frame]; rfl) (by rw [advance_pos, advance_pos, h.cursor.1]) fun hk => by rw [h.alike.same hk]; rfl

/-! ## One request -/

theorem outRel_request {n : Nat} {k k' : State → Out} (h : AtAlike K H s s')
    (hk : n ≤ s.remain → OutRel (RunAlike K H) (k (s.advance n)) (k' (s'.advance n))) :
    OutRel (RunAlike K H) (request n s k) (request n s' k') := by
  rw [request, request, h.cursor.remain]
  exact .ite (fun _ => .next (runAlike_raiseSps h.alike h.unit _)) fun hn => hk (Nat.not_lt.1 hn)

theorem outRel_element {n : Nat} {k : State → State} (h : AtAlike K H s s')
    (hk : n ≤ s.remain → RunAlike K H (k (s.advance n)) (k (s'.advance n))) :
    OutRel (RunAlike K H) (element n s k) (element n s' k) :=
  outRel_request h fun hn => .next (hk hn)

theorem stagedAlike_advance {e : SpsElem} (h : StagedAlike s s' e) (n : Nat) : StagedAlike (s.advance n) (s'.advance n) e := by
  cases e <;> exact h

/-- An element of one request: it is enough to look at states that are alike past its bits. -/
theorem outRel_staged {n : Nat} {k : State → State} {e : SpsElem} (h : AtAlike K H s s') (hst : StagedAlike s s' e)
    (hk : ∀ u u', AtAlike K H u u' → StagedAlike u u' e → RunAlike K H (k u) (k u')) :
    OutRel (RunAlike K H) (element n s k) (element n s' k) :=
  outRel_element h fun _ => hk _ _ (h.advance n) (stagedAlike_advance hst n)

/-- An update of the registers of the elements: nothing else is written, the cursor stays, and `BUF` has no say. -/
structure StagesOnly (k : State → State) : Prop where
  frame : ∀ u : State, u.SpsFrame (k u)
  pos : ∀ u : State, (k u).pos = u.pos
  buf : ∀ (u : State) b, k { u with buf := b } = { k u with buf := b }

/-- Such an update to a place where what it stages is alike. -/
theorem runAlike_stages {k : State → State} {e : SpsElem} (h : AtAlike K H s s') (hk : StagesOnly k)
    (hp : (k s).phase = .sps e) (hp' : (k s').phase = .sps e) (hst : StagedAlike (k s) (k s') e) : RunAlike K H (k s) (k s') := by
  have hat : AtAlike K H (k s) (k s') := by
    refine h.sps (hk.frame s) (hk.frame s') (hp'.trans hp.symm) (by rw [hk.pos, hk.pos, h.cursor.1]) fun hK => ?_
    rw [h.alike.same hK, hk.buf]
  refine ⟨hat.alike, ?_⟩
  rw [hp]
  exact ⟨hat.unit, hat.cursor, hst⟩

theorem stagesOnly_goto (p : Phase) : StagesOnly fun t => t.goto p := ⟨fun _ => rfl, fun _ => rfl, fun _ _ => rfl⟩

/-! ## The sub-layer loops -/

theorem subLayerFrom_alike (hn : s'.nSub = s.nSub) (hf : FlagsAlike s.nSub.toNat s s') (fuel i : Nat) :
    s'.subLayerFrom fuel i = s.subLayerFrom fuel i := by
  induction fuel generalizing i with
  | zero => rfl
  | succ fuel ih =>
    rw [State.subLayerFrom, State.subLayerFrom, hn, ih]
    split
    next hi => rw [(hf i hi).1, (hf i hi).2]
    · rfl

theorem runAlike_gotoSubLayer (h : AtAlike K H s s') (hg : GeneralAlike s s') (hf : FlagsAlike s.nSub.toNat s s') (i : Nat) :
    RunAlike K H (s.gotoSubLayer i) (s'.gotoSubLayer i) := by
  rw [State.gotoSubLayer, State.gotoSubLayer, subLayerFrom_alike hg.1 hf]
  have hspec := subLayerFrom_spec s 8 i (by have := s.nSub.isLt; omega)
  cases hsub : s.subLayerFrom 8 i with
  | none => exact runAlike_stages h (stagesOnly_goto _) rfl rfl hg
  | some p =>
    obtain ⟨j, e⟩ := p
    have hk : StagesOnly fun t => { t with subI := BitVec.ofNat 4 j, phase := .sps e } :=
      ⟨fun _ => rfl, fun _ => rfl, fun _ _ => rfl⟩
    obtain ⟨j', e', heq, hij, hj, -, he⟩ | ⟨heq, -⟩ := hspec <;> rw [hsub] at heq <;> cases heq
    have hn := s.nSub.isLt
    have hi : (BitVec.ofNat 4 j).toNat = j := by rw [BitVec.toNat_ofNat, Nat.mod_eq_of_lt (by omega)]
    refine runAlike_stages h hk rfl rfl ?_
    obtain ⟨-, rfl⟩ | ⟨-, -, rfl⟩ := he
    · refine ⟨hg, rfl, hf, ?_⟩
      change s'.lp.getLsbD (BitVec.ofNat 4 j).toNat = s.lp.getLsbD (BitVec.ofNat 4 j).toNat
      rw [hi]
      exact (hf j hj).2
    · exact ⟨hg, rfl, hf⟩

theorem putFlag_alike {f f' : BitVec 7} {i k : Nat} (b : BitVec 1) (h : k ≠ i → f'.getLsbD k = f.getLsbD k) :
    (putFlag f' i b).getLsbD k = (putFlag f i b).getLsbD k := by
  rcases Nat.lt_or_ge k 7 with hk | hk
  · rw [getLsbD_putFlag _ _ _ _ hk, getLsbD_putFlag _ _ _ _ hk]
    split
    · rfl
    next hne => exact h hne
  · rw [BitVec.getLsbD_of_ge _ _ hk, BitVec.getLsbD_of_ge _ _ hk]

theorem FlagsAlike.mono {m n : Nat} (h : FlagsAlike n s s') (hm : m ≤ n) : FlagsAlike m s s' := fun k hk => h k (hk.trans_le hm)

/-- After a pair: the next pair, the padding or the data (R211 to R213). -/
theorem runAlike_afterPair (h : AtAlike K H s s') (hg : GeneralAlike s s') (hi : s'.subI = s.subI)
    (hf : FlagsAlike (s.subI.toNat + 1) s s') : RunAlike K H s.afterPair s'.afterPair := by
  have hn := s.nSub.isLt
  rcases Nat.lt_or_ge (s.subI.toNat + 1) s.nSub.toNat with hlt | hge
  · have hlt' : s'.subI.toNat + 1 < s'.nSub.toNat := by rw [hi, hg.1]; exact hlt
    have hnext : (BitVec.ofNat 4 (s.subI.toNat + 1)).toNat = s.subI.toNat + 1 := by
      rw [BitVec.toNat_ofNat, Nat.mod_eq_of_lt (by omega)]
    rw [afterPair_next hlt, afterPair_next hlt']
    refine runAlike_stages (k := fun t => { t with subI := BitVec.ofNat 4 (t.subI.toNat + 1), phase := .sps .subLayerPresentFlags }) h
      ⟨fun _ => rfl, fun _ => rfl, fun _ _ => rfl⟩ rfl rfl ⟨hg, ?_, ?_⟩
    · exact congrArg (fun i : BitVec 4 => BitVec.ofNat 4 (i.toNat + 1)) hi
    · exact hf.mono hnext.le
  · have hge' : s'.nSub.toNat ≤ s'.subI.toNat + 1 := by rw [hi, hg.1]; exact hge
    have hf' := hf.mono hge
    rw [afterPair_last hge, afterPair_last hge']
    cases hpad : s.cfg.ptlPad with
    | hevc =>
      rw [afterPresentFlags_hevc hpad, afterPresentFlags_hevc (h.alike.cfg.symm ▸ hpad)]
      exact runAlike_stages (k := fun t => { t with subI := BitVec.ofNat 4 t.nSub.toNat, phase := .sps .subLayerPadding }) h
        ⟨fun _ => rfl, fun _ => rfl, fun _ _ => rfl⟩ rfl rfl
        ⟨hg, congrArg (fun n : BitVec 3 => BitVec.ofNat 4 n.toNat) hg.1, hf'⟩
    | none =>
      rw [afterPresentFlags_none hpad, afterPresentFlags_none (h.alike.cfg.symm ▸ hpad)]
      exact runAlike_gotoSubLayer h hg hf' 0

/-- The pair of flags at the index, in states whose flags before it are alike. -/
theorem flagsAlike_presentFlags (hi : s'.subI = s.subI) (hf : FlagsAlike s.subI.toNat s s') (p l : BitVec 1) :
    FlagsAlike (s.subI.toNat + 1) (s.presentFlags p l) (s'.presentFlags p l) := by
  intro k hk
  have before : k ≠ s.subI.toNat → k < s.subI.toNat := fun hne => Nat.lt_of_le_of_ne (Nat.le_of_lt_succ hk) hne
  rw [State.presentFlags, State.presentFlags, hi]
  exact ⟨putFlag_alike p fun hne => (hf k (before hne)).1, putFlag_alike l fun hne => (hf k (before hne)).2⟩

theorem AtAlike.presentFlags (h : AtAlike K H s s') (p l : BitVec 1) :
    AtAlike K H (s.presentFlags p l) (s'.presentFlags p l) := by
  have hphase : s'.phase = s.phase := by rw [h.alike.frame]; rfl
  refine h.sps rfl rfl hphase ?_ fun hk => by rw [h.alike.same hk]; rfl
  exact congrArg (fun q : BitVec 36 => BitVec.ofNat 36 (q.toNat + 2)) h.cursor.1

theorem AtAlike.firstFlag (h : AtAlike K H s s') (p : BitVec 1) : AtAlike K H (s.firstFlag p) (s'.firstFlag p) := by
  have hphase : s'.phase = s.phase := by rw [h.alike.frame]; rfl
  exact h.sps rfl rfl hphase (h.advance 1).cursor.1 fun hk => by rw [h.alike.same hk]; rfl

theorem outRel_presentFlags (h : AtAlike K H s s') (hst : StagedAlike s s' .subLayerPresentFlags) (p l : BitVec 1) :
    OutRel (RunAlike K H) (exec (.spsSubLayerPresentFlags p l) s) (exec (.spsSubLayerPresentFlags p l) s') := by
  obtain ⟨hg, hi, hf⟩ := hst
  rw [exec_presentFlags, exec_presentFlags]
  refine outRel_request h fun _ => outRel_element (h.firstFlag p) fun _ => ?_
  have hg' : GeneralAlike (s.presentFlags p l) (s'.presentFlags p l) := hg
  have hi' : (s'.presentFlags p l).subI = (s.presentFlags p l).subI := hi
  have hf' : FlagsAlike ((s.presentFlags p l).subI.toNat + 1) (s.presentFlags p l) (s'.presentFlags p l) :=
    flagsAlike_presentFlags hi hf p l
  have hpair := runAlike_afterPair (h.presentFlags p l) hg' hi' hf'
  rw [← firstFlag_second s p l, ← firstFlag_second s' p l] at hpair
  exact hpair

theorem outRel_padding (h : AtAlike K H s s') (hst : StagedAlike s s' .subLayerPadding) (v : BitVec 2) :
    OutRel (RunAlike K H) (exec (.spsSubLayerPadding v) s) (exec (.spsSubLayerPadding v) s') := by
  refine outRel_staged (k := fun t => if t.subI.toNat < 7 then
    { t with subI := BitVec.ofNat 4 (t.subI.toNat + 1), phase := .sps .subLayerPadding } else t.gotoSubLayer 0) h hst
    fun u u' h ⟨hg, hi, hf⟩ => ?_
  have hI : u'.subI.toNat = u.subI.toNat := by rw [hi]
  rcases Nat.lt_or_ge u.subI.toNat 7 with hlt | hge
  · rw [if_pos hlt, if_pos (hI.trans_lt hlt)]
    exact runAlike_stages (k := fun t => { t with subI := BitVec.ofNat 4 (t.subI.toNat + 1), phase := .sps .subLayerPadding }) h
      ⟨fun _ => rfl, fun _ => rfl, fun _ _ => rfl⟩ rfl rfl
      ⟨hg, congrArg (fun i : BitVec 4 => BitVec.ofNat 4 (i.toNat + 1)) hi, hf⟩
  · rw [if_neg (Nat.not_lt.2 hge), if_neg (Nat.not_lt.2 (hge.trans hI.ge))]
    exact runAlike_gotoSubLayer h hg hf 0

theorem outRel_subLayerProfile (h : AtAlike K H s s') (hst : StagedAlike s s' .subLayerProfile) (v : BitVec 88) :
    OutRel (RunAlike K H) (exec (.spsSubLayerProfile v) s) (exec (.spsSubLayerProfile v) s') := by
  refine outRel_staged (k := fun t => if t.lp.getLsbD t.subI.toNat then t.goto (.sps .subLayerLevelIdc)
    else t.gotoSubLayer (t.subI.toNat + 1)) h hst fun u u' h ⟨hg, hi, hf, hl⟩ => ?_
  have hlp : u'.lp.getLsbD u'.subI.toNat = u.lp.getLsbD u.subI.toNat := by rw [hi]; exact hl
  have hI : u'.subI.toNat = u.subI.toNat := by rw [hi]
  rw [hlp, hI]
  split
  · exact runAlike_stages h (stagesOnly_goto _) rfl rfl ⟨hg, hi, hf⟩
  · exact runAlike_gotoSubLayer h hg hf _

theorem outRel_subLayerLevelIdc (h : AtAlike K H s s') (hst : StagedAlike s s' .subLayerLevelIdc) (v : BitVec 8) :
    OutRel (RunAlike K H) (exec (.spsSubLayerLevelIdc v) s) (exec (.spsSubLayerLevelIdc v) s') := by
  refine outRel_staged (k := fun t => t.gotoSubLayer (t.subI.toNat + 1)) h hst fun u u' h ⟨hg, hi, hf⟩ => ?_
  have hI : u'.subI.toNat = u.subI.toNat := by rw [hi]
  rw [hI]
  exact runAlike_gotoSubLayer h hg hf _

/-! ## The other elements -/

/-- An element whose value is discarded: what is staged is alike for the next one too. -/
theorem outRel_discarded {n : Nat} {e e' : SpsElem} (h : AtAlike K H s s') (hst : StagedAlike s s' e)
    (hnext : ∀ u u' : State, StagedAlike u u' e → StagedAlike (u.goto (.sps e')) (u'.goto (.sps e')) e') :
    OutRel (RunAlike K H) (element n s fun t => t.goto (.sps e')) (element n s' fun t => t.goto (.sps e')) :=
  outRel_staged h hst fun u u' h hst => runAlike_stages h (stagesOnly_goto _) rfl rfl (hnext u u' hst)

theorem outRel_maxSubLayersMinus1 (h : AtAlike K H s s') (v : BitVec 3) :
    OutRel (RunAlike K H) (exec (.spsMaxSubLayersMinus1 v) s) (exec (.spsMaxSubLayersMinus1 v) s') :=
  outRel_staged (k := fun t => { t with nSub := v, phase := .sps .temporalIdNestingFlag }) (e := .maxSubLayersMinus1) h trivial
    fun _ _ h _ => runAlike_stages (k := fun t => { t with nSub := v, phase := .sps .temporalIdNestingFlag }) h
      ⟨fun _ => rfl, fun _ => rfl, fun _ _ => rfl⟩ rfl rfl rfl

theorem outRel_generalProfileIdc (h : AtAlike K H s s') (hst : StagedAlike s s' .generalProfileIdc) (v : BitVec 5) :
    OutRel (RunAlike K H) (exec (.spsGeneralProfileIdc v) s) (exec (.spsGeneralProfileIdc v) s') :=
  outRel_staged (k := fun t => { t with tProfile := v, phase := .sps .generalCompatibilityFlags }) h hst
    fun _ _ h hn => runAlike_stages (k := fun t => { t with tProfile := v, phase := .sps .generalCompatibilityFlags }) h
      ⟨fun _ => rfl, fun _ => rfl, fun _ _ => rfl⟩ rfl rfl ⟨hn, rfl⟩

theorem outRel_generalConstraintBlock (h : AtAlike K H s s') (hst : StagedAlike s s' .generalConstraintBlock) (v : BitVec 44) :
    OutRel (RunAlike K H) (exec (.spsGeneralConstraintBlock v) s) (exec (.spsGeneralConstraintBlock v) s') := by
  change OutRel _ (execSpsGeneralConstraintBlock v s) (execSpsGeneralConstraintBlock v s')
  rw [execSpsGeneralConstraintBlock, execSpsGeneralConstraintBlock]
  refine outRel_request h fun _ => outRel_staged (h.advance 32) (stagedAlike_advance hst 32) fun u u' h ⟨hn, hp⟩ => ?_
  refine runAlike_stages (k := fun t =>
    { t with
      c44 := v
      tRext := if t.tProfile = t.cfg.rextIdc then Config.rextMap v else 0
      phase := .sps .generalLevelIdc }) h ⟨fun _ => rfl, fun _ => rfl, fun _ _ => rfl⟩ rfl rfl ⟨hn, hp, ?_⟩
  change (if u'.tProfile = u'.cfg.rextIdc then _ else _) = if u.tProfile = u.cfg.rextIdc then _ else _
  rw [hp, h.alike.cfg]

theorem outRel_generalLevelIdc (h : AtAlike K H s s') (hst : StagedAlike s s' .generalLevelIdc) (v : BitVec 8) :
    OutRel (RunAlike K H) (exec (.spsGeneralLevelIdc v) s) (exec (.spsGeneralLevelIdc v) s') := by
  refine outRel_staged (k := fun t =>
    { t with
      tLevel := v
      subI := 0
      phase := if t.nSub = 0 then .sps .seqParameterSetId else .sps .subLayerPresentFlags }) h hst fun u u' h ⟨hn, hp, hr⟩ => ?_
  have hk : StagesOnly fun t =>
    { t with
      tLevel := v
      subI := 0
      phase := if t.nSub = 0 then .sps .seqParameterSetId else .sps .subLayerPresentFlags } :=
    ⟨fun _ => rfl, fun _ => rfl, fun _ _ => rfl⟩
  by_cases h0 : u.nSub = 0
  · exact runAlike_stages (e := .seqParameterSetId) h hk (if_pos h0) (if_pos (hn.trans h0)) ⟨hn, hp, hr, rfl⟩
  · exact runAlike_stages (e := .subLayerPresentFlags) h hk (if_neg h0) (if_neg fun hz => h0 (hn.symm.trans hz))
      ⟨⟨hn, hp, hr, rfl⟩, rfl, nofun⟩

theorem outRel_chromaFormatIdc (h : AtAlike K H s s') (hst : StagedAlike s s' .chromaFormatIdc) (c : UeCode) :
    OutRel (RunAlike K H) (exec (.spsChromaFormatIdc c) s) (exec (.spsChromaFormatIdc c) s') := by
  change OutRel _ (execSpsChromaFormatIdc c s) (execSpsChromaFormatIdc c s')
  rw [execSpsChromaFormatIdc, execSpsChromaFormatIdc]
  refine outRel_staged h hst fun u u' h hg => ?_
  by_cases h3 : ueValue c > 3
  · rw [if_pos h3, if_pos h3]
    exact runAlike_raiseSps h.alike h.unit _
  · rw [if_neg h3, if_neg h3]
    have hk : StagesOnly fun t =>
      { t with
        tChroma := BitVec.ofNat 2 (ueValue c)
        phase := if ueValue c = 3 then .sps .separateColourPlaneFlag else .sps .picWidth } :=
      ⟨fun _ => rfl, fun _ => rfl, fun _ _ => rfl⟩
    by_cases heq : ueValue c = 3
    · exact runAlike_stages (e := .separateColourPlaneFlag) h hk (if_pos heq) (if_pos heq) ⟨hg, rfl⟩
    · exact runAlike_stages (e := .picWidth) h hk (if_neg heq) (if_neg heq) ⟨hg, rfl⟩

theorem outRel_windowFlag (h : AtAlike K H s s') (hst : StagedAlike s s' .conformanceWindowFlag) (v : BitVec 1) :
    OutRel (RunAlike K H) (exec (.spsConformanceWindowFlag v) s) (exec (.spsConformanceWindowFlag v) s') := by
  refine outRel_staged (k := fun t => t.goto (if v = 1 then .sps .conformanceWindowOffsets else .sps .bitDepthLuma)) h hst
    fun u u' h hst => ?_
  by_cases h1 : v = 1
  · exact runAlike_stages (e := .conformanceWindowOffsets) h (stagesOnly_goto _) (if_pos h1) (if_pos h1) hst
  · exact runAlike_stages (e := .bitDepthLuma) h (stagesOnly_goto _) (if_neg h1) (if_neg h1) hst

theorem outRel_windowOffsets (h : AtAlike K H s s') (hst : StagedAlike s s' .conformanceWindowOffsets) (c1 c2 c3 c4 : UeCode) :
    OutRel (RunAlike K H) (exec (.spsConformanceWindowOffsets c1 c2 c3 c4) s) (exec (.spsConformanceWindowOffsets c1 c2 c3 c4) s') := by
  have h1 := h.advance (ueLength c1)
  have h2 := h1.advance (ueLength c2)
  have h3 := h2.advance (ueLength c3)
  have hst3 := stagedAlike_advance (stagedAlike_advance (stagedAlike_advance hst (ueLength c1)) (ueLength c2)) (ueLength c3)
  change OutRel _ (execSpsConformanceWindowOffsets c1 c2 c3 c4 s) (execSpsConformanceWindowOffsets c1 c2 c3 c4 s')
  rw [execSpsConformanceWindowOffsets, execSpsConformanceWindowOffsets]
  exact outRel_request h fun _ => outRel_request h1 fun _ => outRel_request h2 fun _ =>
    outRel_discarded (e' := .bitDepthLuma) h3 hst3 fun _ _ hst => hst

theorem outRel_bitDepthLuma (h : AtAlike K H s s') (hst : StagedAlike s s' .bitDepthLuma) (c : UeCode) :
    OutRel (RunAlike K H) (exec (.spsBitDepthLuma c) s) (exec (.spsBitDepthLuma c) s') := by
  change OutRel _ (execSpsBitDepthLuma c s) (execSpsBitDepthLuma c s')
  rw [execSpsBitDepthLuma, execSpsBitDepthLuma]
  refine outRel_staged h hst fun u u' h ⟨hg, hc⟩ => ?_
  by_cases h8 : ueValue c > 8
  · rw [if_pos h8, if_pos h8]
    exact runAlike_raiseSps h.alike h.unit _
  · rw [if_neg h8, if_neg h8]
    exact runAlike_stages (k := fun t => { t with tDepth := BitVec.ofNat 5 (ueValue c + 8), phase := .sps .bitDepthChroma }) h
      ⟨fun _ => rfl, fun _ => rfl, fun _ _ => rfl⟩ rfl rfl ⟨hg, hc, rfl⟩

/-- The commit writes the same record. -/
theorem outRel_bitDepthChroma (h : AtAlike K H s s') (hst : StagedAlike s s' .bitDepthChroma) (c : UeCode) :
    OutRel (RunAlike K H) (exec (.spsBitDepthChroma c) s) (exec (.spsBitDepthChroma c) s') := by
  refine outRel_staged (k := fun t => State.nalReturn { State.commit t with spsOk := t.spsOk + 1 }) h hst
    fun u u' h ⟨⟨_, hp, hr, hl⟩, hc, hd⟩ => runAlike_nalReturn ⟨?_, h.alike.read, fun _ => ⟨hp, hr, hl, hc, hd⟩, fun hk => ?_⟩ h.unit.2
  · rw [h.alike.frame]; rfl
  · rw [h.alike.same hk]; rfl

/-- Every element keeps states alike. -/
theorem outRel_exec_sps {i : Instr} {e : SpsElem} (hf : i.fmt = .sps e) (h : AtAlike K H s s') (hst : StagedAlike s s' e) :
    OutRel (RunAlike K H) (exec i s) (exec i s') := by
  cases i <;> simp only [Instr.fmt, reduceCtorEq, Fmt.sps.injEq] at hf <;> subst hf
  case spsMaxSubLayersMinus1 => exact outRel_maxSubLayersMinus1 h _
  case spsGeneralProfileIdc => exact outRel_generalProfileIdc h hst _
  case spsGeneralConstraintBlock => exact outRel_generalConstraintBlock h hst _
  case spsGeneralLevelIdc => exact outRel_generalLevelIdc h hst _
  case spsSubLayerPresentFlags => exact outRel_presentFlags h hst _ _
  case spsSubLayerPadding => exact outRel_padding h hst _
  case spsSubLayerProfile => exact outRel_subLayerProfile h hst _
  case spsSubLayerLevelIdc => exact outRel_subLayerLevelIdc h hst _
  case spsChromaFormatIdc => exact outRel_chromaFormatIdc h hst _
  case spsConformanceWindowFlag => exact outRel_windowFlag h hst _
  case spsConformanceWindowOffsets => exact outRel_windowOffsets h hst _ _ _ _
  case spsBitDepthLuma => exact outRel_bitDepthLuma h hst _
  case spsBitDepthChroma => exact outRel_bitDepthChroma h hst _
  all_goals
    simp only [exec, execSpsVideoParameterSetId, execSpsTemporalIdNestingFlag, execSpsGeneralProfileSpace,
      execSpsGeneralTierFlag, execSpsGeneralCompatibilityFlags, execSpsGeneralSourceFlags, execSpsSeqParameterSetId,
      execSpsSeparateColourPlaneFlag, execSpsPicWidth, execSpsPicHeight]
    exact outRel_discarded h hst fun _ _ hst => hst

end

end Sys2Proof.Machine
end

section
/-! SUPPORT. A step of two states that are alike (20_memory.md R62, 41_nal_scanner.md R172), and the obligations on what the outcome
of a call depends on. -/

namespace Sys2Proof.Machine

open Sys2Proof

section
variable {K H : Prop} {s s' : State}

/-! ## An element that cannot be completed -/

/-- Where the cursors are the same, so are the requests that fit. -/
theorem passed_pos_alike (h : s'.pos = s.pos) (e : SpsElem) (bs : Bits) : (s'.passed e bs).pos = (s.passed e bs).pos := by
  have hadv : ∀ n, (s'.advance n).pos = (s.advance n).pos := fun n => by rw [advance_pos, advance_pos, h]
  cases e with
  | generalConstraintBlock =>
    rw [State.passed, State.passed]
    split
    · exact h
    · exact hadv 32
  | subLayerPresentFlags =>
    cases bs with
    | nil => exact h
    | cons p r => exact hadv 1
  | conformanceWindowOffsets => exact hadv _
  | _ => exact h

theorem passed_setBuf (s : State) (b : Memory) (e : SpsElem) (bs : Bits) :
    State.passed { s with buf := b } e bs = { s.passed e bs with buf := b } := by
  cases e with
  | generalConstraintBlock =>
    rw [State.passed, State.passed]
    split <;> rfl
  | subLayerPresentFlags => cases bs <;> rfl
  | _ => rfl

theorem AtAlike.passed (h : AtAlike K H s s') (e : SpsElem) (bs : Bits) : AtAlike K H (s.passed e bs) (s'.passed e bs) := by
  refine h.sps ?_ ?_ ?_ (passed_pos_alike h.cursor.1 e bs) fun hk => ?_
  · rw [passed_frame]
  · rw [passed_frame]
  · rw [passed_phase, passed_phase, h.alike.frame]; rfl
  · rw [h.alike.same hk, passed_setBuf]

theorem outRel_fetchElement {e : SpsElem} (h : AtAlike K H s s') (hst : StagedAlike s s' e) :
    OutRel (RunAlike K H) (runFetched (fetchElement e s)) (runFetched (fetchElement e s')) := by
  have hbits : s'.elementBits e = s.elementBits e := by rw [State.elementBits, State.elementBits, h.cursor.window]
  have hcode : s'.codeAt e = s.codeAt e := by
    simp only [State.codeAt, hbits, h.cursor.window, h.cursor.remain, h.alike.cfg]
  rw [fetchElement, fetchElement, hcode, hbits]
  cases hc : s.codeAt e with
  | found i => exact outRel_exec_sps (codeAt_found_fmt hc) h hst
  | raises err =>
    have hpass := h.passed e (s.elementBits e)
    exact .next (runAlike_raiseSps hpass.alike hpass.unit err)
  | faults f => exact .fault f
  | rejected r => exact .refused _

/-! ## A step -/

theorem outRel_nalunit (h : Alike K H s s') (hu : UnitAlike s s') : OutRel (RunAlike K H) (exec .nalunit s) (exec .nalunit s') :=
  .next ⟨⟨by rw [h.frame]; rfl, h.read, h.record, fun hk => by rw [h.same hk]⟩, hu⟩

theorem outRel_endcall (h : Alike K H s s') : OutRel (RunAlike K H) (exec .endcall s) (exec .endcall s') :=
  .next ⟨⟨by rw [h.frame]; rfl, h.read, h.record, fun hk => by rw [h.same hk]⟩, trivial⟩

/-- A step keeps two states alike, or stops both for the same reason. -/
theorem outRel_step (h : RunAlike K H s s') (hh : s.host = []) : OutRel (RunAlike K H) (step s) (step s') := by
  obtain ⟨ha, hp⟩ := h
  have hh' : s'.host = [] := by rw [ha.frame]; exact hh
  have hphase : s'.phase = s.phase := by rw [ha.frame]; rfl
  cases hs : s.phase <;> rw [hs] at hp hphase
  case idle =>
    rw [step_idle hh hs, step_idle hh' hphase]
    exact .next ⟨ha, by rw [hs]; trivial⟩
  case parsenals => exact hp.elim
  case scan =>
    rw [step_scan hh hs, step_scan hh' hphase, ha.nsw]
    exact outRel_decodeNsw ha _
  case lpField =>
    rw [step_lpField hh hs, step_lpField hh' hphase]
    exact outRel_fetchLengthField ha
  case delim =>
    rw [step_delim hh hs, step_delim hh' hphase]
    exact outRel_fetchDelimiter ha
  case nalunit =>
    rw [step_nalunit hh hs, step_nalunit hh' hphase]
    exact outRel_nalunit ha hp
  case header =>
    rw [step_header hh hs, step_header hh' hphase]
    exact outRel_fetchHeader ha hp
  case dispatch =>
    rw [step_dispatch hh hs, step_dispatch hh' hphase]
    exact outRel_dispatch ha hp.1 hp.2
  case epb =>
    obtain ⟨hu, hi, hk, hscr⟩ := hp
    rw [step_epb hh hs, step_epb hh' hphase]
    exact outRel_fetchEpb ha hu hi hk hscr
  case parsesps =>
    obtain ⟨hu, hl, hscr⟩ := hp
    rw [step_parsesps hh hs, step_parsesps hh' hphase]
    exact outRel_parsesps ha hu hl hscr
  case sps e =>
    obtain ⟨hu, hc, hst⟩ := hp
    rw [step_sps hh hs, step_sps hh' hphase]
    exact outRel_fetchElement ⟨ha, hu, hc⟩ hst
  case endcall =>
    rw [step_endcall hh hs, step_endcall hh' hphase]
    exact outRel_endcall ha

section
variable {R : State → State → Prop} {o : Out}

theorem OutRel.of_next {t : State} (h : OutRel R (.next t) o) : ∃ t', o = .next t' ∧ R t t' := by
  cases h with
  | next h => exact ⟨_, rfl, h⟩

theorem OutRel.of_fault {f : Fault} (h : OutRel R (.fault f) o) : o = .fault f := by
  cases h
  rfl

theorem OutRel.of_refused {r : Refusal} (h : OutRel R (.refused r) o) : o = .refused r := by
  cases h
  rfl

end

/-! ## Bytes from `LEN` on -/

theorem bufRead_alike (hl : s'.len = s.len) (hb : ∀ i < s.len.toNat, s'.buf.read? i = s.buf.read? i) (i : Nat) :
    s'.bufRead i = s.bufRead i := by
  rw [State.bufRead, State.bufRead, hl]
  split
  next hi => rw [hb i hi]
  · rfl

theorem stagedAlike_setBuf (s : State) (b : Memory) : ∀ e, StagedAlike s { s with buf := b } e := by
  have hg : GeneralAlike s { s with buf := b } := ⟨rfl, rfl, rfl, rfl⟩
  have hf : ∀ n, FlagsAlike n s { s with buf := b } := fun _ _ _ => ⟨rfl, rfl⟩
  intro e
  cases e with
  | videoParameterSetId | maxSubLayersMinus1 => trivial
  | temporalIdNestingFlag | generalProfileSpace | generalTierFlag | generalProfileIdc => exact (rfl : s.nSub = s.nSub)
  | generalCompatibilityFlags | generalSourceFlags | generalConstraintBlock => exact ⟨rfl, rfl⟩
  | generalLevelIdc => exact ⟨rfl, rfl, rfl⟩
  | subLayerPresentFlags | subLayerPadding | subLayerLevelIdc => exact ⟨hg, rfl, hf _⟩
  | subLayerProfile => exact ⟨hg, rfl, hf _, rfl⟩
  | seqParameterSetId | chromaFormatIdc => exact hg
  | bitDepthChroma => exact ⟨hg, rfl, rfl⟩
  | _ => exact ⟨hg, rfl⟩

theorem placeAlike_setBuf (s : State) (b : Memory) {p : Phase} (hp : p ≠ .parsenals) : PlaceAlike s { s with buf := b } p := by
  have hu : UnitAlike s { s with buf := b } := ⟨rfl, rfl⟩
  have hscr : ∀ n, ScrAlike n s { s with buf := b } := fun _ _ _ => rfl
  cases p with
  | parsenals => exact hp rfl
  | nalunit | header => exact hu
  | dispatch => exact ⟨hu, rfl⟩
  | epb => exact ⟨hu, rfl, rfl, hscr _⟩
  | parsesps => exact ⟨hu, rfl, hscr _⟩
  | sps e => exact ⟨hu, ⟨rfl, rfl, fun _ => rfl⟩, stagedAlike_setBuf s b e⟩
  | _ => trivial

/-- The bytes of `BUF` before `LEN` are all of `BUF` that the engine sees. -/
theorem runAlike_setBuf (b : Memory) (hb : ∀ i < s.len.toNat, b.read? i = s.buf.read? i) (hp : s.phase ≠ .parsenals) :
    RunAlike True True s { s with buf := b } :=
  ⟨⟨rfl, bufRead_alike rfl hb, fun _ => ⟨rfl, rfl, rfl, rfl, rfl⟩, fun _ => rfl⟩, placeAlike_setBuf s b hp⟩

theorem outRel_setBuf (b : Memory) (hh : s.host = []) (hb : ∀ i < s.len.toNat, b.read? i = s.buf.read? i) :
    OutRel (fun t t' => t' = { t with buf := b }) (step s) (step { s with buf := b }) := by
  by_cases hp : s.phase = .parsenals
  · rw [step_parsenals hh hp, step_parsenals (s := { s with buf := b }) hh hp]
    exact .ite (fun _ => .refused _) fun _ => .next rfl
  · have hstep := outRel_step (runAlike_setBuf b hb hp) hh
    cases ht : step s with
    | next t =>
      rw [ht] at hstep
      obtain ⟨t', ht', ha, -⟩ := hstep.of_next
      have hbuf : t'.buf = b := by rw [engineFrame_of_step (s := { s with buf := b }) hh ht']
      have hsame := ha.same trivial
      rw [hbuf] at hsame
      rw [ht']
      exact .next hsame
    | fault f =>
      rw [ht] at hstep
      rw [hstep.of_fault]
      exact .fault f
    | refused r =>
      rw [ht] at hstep
      rw [hstep.of_refused]
      exact .refused r

/-- Settles O56: the two states are alike, and stay the same but for `BUF`. -/
theorem bytesPastLenIrrelevant : Obligations.BytesPastLenIrrelevant := by
  intro s b hh hb
  have hrel := outRel_setBuf b hh hb
  refine ⟨fun t ht => ?_, fun f hf => ?_, fun r hr => ?_⟩
  · rw [ht] at hrel
    obtain ⟨t', ht', rfl⟩ := hrel.of_next
    exact ht'
  · rw [hf] at hrel
    exact hrel.of_fault
  · rw [hr] at hrel
    exact hrel.of_refused

/-! ## A whole call -/

/-- Runs of states that are alike end alike. -/
theorem run_alike {t : State} (k : Nat) (h : RunAlike K H s s') (hh : s.host = []) (ht : Sys2Proof.core.run k s = .next t) :
    ∃ t', Sys2Proof.core.run k s' = .next t' ∧ RunAlike K H t t' := by
  induction k generalizing s s' with
  | zero => cases ht; exact ⟨s', rfl, h⟩
  | succ k ih =>
    cases hu : step s with
    | next u =>
      rw [run_succ k hu] at ht
      have hrel := outRel_step h hh
      rw [hu] at hrel
      obtain ⟨u', hu', hrel⟩ := hrel.of_next
      have hhu : u.host = [] := by rw [engineFrame_of_step hh hu]; exact hh
      obtain ⟨t', ht', hend⟩ := ih hrel hhu ht
      exact ⟨t', (run_succ k hu').trans ht', hend⟩
    | fault f =>
      have hf : Sys2Proof.core.step s = .fault f := hu
      simp only [Host.Core.run, hf] at ht
      cases ht
    | refused r =>
      have hr : Sys2Proof.core.step s = .refused r := hu
      simp only [Host.Core.run, hr] at ht
      cases ht

/-- The start of a call leaves the same `STATUS`, whatever it was. -/
theorem started_alike (hi : s.Inv) (hi' : s'.Inv) : Status.started s'.status = Status.started s.status := by
  refine BitVec.eq_of_getLsbD_eq fun j hj => ?_
  rw [Status.get_started _ _ hj, Status.get_started _ _ hj]
  split
  · rfl
  · split
    · rfl
    · rw [hi'.reserved j (by omega) (by omega), hi.reserved j (by omega) (by omega)]

/-- A call given the same inputs begins alike. -/
theorem runAlike_begin (hi : s.Inv) (hi' : s'.Inv) (hh : s.host = []) (hh' : s'.host = []) (h : s.SameInputs s') :
    RunAlike False (s.SameRecord s') (s.beginCall.goto .scan) (s'.beginCall.goto .scan) := by
  obtain ⟨hl, hn, hc, hb⟩ := h
  have hst := started_alike hi hi'
  refine ⟨⟨?_, fun i => ?_, fun hr => hr.resolve_left nofun, False.elim⟩, trivial⟩
  · simp only [State.beginCall, State.goto, State.over, hst, hl, hn, hc, hh, hh']
  · exact bufRead_alike (s := s) (s' := s') hl hb i

/-- Settles O60: the first step makes the states alike, and they stay so to the end of the call. -/
theorem callDependsOnInputsAlone : Obligations.CallDependsOnInputsAlone := by
  intro s s' hi hi' hh hh' hp hp' hin k t ht hidle
  have first : ∀ {u : State}, u.Inv → u.host = [] → u.phase = .parsenals → step u = .next (u.beginCall.goto .scan) :=
    fun {u} hu hh hp => by
      have hmode : u.nsw.toNat ≤ 4 := hu.mode (by rw [hp]; nofun)
      rw [step_parsenals hh hp]
      exact if_neg (Nat.not_lt.2 hmode)
  cases k with
  | zero =>
    cases ht
    rw [hp] at hidle
    cases hidle
  | succ k =>
    rw [run_succ k (first hi hh hp)] at ht
    obtain ⟨t', ht', ha, -⟩ := run_alike k (runAlike_begin hi hi' hh hh' hin) hh ht
    refine ⟨t', (run_succ k (first hi' hh' hp')).trans ht', ?_, ?_, ?_, ?_, ?_, ?_, ?_, ?_, ha.record⟩ <;> rw [ha.frame]
    · exact hidle
    all_goals rfl

end

end Sys2Proof.Machine
end
